-- ==== Sys2Proof/Word.lean ====
section
/-! DEFINITION. The word types of the CORE crypto engine: one name per width the spec gives a register or a byte
string. No meaning stands here, so that nothing a test could show wrong is out of a repair's reach. -/

namespace Sys2Proof

/-- A byte of `BUF` or of a byte string (20_memory.md rule R51). -/
abbrev Byte := BitVec 8

/-- An address or length register `R[i]`, and the `imm16` field (10_state.md rule R22, 30_encoding.md rule R70). -/
abbrev Half := BitVec 16

/-- A command word, a status word, `ERRCMD`, `CC` (30_encoding.md rule R70, 10_state.md rules R32 to R34). -/
abbrev Word := BitVec 32

/-- A lane of the Keccak state (10_state.md rule R25). -/
abbrev Lane := BitVec 64

/-- The counter of counter mode, `CTR` (10_state.md rule R30). -/
abbrev Counter := BitVec 128

/-- A wide register `W[i]`, and a coordinate of a point register (10_state.md rules R23, R24). -/
abbrev Wide := BitVec 256

/-- The Keccak state `A[0..24]` (41_keccak.md rule R120). -/
abbrev Lanes := Vector Lane 25

/-- A 16-byte string: an AES block or a round key (43_aes128.md rule R220). -/
abbrev Block := Vector Byte 16

/-- The 11 round keys (10_state.md rule R28). -/
abbrev RoundKeys := Vector Block 11

/-- One answer of the entropy source, 32 bytes (00_scope.md rule R15, `Entropy32()`). -/
abbrev Draw := Vector Byte 32

end Sys2Proof
end

