-- ==== Sys2Proof/Syntax.lean ====
section
/-! DEFINITION. The commands of the engine: one constructor per row of the opcode table (30_encoding.md rule R75),
operands in field order `a`, `b`, `c`. A register operand is a number of its file, so a number outside the file
(30_encoding.md rules R73, R74) has no term; the decoder refuses the words that hold one. -/

namespace Sys2Proof

/-- A number of the `R` file, `0..7` (30_encoding.md rule R73). -/
abbrev RReg := Fin 8

/-- A number of the `W` file, `0..7` (30_encoding.md rule R73). -/
abbrev WReg := Fin 8

/-- A number of the `Q` file, `0..3` (30_encoding.md rule R73). -/
abbrev QReg := Fin 4

/-- The 38 commands of rule R75. -/
inductive Instr where
  /-- `NOP`, R100 -/
  | nop
  /-- `CLRERR`, R101 -/
  | clrerr
  /-- `SRST`, R102 -/
  | srst
  /-- `LI Ra, imm16`, R103 -/
  | li (a : RReg) (imm : Half)
  /-- `LDW Wa, Rb`, R104 -/
  | ldw (a : WReg) (b : RReg)
  /-- `STW Wa, Rb`, R105 -/
  | stw (a : WReg) (b : RReg)
  /-- `MOVW Wa, Wb`, R106 -/
  | movw (a : WReg) (b : WReg)
  /-- `K.INIT`, R133 -/
  | kInit
  /-- `K.F1600`, R134 -/
  | kF1600
  /-- `K.ROUND imm16`, R135 -/
  | kRound (imm : Half)
  /-- `K.ABSORB Ra, Rb`, R136 -/
  | kAbsorb (a : RReg) (b : RReg)
  /-- `K.FINAL`, R137 -/
  | kFinal
  /-- `K.SQUEEZE Wa`, R138 -/
  | kSqueeze (a : WReg)
  /-- `K.HASH Wa, Rb, Rc`, R139 -/
  | kHash (a : WReg) (b : RReg) (c : RReg)
  /-- `K.LDS Ra`, R140 -/
  | kLds (a : RReg)
  /-- `K.STS Ra`, R141 -/
  | kSts (a : RReg)
  /-- `FP.ADD Wa, Wb, Wc`, R170 -/
  | fpAdd (a : WReg) (b : WReg) (c : WReg)
  /-- `FP.SUB Wa, Wb, Wc`, R171 -/
  | fpSub (a : WReg) (b : WReg) (c : WReg)
  /-- `FP.MUL Wa, Wb, Wc`, R172 -/
  | fpMul (a : WReg) (b : WReg) (c : WReg)
  /-- `FP.NEG Wa, Wb`, R173 -/
  | fpNeg (a : WReg) (b : WReg)
  /-- `FP.INV Wa, Wb`, R174 -/
  | fpInv (a : WReg) (b : WReg)
  /-- `PSET Qa, Wb, Wc`, R180 -/
  | pset (a : QReg) (b : WReg) (c : WReg)
  /-- `PINF Qa`, R181 -/
  | pinf (a : QReg)
  /-- `PLDG Qa`, R182 -/
  | pldg (a : QReg)
  /-- `PGET Wa, Wb, Qc`, R183 -/
  | pget (a : WReg) (b : WReg) (c : QReg)
  /-- `PMOV Qa, Qb`, R184 -/
  | pmov (a : QReg) (b : QReg)
  /-- `PNEG Qa, Qb`, R185 -/
  | pneg (a : QReg) (b : QReg)
  /-- `PDBL Qa, Qb`, R186 -/
  | pdbl (a : QReg) (b : QReg)
  /-- `PADD Qa, Qb, Qc`, R187 -/
  | padd (a : QReg) (b : QReg) (c : QReg)
  /-- `PMUL Qa, Wb, Qc`, R188 -/
  | pmul (a : QReg) (b : WReg) (c : QReg)
  /-- `EC.PUBKEY Qa, Wb, Rc`, R194 -/
  | ecPubkey (a : QReg) (b : WReg) (c : RReg)
  /-- `EC.ADDR Wa, Rb, Rc`, R195 -/
  | ecAddr (a : WReg) (b : RReg) (c : RReg)
  /-- `EC.KEYGEN Wa`, R196 -/
  | ecKeygen (a : WReg)
  /-- `AES.KEYEXP Ra, Rb`, R231 -/
  | aesKeyexp (a : RReg) (b : RReg)
  /-- `AES.ENCB Ra, Rb, Rc`, R232 -/
  | aesEncb (a : RReg) (b : RReg) (c : RReg)
  /-- `AES.SETCTR Ra, Rb`, R233 -/
  | aesSetctr (a : RReg) (b : RReg)
  /-- `AES.CTRX Ra, Rb, Rc`, R234 -/
  | aesCtrx (a : RReg) (b : RReg) (c : RReg)
  /-- `AES.CLR`, R235 -/
  | aesClr
  deriving DecidableEq, Repr

/-- Why a word is not a legal command: the four causes of 30_encoding.md rule R74, in its order. Each of them is the
one fault kind `IllegalCommand`. -/
inductive Illegal where
  /-- R74 (a): `op` is not one of the 38 opcodes. -/
  | unknownOpcode
  /-- R74 (b): a bit the format marks must-be-zero is 1. -/
  | mustBeZero
  /-- R74 (c): a register field holds a number outside its file. -/
  | registerNumber
  /-- R74 (d): `K.ROUND` with `imm16 ≥ 24`. -/
  | roundIndex
  deriving DecidableEq, Repr

end Sys2Proof
end

