-- ==== Sys2Proof/WellFormed.lean ====
section
/-! DEFINITION. The check on an instruction that its type does not make already. Register numbers are in their files
by type (Syntax.lean); the round index of `K.ROUND` is a 16-bit field of which only `0..23` is legal. -/

namespace Sys2Proof

/-- `K.ROUND` admits only the round indices `0..23` (30_encoding.md rules R74 (d), R77). Every other combination of
legal register numbers and immediates is legal (rule R74, last sentence). -/
def Instr.wf : Instr → Bool
  | .kRound imm => imm.toNat < 24
  | .nop | .clrerr | .srst | .li _ _ | .ldw _ _ | .stw _ _ | .movw _ _ => true
  | .kInit | .kF1600 | .kAbsorb _ _ | .kFinal | .kSqueeze _ | .kHash _ _ _ | .kLds _ | .kSts _ => true
  | .fpAdd _ _ _ | .fpSub _ _ _ | .fpMul _ _ _ | .fpNeg _ _ | .fpInv _ _ => true
  | .pset _ _ _ | .pinf _ | .pldg _ | .pget _ _ _ | .pmov _ _ | .pneg _ _ | .pdbl _ _ => true
  | .padd _ _ _ | .pmul _ _ _ | .ecPubkey _ _ _ | .ecAddr _ _ _ | .ecKeygen _ => true
  | .aesKeyexp _ _ | .aesEncb _ _ _ | .aesSetctr _ _ | .aesCtrx _ _ _ | .aesClr => true

/-- A well-formed instruction: one that some legal command word stands for. -/
abbrev WellFormed (i : Instr) : Prop := i.wf = true

end Sys2Proof
end

