-- ==== Sys2Proof/Decode.lean ====
section
/-! DEFINITION. The decoder of a 32-bit command word and, after it, the encoder, both from the formats of
30_encoding.md rule R72 and the opcode map of rule R75. A command word is a number and has no byte order
(20_memory.md rule R56), so the word of the opcode table is the word at the command port. -/

namespace Sys2Proof

/-! ### The fields of a word (rule R70) -/

/-- `op = cmd[31:24]`. -/
def opField (cmd : Word) : BitVec 8 := cmd.extractLsb' 24 8

/-- `a = cmd[23:20]`. -/
def aField (cmd : Word) : BitVec 4 := cmd.extractLsb' 20 4

/-- `b = cmd[19:16]`. -/
def bField (cmd : Word) : BitVec 4 := cmd.extractLsb' 16 4

/-- `c = cmd[15:12]`. -/
def cField (cmd : Word) : BitVec 4 := cmd.extractLsb' 12 4

/-- `imm16 = cmd[15:0]`, unsigned, used as it is (rule R77). -/
def immField (cmd : Word) : Half := cmd.extractLsb' 0 16

/-! ### Register numbers (rule R73) -/

/-- A field that names an `R` or a `W` register: `0..7`, anything else is outside the file. -/
def regOf8 (f : BitVec 4) : Except Illegal (Fin 8) :=
  if h : f.toNat < 8 then .ok ⟨f.toNat, h⟩ else .error .registerNumber

/-- A field that names a `Q` register: `0..3`, anything else is outside the file. -/
def regOf4 (f : BitVec 4) : Except Illegal (Fin 4) :=
  if h : f.toNat < 4 then .ok ⟨f.toNat, h⟩ else .error .registerNumber

/-! ### The six formats (rule R72): the must-be-zero bits are looked at before the register numbers (rule R78) -/

/-- Format `Z`: `cmd[23:0]` must be zero. -/
def formZ (cmd : Word) (i : Instr) : Except Illegal Instr :=
  if cmd.extractLsb' 0 24 = 0#24 then .ok i else .error .mustBeZero

/-- Format `A`: `cmd[19:0]` must be zero. -/
def formA {α : Type} (cmd : Word) (fa : BitVec 4 → Except Illegal α) (k : α → Instr) : Except Illegal Instr :=
  if cmd.extractLsb' 0 20 = 0#20 then do
    let a ← fa (aField cmd)
    .ok (k a)
  else .error .mustBeZero

/-- Format `AB`: `cmd[15:0]` must be zero. -/
def formAB {α β : Type} (cmd : Word) (fa : BitVec 4 → Except Illegal α) (fb : BitVec 4 → Except Illegal β)
    (k : α → β → Instr) : Except Illegal Instr :=
  if cmd.extractLsb' 0 16 = 0#16 then do
    let a ← fa (aField cmd)
    let b ← fb (bField cmd)
    .ok (k a b)
  else .error .mustBeZero

/-- Format `ABC`: `cmd[11:0]` must be zero. -/
def formABC {α β γ : Type} (cmd : Word) (fa : BitVec 4 → Except Illegal α) (fb : BitVec 4 → Except Illegal β)
    (fc : BitVec 4 → Except Illegal γ) (k : α → β → γ → Instr) : Except Illegal Instr :=
  if cmd.extractLsb' 0 12 = 0#12 then do
    let a ← fa (aField cmd)
    let b ← fb (bField cmd)
    let c ← fc (cField cmd)
    .ok (k a b c)
  else .error .mustBeZero

/-- Format `AI`: `cmd[19:16]` must be zero. -/
def formAI {α : Type} (cmd : Word) (fa : BitVec 4 → Except Illegal α) (k : α → Half → Instr) :
    Except Illegal Instr :=
  if bField cmd = 0#4 then do
    let a ← fa (aField cmd)
    .ok (k a (immField cmd))
  else .error .mustBeZero

/-- Format `I`, whose one command is `K.ROUND`: `cmd[23:16]` must be zero, then the index must be below 24
(rule R74 (d)). -/
def formI (cmd : Word) (k : Half → Instr) : Except Illegal Instr :=
  if cmd.extractLsb' 16 8 = 0#8 then
    if (immField cmd).toNat < 24 then .ok (k (immField cmd)) else .error .roundIndex
  else .error .mustBeZero

/-! ### The decoder (rule R78) -/

/-- The command a word stands for, or the cause of rule R74 for which it is illegal. Total on all `2^32` words. -/
def decode (cmd : Word) : Except Illegal Instr :=
  match (opField cmd).toNat with
  | 0x00 => formZ cmd .nop
  | 0x01 => formZ cmd .clrerr
  | 0x02 => formZ cmd .srst
  | 0x03 => formAI cmd regOf8 .li
  | 0x04 => formAB cmd regOf8 regOf8 .ldw
  | 0x05 => formAB cmd regOf8 regOf8 .stw
  | 0x06 => formAB cmd regOf8 regOf8 .movw
  | 0x10 => formZ cmd .kInit
  | 0x11 => formZ cmd .kF1600
  | 0x12 => formI cmd .kRound
  | 0x13 => formAB cmd regOf8 regOf8 .kAbsorb
  | 0x14 => formZ cmd .kFinal
  | 0x15 => formA cmd regOf8 .kSqueeze
  | 0x16 => formABC cmd regOf8 regOf8 regOf8 .kHash
  | 0x17 => formA cmd regOf8 .kLds
  | 0x18 => formA cmd regOf8 .kSts
  | 0x20 => formABC cmd regOf8 regOf8 regOf8 .fpAdd
  | 0x21 => formABC cmd regOf8 regOf8 regOf8 .fpSub
  | 0x22 => formABC cmd regOf8 regOf8 regOf8 .fpMul
  | 0x23 => formAB cmd regOf8 regOf8 .fpNeg
  | 0x24 => formAB cmd regOf8 regOf8 .fpInv
  | 0x28 => formABC cmd regOf4 regOf8 regOf8 .pset
  | 0x29 => formA cmd regOf4 .pinf
  | 0x2A => formA cmd regOf4 .pldg
  | 0x2B => formABC cmd regOf8 regOf8 regOf4 .pget
  | 0x2C => formAB cmd regOf4 regOf4 .pmov
  | 0x2D => formAB cmd regOf4 regOf4 .pneg
  | 0x2E => formAB cmd regOf4 regOf4 .pdbl
  | 0x2F => formABC cmd regOf4 regOf4 regOf4 .padd
  | 0x30 => formABC cmd regOf4 regOf8 regOf4 .pmul
  | 0x38 => formABC cmd regOf4 regOf8 regOf8 .ecPubkey
  | 0x39 => formABC cmd regOf8 regOf8 regOf8 .ecAddr
  | 0x3A => formA cmd regOf8 .ecKeygen
  | 0x40 => formAB cmd regOf8 regOf8 .aesKeyexp
  | 0x41 => formABC cmd regOf8 regOf8 regOf8 .aesEncb
  | 0x42 => formAB cmd regOf8 regOf8 .aesSetctr
  | 0x43 => formABC cmd regOf8 regOf8 regOf8 .aesCtrx
  | 0x44 => formZ cmd .aesClr
  | _ => .error .unknownOpcode

/-! ### The encoder -/

/-- A register number in a 4-bit field. -/
def regField {n : Nat} (r : Fin n) : BitVec 4 := BitVec.ofNat 4 r.val

/-- The word of formats `Z`, `A`, `AB`, `ABC`, absent fields zero: `op·2^24 + a·2^20 + b·2^16 + c·2^12` (rule R72). -/
def wordABC (op : BitVec 8) (a b c : BitVec 4) : Word := op ++ a ++ b ++ c ++ 0#12

/-- The word of formats `AI` and `I`: `op·2^24 + a·2^20 + imm16` (rule R72). -/
def wordAI (op : BitVec 8) (a : BitVec 4) (imm : Half) : Word := op ++ a ++ 0#4 ++ imm

/-- The word of a command (rules R72, R75). Of an instruction that is not well-formed it gives a word that the decoder
refuses. -/
def encode : Instr → Word
  | .nop => wordABC 0x00 0 0 0
  | .clrerr => wordABC 0x01 0 0 0
  | .srst => wordABC 0x02 0 0 0
  | .li a imm => wordAI 0x03 (regField a) imm
  | .ldw a b => wordABC 0x04 (regField a) (regField b) 0
  | .stw a b => wordABC 0x05 (regField a) (regField b) 0
  | .movw a b => wordABC 0x06 (regField a) (regField b) 0
  | .kInit => wordABC 0x10 0 0 0
  | .kF1600 => wordABC 0x11 0 0 0
  | .kRound imm => wordAI 0x12 0 imm
  | .kAbsorb a b => wordABC 0x13 (regField a) (regField b) 0
  | .kFinal => wordABC 0x14 0 0 0
  | .kSqueeze a => wordABC 0x15 (regField a) 0 0
  | .kHash a b c => wordABC 0x16 (regField a) (regField b) (regField c)
  | .kLds a => wordABC 0x17 (regField a) 0 0
  | .kSts a => wordABC 0x18 (regField a) 0 0
  | .fpAdd a b c => wordABC 0x20 (regField a) (regField b) (regField c)
  | .fpSub a b c => wordABC 0x21 (regField a) (regField b) (regField c)
  | .fpMul a b c => wordABC 0x22 (regField a) (regField b) (regField c)
  | .fpNeg a b => wordABC 0x23 (regField a) (regField b) 0
  | .fpInv a b => wordABC 0x24 (regField a) (regField b) 0
  | .pset a b c => wordABC 0x28 (regField a) (regField b) (regField c)
  | .pinf a => wordABC 0x29 (regField a) 0 0
  | .pldg a => wordABC 0x2A (regField a) 0 0
  | .pget a b c => wordABC 0x2B (regField a) (regField b) (regField c)
  | .pmov a b => wordABC 0x2C (regField a) (regField b) 0
  | .pneg a b => wordABC 0x2D (regField a) (regField b) 0
  | .pdbl a b => wordABC 0x2E (regField a) (regField b) 0
  | .padd a b c => wordABC 0x2F (regField a) (regField b) (regField c)
  | .pmul a b c => wordABC 0x30 (regField a) (regField b) (regField c)
  | .ecPubkey a b c => wordABC 0x38 (regField a) (regField b) (regField c)
  | .ecAddr a b c => wordABC 0x39 (regField a) (regField b) (regField c)
  | .ecKeygen a => wordABC 0x3A (regField a) 0 0
  | .aesKeyexp a b => wordABC 0x40 (regField a) (regField b) 0
  | .aesEncb a b c => wordABC 0x41 (regField a) (regField b) (regField c)
  | .aesSetctr a b => wordABC 0x42 (regField a) (regField b) 0
  | .aesCtrx a b c => wordABC 0x43 (regField a) (regField b) (regField c)
  | .aesClr => wordABC 0x44 0 0 0

/-! ### The host's view of the opcode table -/

/-- The command word whose low `nbits` bits are those of `w` and whose other bits are 0. The table's bit numbers are
the word's own (rule R70); there are no bytes to lay out, since a command word is never stored (20_memory.md R56). -/
def tableWord (nbits w : Nat) : Word := BitVec.ofNat 32 (w % 2 ^ nbits)

/-- The instruction the decoder reads from a word of the opcode table. -/
def decodeTableWord (nbits w : Nat) : Option Instr :=
  match decode (tableWord nbits w) with
  | .ok i => some i
  | .error _ => none

end Sys2Proof
end

