-- ==== Sys2Proof/Machine/Bytes.lean ====
section
/-! DEFINITION. Byte strings and fixed arrays: the conversions of 00_scope.md rules R12 and R13, and the two helpers
with which every array of the model is built and read. A byte string is a list, first byte first. -/

namespace Sys2Proof.Machine

/-- The array whose entry `i` is `f i`. -/
def vecOf {α : Type} (n : Nat) (f : Nat → α) : Vector α n := ⟨⟨(List.range n).map f⟩, by simp⟩

/-- Entry `i` of an array of words; every use has `i < n`. -/
def nth {w n : Nat} (v : Vector (BitVec w) n) (i : Nat) : BitVec w := v.toList.getD i 0

/-- Byte `i` of a byte string; every use has `i < length`. -/
def byteAt (bs : List Byte) (i : Nat) : Byte := bs.getD i 0

/-- `be_n(b)`: the first byte is the most significant (rule R13). -/
def beNat (bs : List Byte) : Nat := bs.foldl (fun acc b => acc * 256 + b.toNat) 0

/-- `bytes_be_n(v)`: the `n` bytes of `v`, most significant first (rule R13). -/
def beBytes (n v : Nat) : List Byte := (List.range n).map fun i => BitVec.ofNat 8 (v >>> (8 * (n - 1 - i)))

/-- `le64(b)` for 8 bytes: the first byte is the least significant (rule R13). -/
def leLane (bs : List Byte) : Lane := BitVec.ofNat 64 (beNat bs.reverse)

/-- `bytes_le64(v)`: the 8 bytes of a lane, least significant first (rule R13). -/
def laneBytes (v : Lane) : List Byte := (List.range 8).map fun i => v.extractLsb' (8 * i) 8

/-- A 32-byte string as the integer a `W` register holds for it, `be_32(b)` (10_state.md rule R23). -/
def wideOfBytes (bs : List Byte) : Wide := BitVec.ofNat 256 (beNat bs)

/-- A `W` register as a 32-byte string, `bytes_be_32(v)` (20_memory.md rule R53). -/
def bytesOfWide (v : Wide) : List Byte := beBytes 32 v.toNat

/-- The first 16 bytes of a byte string as a block (43_aes128.md rule R220). -/
def blockOfBytes (bs : List Byte) : Block := vecOf 16 (byteAt bs)

end Sys2Proof.Machine
end

