-- ==== Sys2Proof/Machine/Aes.lean ====
section
/-! DEFINITION. The functions of the BlockCipher unit: AES-128 key expansion, the block transform and counter-mode
streaming (43_aes128.md sections 1 to 3). -/

namespace Sys2Proof.Machine

/-- The S-box, `SBOX[0..255]` (rule R221). -/
def sbox : List Byte :=
  [0x63, 0x7c, 0x77, 0x7b, 0xf2, 0x6b, 0x6f, 0xc5, 0x30, 0x01, 0x67, 0x2b, 0xfe, 0xd7, 0xab, 0x76,
   0xca, 0x82, 0xc9, 0x7d, 0xfa, 0x59, 0x47, 0xf0, 0xad, 0xd4, 0xa2, 0xaf, 0x9c, 0xa4, 0x72, 0xc0,
   0xb7, 0xfd, 0x93, 0x26, 0x36, 0x3f, 0xf7, 0xcc, 0x34, 0xa5, 0xe5, 0xf1, 0x71, 0xd8, 0x31, 0x15,
   0x04, 0xc7, 0x23, 0xc3, 0x18, 0x96, 0x05, 0x9a, 0x07, 0x12, 0x80, 0xe2, 0xeb, 0x27, 0xb2, 0x75] ++
  [0x09, 0x83, 0x2c, 0x1a, 0x1b, 0x6e, 0x5a, 0xa0, 0x52, 0x3b, 0xd6, 0xb3, 0x29, 0xe3, 0x2f, 0x84,
   0x53, 0xd1, 0x00, 0xed, 0x20, 0xfc, 0xb1, 0x5b, 0x6a, 0xcb, 0xbe, 0x39, 0x4a, 0x4c, 0x58, 0xcf,
   0xd0, 0xef, 0xaa, 0xfb, 0x43, 0x4d, 0x33, 0x85, 0x45, 0xf9, 0x02, 0x7f, 0x50, 0x3c, 0x9f, 0xa8,
   0x51, 0xa3, 0x40, 0x8f, 0x92, 0x9d, 0x38, 0xf5, 0xbc, 0xb6, 0xda, 0x21, 0x10, 0xff, 0xf3, 0xd2] ++
  [0xcd, 0x0c, 0x13, 0xec, 0x5f, 0x97, 0x44, 0x17, 0xc4, 0xa7, 0x7e, 0x3d, 0x64, 0x5d, 0x19, 0x73,
   0x60, 0x81, 0x4f, 0xdc, 0x22, 0x2a, 0x90, 0x88, 0x46, 0xee, 0xb8, 0x14, 0xde, 0x5e, 0x0b, 0xdb,
   0xe0, 0x32, 0x3a, 0x0a, 0x49, 0x06, 0x24, 0x5c, 0xc2, 0xd3, 0xac, 0x62, 0x91, 0x95, 0xe4, 0x79,
   0xe7, 0xc8, 0x37, 0x6d, 0x8d, 0xd5, 0x4e, 0xa9, 0x6c, 0x56, 0xf4, 0xea, 0x65, 0x7a, 0xae, 0x08] ++
  [0xba, 0x78, 0x25, 0x2e, 0x1c, 0xa6, 0xb4, 0xc6, 0xe8, 0xdd, 0x74, 0x1f, 0x4b, 0xbd, 0x8b, 0x8a,
   0x70, 0x3e, 0xb5, 0x66, 0x48, 0x03, 0xf6, 0x0e, 0x61, 0x35, 0x57, 0xb9, 0x86, 0xc1, 0x1d, 0x9e,
   0xe1, 0xf8, 0x98, 0x11, 0x69, 0xd9, 0x8e, 0x94, 0x9b, 0x1e, 0x87, 0xe9, 0xce, 0x55, 0x28, 0xdf,
   0x8c, 0xa1, 0x89, 0x0d, 0xbf, 0xe6, 0x42, 0x68, 0x41, 0x99, 0x2d, 0x0f, 0xb0, 0x54, 0xbb, 0x16]

/-- `SBOX[b]`. -/
def subByte (b : Byte) : Byte := sbox.getD b.toNat 0

/-- GF(2^8) doubling with the reduction constant `0x1B` (rule R223). -/
def xtime (b : Byte) : Byte := if b.getLsbD 7 then (b <<< 1) ^^^ 0x1B else b <<< 1

/-- Multiplication by 2 (rule R223). -/
def mul2 (b : Byte) : Byte := xtime b

/-- Multiplication by 3 (rule R223). -/
def mul3 (b : Byte) : Byte := xtime b ^^^ b

/-- `Rcon[j]` for `j = 1..10` (rule R222). -/
def rcon (j : Nat) : Byte := [0x01, 0x02, 0x04, 0x08, 0x10, 0x20, 0x40, 0x80, 0x1B, 0x36].getD (j - 1) 0

/-! ### Key schedule (rule R224) -/

/-- A word of the key schedule: a 4-byte string. -/
abbrev KeyWord := Vector Byte 4

/-- What is done to every fourth word: rotation, byte substitution, round constant (rule R224). -/
def scheduleCore (t : KeyWord) (j : Nat) : KeyWord :=
  vecOf 4 fun k => if k = 0 then subByte (nth t 1) ^^^ rcon j else subByte (nth t ((k + 1) % 4))

/-- Word `i` of a schedule. -/
def wordAt (ws : List KeyWord) (i : Nat) : KeyWord := ws.getD i (Vector.replicate 4 0)

/-- The word after the words `ws`, of index `i = |ws|` (rule R224). -/
def nextKeyWord (ws : List KeyWord) : KeyWord :=
  let i := ws.length
  let t := if i % 4 = 0 then scheduleCore (wordAt ws (i - 1)) (i / 4) else wordAt ws (i - 1)
  vecOf 4 fun k => nth (wordAt ws (i - 4)) k ^^^ nth t k

/-- `n` further words. -/
def growSchedule : Nat → List KeyWord → List KeyWord
  | 0, ws => ws
  | n + 1, ws => growSchedule n (ws ++ [nextKeyWord ws])

/-- The first four words: the key. -/
def keyWords (key : Block) : List KeyWord := (List.range 4).map fun i => vecOf 4 fun k => nth key (4 * i + k)

/-- The 44 words of the schedule (rule R224). -/
def schedule (key : Block) : List KeyWord := growSchedule 40 (keyWords key)

/-- Round key `r` of a schedule: words `4r` to `4r + 3` (rule R224, 10_state.md rule R28). -/
def roundKeyOf (ws : List KeyWord) (r : Nat) : Block := vecOf 16 fun j => nth (wordAt ws (4 * r + j / 4)) (j % 4)

/-- The 11 round keys of a schedule. -/
def roundKeysOf (ws : List KeyWord) : RoundKeys := vecOf 11 (roundKeyOf ws)

/-- `KeyExpand(key)` (rule R224). -/
def keyExpand (key : Block) : RoundKeys := roundKeysOf (schedule key)

/-- The cleared round keys (10_state.md rule R36, 43_aes128.md rule R235). -/
def zeroKeys : RoundKeys := Vector.replicate 11 (Vector.replicate 16 0)

/-! ### Block transform (rules R225 to R229) -/

/-- SubBytes (rule R225). -/
def subBytes (s : Block) : Block := vecOf 16 fun i => subByte (nth s i)

/-- ShiftRows: row `r` rotates left by `r`; index `j = r + 4c` (rule R226). -/
def shiftRows (s : Block) : Block := vecOf 16 fun j => nth s (j % 4 + 4 * ((j / 4 + j % 4) % 4))

/-- MixColumns; index `j = r + 4c` (rule R227). -/
def mixColumns (s : Block) : Block :=
  vecOf 16 fun j =>
    mul2 (nth s (j % 4 + 4 * (j / 4))) ^^^ mul3 (nth s ((j % 4 + 1) % 4 + 4 * (j / 4))) ^^^
      nth s ((j % 4 + 2) % 4 + 4 * (j / 4)) ^^^ nth s ((j % 4 + 3) % 4 + 4 * (j / 4))

/-- Round key `r`. -/
def keyAt (rk : RoundKeys) (r : Nat) : Block := rk.toList.getD r (Vector.replicate 16 0)

/-- AddRoundKey with round key `r` (rule R228). -/
def addRoundKey (rk : RoundKeys) (s : Block) (r : Nat) : Block := vecOf 16 fun i => nth s i ^^^ nth (keyAt rk r) i

/-- One of the nine full rounds (rule R229). -/
def fullRound (rk : RoundKeys) (s : Block) (r : Nat) : Block := addRoundKey rk (mixColumns (shiftRows (subBytes s))) r

/-- The last round, without MixColumns (rule R229). -/
def lastRound (rk : RoundKeys) (s : Block) : Block := addRoundKey rk (shiftRows (subBytes s)) 10

/-- `EncryptBlock(RK, in)` (rule R229). -/
def encryptBlock (rk : RoundKeys) (b : Block) : Block :=
  lastRound rk ((List.range' 1 9).foldl (fullRound rk) (addRoundKey rk b 0))

/-! ### Counter mode (rule R230) -/

/-- A counter value as the block that is encrypted, `bytes_be_16(ctr)` (20_memory.md rule R55). -/
def counterBlock (ctr : Counter) : Block := blockOfBytes (beBytes 16 ctr.toNat)

/-- The keystream block of a counter value. -/
def keystream (rk : RoundKeys) (ctr : Counter) : List Byte := (encryptBlock rk (counterBlock ctr)).toList

/-- `ceil(n/16)`: one counter value is used for every started block (rule R230). -/
def blocksOf (n : Nat) : Nat := (n + 15) / 16

/-- The loop of rule R230 over the given number of blocks; the XOR stops at the shorter of data and keystream, so a
short last block takes the first bytes of its keystream block and the rest is discarded. -/
def ctrBlocks (rk : RoundKeys) : Nat → Counter → List Byte → List Byte
  | 0, _, _ => []
  | n + 1, ctr, data => List.zipWith (· ^^^ ·) (data.take 16) (keystream rk ctr) ++ ctrBlocks rk n (ctr + 1) (data.drop 16)

/-- `CtrStream(RK, ctr, data)`, the output and the counter after it (rule R230). -/
def ctrStream (rk : RoundKeys) (ctr : Counter) (data : List Byte) : List Byte × Counter :=
  (ctrBlocks rk (blocksOf data.length) ctr data, ctr + BitVec.ofNat 128 (blocksOf data.length))

end Sys2Proof.Machine
end

