-- ==== Sys2Proof/Config.lean ====
section
/-! DEFINITION. What one implementation of the engine fixes (00_scope.md rule R9). -/

namespace Sys2Proof

/-- The open parameter of the spec: `BUF_SIZE`, the number of bytes of the local data buffer, any value with
`256 ≤ BUF_SIZE ≤ 65536` (00_scope.md rule R9). The two proof fields keep a value outside that range from being
built. A state carries it as `State.cfg`, which no step changes, so that a statement about every state is a statement
about every `BUF_SIZE` (assumption 2). -/
structure Config where
  bufSize : Nat
  lower : 256 ≤ bufSize
  upper : bufSize ≤ 65536
  deriving DecidableEq, Repr

/-- The default the spec names: 4096 bytes (00_scope.md rule R9). -/
def Config.default : Config := ⟨4096, by decide, by decide⟩

end Sys2Proof
end

