-- ==== Sys2Proof/Machine/State.lean ====
section
/-! DEFINITION. The state of one engine instance as plain data: every row of 10_state.md rule R20, the buffer of
20_memory.md rule R51, and, kept apart, the model's own fields, which hold what stands outside the engine and feeds it
(00_scope.md rule R11: the host and the entropy source). -/

namespace Sys2Proof.Machine

/-- A point register: `(x, y)` and the "is point at infinity" flag (10_state.md rule R24). -/
structure Point where
  x : Wide
  y : Wide
  inf : Bool
  deriving DecidableEq, Repr

/-- The nine fault kinds of 60_exceptions.md rule R280. A fault of the engine is no end of a run: it is a next state
with the latch set (rule R284). -/
inductive FaultKind where
  /-- `0x01`: the word is not a legal command. -/
  | illegalCommand
  /-- `0x02`: the unit's phase does not allow the command. -/
  | illegalSequence
  /-- `0x03`: a buffer access with `offset + length > BUF_SIZE`. -/
  | bufferRange
  /-- `0x10`: the private key is 0 or at least the curve order; also named `InvalidKeyRange` (90_conflicts.md C3). -/
  | invalidPrivateKey
  /-- `0x11`: address derivation with a length other than 64. -/
  | invalidPublicKeyLength
  /-- `0x12`: modular inverse of zero. -/
  | divisionByZero
  /-- `0x20`: AES key length other than 16. -/
  | invalidKeyLength
  /-- `0x21`: single-block input length other than 16. -/
  | invalidBlockLength
  /-- `0x22`: IV length other than 16. -/
  | invalidIVLength
  deriving DecidableEq, Repr

/-- One action of the host at one of its ports (20_memory.md rule R58, 70_reset_and_hazards.md rule R310). -/
inductive HostAction where
  /-- Present a command word at the command port. -/
  | command (w : Word)
  /-- Write bytes to `BUF` through the buffer port. -/
  | writeBuf (off : Nat) (bytes : List Byte)
  /-- Read `len` bytes of `BUF` through the buffer port. -/
  | readBuf (off len : Nat)
  /-- Read a status word by number through the status port. -/
  | readStatus (n : Nat)
  /-- Assert, and release, the reset input. -/
  | reset
  deriving DecidableEq, Repr

/-- What a port answered the host. -/
inductive HostReply where
  /-- The bytes a buffer read returned. -/
  | bytes (bs : List Byte)
  /-- The status word a status read returned. -/
  | status (w : Word)
  deriving DecidableEq, Repr

/-- The data memory `BUF` as (offset, byte) pairs in canonical form: offsets strictly rising, no entry equal to the
`0x00` that an unlisted offset reads as (10_state.md rule R36: reset writes every byte with `0x00`). -/
abbrev Memory := List Host.Cell

/-- The whole state. The fields above the line are the spec's (10_state.md rule R20 and 20_memory.md rule R51), the
fields below it are the model's own. -/
structure State where
  /-- `R[0..7]`, rule R22. -/
  r : Vector Half 8
  /-- `W[0..7]`, rule R23. -/
  w : Vector Wide 8
  /-- `Q[0..3]`, rule R24. -/
  q : Vector Point 4
  /-- `KS[0..24]`, rule R25. -/
  ks : Lanes
  /-- `KPOS`, always in `[0, 135]`, rule R26. -/
  kpos : Fin 136
  /-- `KFIN`, rule R27. -/
  kfin : Bool
  /-- `RK[0..10]`, rule R28. -/
  rk : RoundKeys
  /-- `KVALID`, rule R29. -/
  kvalid : Bool
  /-- `CTR`, rule R30. -/
  ctr : Counter
  /-- The `PINF` flag, rule R31. -/
  pinf : Bool
  /-- `ERR`, rule R33. -/
  err : Bool
  /-- `ERRCODE`, rule R33. -/
  errcode : Byte
  /-- `ERRCMD`, rule R33. -/
  errcmd : Word
  /-- `CC`, rule R32. -/
  cc : Word
  /-- `BUF`, 20_memory.md rule R51. -/
  buf : Memory
  -- ------------------------------------------------------------------
  /-- The implementation's `BUF_SIZE`, a parameter and not state (rule R37): no step changes it. -/
  cfg : Config
  /-- The command word last presented at the command port. -/
  cmd : Word
  /-- The command at the port has not returned yet: only `EC.KEYGEN` waiting for entropy (60_exceptions.md R295). -/
  busy : Bool
  /-- The host's actions still to come, in order (20_memory.md rule R64). -/
  host : List HostAction
  /-- The answers the entropy source has ready, in order (42_secp256k1.md rule R196, 70_reset_and_hazards.md R322). -/
  draws : List Draw
  /-- What the buffer and status ports have answered the host so far, oldest first. -/
  replies : List HostReply
  deriving DecidableEq, Repr

/-- What could stop the machine with a fault: nothing. The engine's faults latch `ERR` and the machine goes on
(60_exceptions.md rules R284 to R287), every register holds a value (10_state.md rule R38), and an access outside
`BUF` is the latched fault `BufferRange` (20_memory.md rule R51). The type has no constructor, so Lean itself knows
that no step of this model ends so; that is safe, since no behaviour is cut off. -/
inductive Fault where
  deriving DecidableEq, Repr

/-- What could be refused. -/
inductive Refusal where
  /-- Raised only by an arm of `exec` for a command without a meaning; safe (the run ends). No arm raises it. -/
  | notModelled (mnemonic : String)
  deriving DecidableEq, Repr

/-- The outcome of a command, of a step. -/
abbrev Result := Host.Outcome State Fault Refusal

/-- The machine right after reset: every field at its value in the table of 10_state.md rule R36. The one asymmetry
of that table is kept: the `Q` registers hold the point at infinity with `inf = 1`, while the `PINF` flag is 0. The
model's own fields: the default `BUF_SIZE`, no command at the port, nothing pending from outside (assumptions 1 to 4). -/
def State.reset : State where
  r := Vector.replicate 8 0
  w := Vector.replicate 8 0
  q := Vector.replicate 4 ⟨0, 0, true⟩
  ks := Vector.replicate 25 0
  kpos := 0
  kfin := false
  rk := Vector.replicate 11 (Vector.replicate 16 0)
  kvalid := false
  ctr := 0
  pinf := false
  err := false
  errcode := 0
  errcmd := 0
  cc := 0
  buf := []
  cfg := Config.default
  cmd := 0
  busy := false
  host := []
  draws := []
  replies := []

end Sys2Proof.Machine
end

