-- ==== Sys2Proof/Machine/Ops.lean ====
section
/-! DEFINITION. The named operations over memory and registers, the entry into a fault and the return from it, and
what every completed command does last. -/

namespace Sys2Proof.Machine

/-! ### `BUF` (20_memory.md rule R51) -/

/-- What an offset that the list does not name reads as: `0x00`, the reset contents (10_state.md rule R36). -/
def Memory.blank : Byte := 0

/-- One byte of memory. -/
def Memory.read : Memory → Nat → Byte
  | [], _ => Memory.blank
  | (k, v) :: rest, a => if k = a then v else Memory.read rest a

/-- The entry that a byte at an offset takes in the list: none when it is what an unlisted offset reads as. -/
def Memory.entry (a : Nat) (b : Byte) : Memory := if b = Memory.blank then [] else [(a, b)]

/-- Write one byte, keeping the canonical form. -/
def Memory.write : Memory → Nat → Byte → Memory
  | [], a, b => Memory.entry a b
  | (k, v) :: rest, a, b =>
    if a < k then Memory.entry a b ++ (k, v) :: rest
    else if a = k then Memory.entry a b ++ rest
    else (k, v) :: Memory.write rest a b

/-- `MemRead(addr, n)`: `n` bytes from `addr` up (00_scope.md rule R15). -/
def Memory.readBytes (m : Memory) (a n : Nat) : List Byte := (List.range n).map fun i => Memory.read m (a + i)

/-- `MemWrite(addr, n, s)`: the bytes of `s` from `addr` up (00_scope.md rule R15). -/
def Memory.writeBytes : Memory → Nat → List Byte → Memory
  | m, _, [] => m
  | m, a, b :: bs => Memory.writeBytes (Memory.write m a b) (a + 1) bs

/-- The canonical form: offsets strictly rising and above `lo`, no entry equal to the blank byte. -/
def Memory.wfFrom : Nat → Memory → Bool
  | _, [] => true
  | lo, (k, v) :: rest => decide (lo ≤ k) && decide (v ≠ Memory.blank) && Memory.wfFrom (k + 1) rest

/-- The memory is in its one canonical form. -/
def Memory.wf (m : Memory) : Bool := Memory.wfFrom 0 m

/-- Every listed offset is an offset of `BUF` (20_memory.md rule R51). -/
def Memory.within (m : Memory) (size : Nat) : Bool := m.all fun c => decide (c.1 < size)

/-! ### Registers -/

/-- `R[a]` as the unsigned integer it holds (10_state.md rule R22). -/
def State.getR (s : State) (a : RReg) : Nat := (s.r[a]).toNat

/-- `R[a] <- v`. -/
def State.setR (s : State) (a : RReg) (v : Half) : State := { s with r := s.r.set a v }

/-- `W[a]`. -/
def State.getW (s : State) (a : WReg) : Wide := s.w[a]

/-- `W[a] <- v`. -/
def State.setW (s : State) (a : WReg) (v : Wide) : State := { s with w := s.w.set a v }

/-- `Q[a]`. -/
def State.getQ (s : State) (a : QReg) : Point := s.q[a]

/-- `Q[a] <- p`, the register alone (Flags.lean adds the `PINF` flag). -/
def State.setQ (s : State) (a : QReg) (p : Point) : State := { s with q := s.q.set a p }

/-! ### Completion, fault entry, acknowledgement, reset -/

/-- The end of a command that completes without a fault: `CC` advances modulo `2^32` and the command port returns
(10_state.md rule R32, 30_encoding.md rule R71 step 5). -/
def State.completed (s : State) : State := { s with cc := s.cc + 1, busy := false }

/-- `code(K)` (60_exceptions.md rule R280). -/
def FaultKind.code : FaultKind → Byte
  | .illegalCommand => 0x01
  | .illegalSequence => 0x02
  | .bufferRange => 0x03
  | .invalidPrivateKey => 0x10
  | .invalidPublicKeyLength => 0x11
  | .divisionByZero => 0x12
  | .invalidKeyLength => 0x20
  | .invalidBlockLength => 0x21
  | .invalidIVLength => 0x22

/-- Fault entry (60_exceptions.md rule R284): the latch takes the kind's code and the command word, nothing else of the
engine changes, not `CC`; the command port returns to the host. -/
def State.takeFault (k : FaultKind) (s : State) : State :=
  { s with err := true, errcode := k.code, errcmd := s.cmd, busy := false }

/-- Acknowledgement, the return from a fault (60_exceptions.md rule R287): the latch is zeroed, nothing is restored. -/
def State.ackFault (s : State) : State := { s with err := false, errcode := 0, errcmd := 0 }

/-- Every piece of the engine's state takes its reset value (10_state.md rule R36); `BUF_SIZE` and what stands outside
the engine stay as they are, and a command that was executing is abandoned (70_reset_and_hazards.md rule R310). -/
def State.resetEngine (s : State) : State :=
  { State.reset with cfg := s.cfg, cmd := s.cmd, host := s.host, draws := s.draws, replies := s.replies }

/-- A command ends without a fault in state `s`. -/
def complete (s : State) : Result := .next s.completed

/-- A command ends as a fault of kind `k`, none of its writes made (00_scope.md rule R15, `raise K`). -/
def raise (k : FaultKind) (s : State) : Result := .next (s.takeFault k)

end Sys2Proof.Machine
end

