-- ==== Sys2Proof/Machine/Operands.lean ====
section
/-! DEFINITION. The operand forms. The engine has one addressing mode, register-indirect into `BUF` with a length that
is implied or held in a second `R` register (40_system.md rule R108). -/

namespace Sys2Proof.Machine

/-- `BUF_SIZE`. -/
def State.bufSize (s : State) : Nat := s.cfg.bufSize

/-- An access of `n` bytes at `off` is in range: `off + n ≤ BUF_SIZE` on unbounded integers, also when `n = 0`
(20_memory.md rule R51). -/
def State.inRange (s : State) (off n : Nat) : Bool := decide (off + n ≤ s.bufSize)

/-- `MemRead(off, n)`. -/
def State.memRead (s : State) (off n : Nat) : List Byte := Memory.readBytes s.buf off n

/-- `MemWrite(off, |bs|, bs)`. -/
def State.memWrite (s : State) (off : Nat) (bs : List Byte) : State := { s with buf := Memory.writeBytes s.buf off bs }

/-- The check a command makes before it accesses `n` bytes at `off`: out of range is `BufferRange`, and then nothing
else of the command happens. -/
def checkRange (off n : Nat) (s : State) (go : Result) : Result := if s.inRange off n then go else raise .bufferRange s

/-- The check that a length register holds the one legal length, `k` being the unit's length fault
(60_exceptions.md rule R283, step 3). -/
def checkLength (k : FaultKind) (len want : Nat) (s : State) (go : Result) : Result :=
  if len = want then go else raise k s

end Sys2Proof.Machine
end

