-- ==== Sys2Proof/Machine/Flags.lean ====
section
/-! DEFINITION. Flags and phases: the `PINF` flag, the checks of `KFIN` and `KVALID`, and the status words that show
them to the host. The engine has no carry, zero, sign or overflow flag (10_state.md rule R31). -/

namespace Sys2Proof.Machine

/-- Write a point register as every point command does: `Q[a] <- p` and the `PINF` flag takes the new value's `inf`
(10_state.md rule R31). -/
def State.setPoint (s : State) (a : QReg) (p : Point) : State := { s.setQ a p with pinf := p.inf }

/-- The command needs `KFIN` to be `want`; otherwise `IllegalSequence` (41_keccak.md rule R142). -/
def needKfin (want : Bool) (s : State) (go : Result) : Result :=
  if s.kfin = want then go else raise .illegalSequence s

/-- The command needs an expanded key; otherwise `IllegalSequence` (10_state.md rule R29). -/
def needKey (s : State) (go : Result) : Result := if s.kvalid then go else raise .illegalSequence s

/-- A flag as a number. -/
def bit (b : Bool) : Nat := if b then 1 else 0

/-- `STATUS`: bit 0 `ERR`, bit 1 `KFIN`, bit 2 `KVALID`, bit 3 `PINF`, the rest 0 (10_state.md rule R34). -/
def State.statusBits (s : State) : Word :=
  BitVec.ofNat 32 (bit s.err + 2 * bit s.kfin + 4 * bit s.kvalid + 8 * bit s.pinf)

/-- The status word of a number (10_state.md rule R34); numbers 5 and above read as 0. -/
def State.statusWord (s : State) : Nat → Word
  | 0 => s.statusBits
  | 1 => s.errcode.setWidth 32
  | 2 => s.errcmd
  | 3 => s.cc
  | 4 => BitVec.ofNat 32 s.kpos.val
  | _ => 0

end Sys2Proof.Machine
end

