-- ==== Sys2Proof/Machine/BlockCipher.lean ====
section
/-! DEFINITION. The meanings of the BlockCipher commands (43_aes128.md section 4). -/

namespace Sys2Proof.Machine

/-- The 16 bytes at an offset as a block. -/
def State.blockAt (s : State) (off : Nat) : Block := blockOfBytes (s.memRead off 16)

/-- `AES.KEYEXP Ra, Rb` (rule R231). -/
def execAesKeyexp (a : RReg) (b : RReg) (s : State) : Result :=
  checkLength .invalidKeyLength (s.getR b) 16 s <| checkRange (s.getR a) 16 s <|
    complete { s with rk := keyExpand (s.blockAt (s.getR a)), kvalid := true }

/-- `AES.ENCB Ra, Rb, Rc` (rule R232): the source range is checked before the destination range. -/
def execAesEncb (a : RReg) (b : RReg) (c : RReg) (s : State) : Result :=
  needKey s <| checkLength .invalidBlockLength (s.getR c) 16 s <|
    checkRange (s.getR b) 16 s <| checkRange (s.getR a) 16 s <|
      complete (s.memWrite (s.getR a) (encryptBlock s.rk (s.blockAt (s.getR b))).toList)

/-- `AES.SETCTR Ra, Rb` (rule R233): no key is needed. -/
def execAesSetctr (a : RReg) (b : RReg) (s : State) : Result :=
  checkLength .invalidIVLength (s.getR b) 16 s <| checkRange (s.getR a) 16 s <|
    complete { s with ctr := BitVec.ofNat 128 (beNat (s.memRead (s.getR a) 16)) }

/-- `AES.CTRX Ra, Rb, Rc` (rule R234): any length, 0 and non-multiples of 16 too. -/
def execAesCtrx (a : RReg) (b : RReg) (c : RReg) (s : State) : Result :=
  needKey s <| checkRange (s.getR b) (s.getR c) s <| checkRange (s.getR a) (s.getR c) s <|
    let r := ctrStream s.rk s.ctr (s.memRead (s.getR b) (s.getR c))
    complete { s.memWrite (s.getR a) r.1 with ctr := r.2 }

/-- `AES.CLR` (rule R235). -/
def execAesClr (s : State) : Result := complete { s with rk := zeroKeys, ctr := 0, kvalid := false }

end Sys2Proof.Machine
end

