-- ==== Sys2Proof/Machine/Keccak.lean ====
section
/-! DEFINITION. The functions of the HashSponge unit: the Keccak-f[1600] permutation and the Keccak-256 sponge with the
original `0x01` padding (41_keccak.md sections 1 to 3). -/

namespace Sys2Proof.Machine

/-- `rol64(v, n)`, rotation amounts modulo 64 (00_scope.md rule R14). -/
def rol64 (v : Lane) (n : Nat) : Lane :=
  if n % 64 = 0 then v else (v <<< (n % 64)) ||| (v >>> (64 - n % 64))

/-- The rotation-offset table, one row for each `y`, the columns `x = 0..4` (rule R121). -/
def rotRows : List (List Nat) :=
  [[0, 1, 62, 28, 27], [36, 44, 6, 55, 20], [3, 10, 43, 25, 39], [41, 45, 15, 21, 8], [18, 2, 61, 56, 14]]

/-- `ROT[x][y]`, which is `ROTL[x + 5y]` (rule R121); every use has `x, y < 5`. -/
def rotOffset (x y : Nat) : Nat := (rotRows.getD y []).getD x 0

/-- The table of rule R122 in its two halves side by side: row `i = 0..11` holds `RC[i]` and `RC[i + 12]`. -/
def roundConstantRows : List (Lane × Lane) :=
  [(0x0000000000000001, 0x000000008000808B), (0x0000000000008082, 0x800000000000008B),
   (0x800000000000808A, 0x8000000000008089), (0x8000000080008000, 0x8000000000008003),
   (0x000000000000808B, 0x8000000000008002), (0x0000000080000001, 0x8000000000000080)] ++
  [(0x8000000080008081, 0x000000000000800A), (0x8000000000008009, 0x800000008000000A),
   (0x000000000000008A, 0x8000000080008081), (0x0000000000000088, 0x8000000000008080),
   (0x0000000080008009, 0x0000000080000001), (0x000000008000000A, 0x8000000080008008)]

/-- `RC[i]` (rule R122); every use has `i < 24`. -/
def roundConstant (i : Nat) : Lane :=
  if i < 12 then (roundConstantRows.getD i (0, 0)).1 else (roundConstantRows.getD (i - 12) (0, 0)).2

/-- The column parities `C[0..4]` of step `θ` (rule R123). -/
def thetaC (A : Lanes) : Vector Lane 5 :=
  vecOf 5 fun x => nth A x ^^^ nth A (x + 5) ^^^ nth A (x + 10) ^^^ nth A (x + 15) ^^^ nth A (x + 20)

/-- The column differences `D[0..4]` of step `θ`, from the parities (rule R123). -/
def thetaD (C : Vector Lane 5) : Vector Lane 5 :=
  vecOf 5 fun x => nth C ((x + 4) % 5) ^^^ rol64 (nth C ((x + 1) % 5)) 1

/-- The last line of step `θ`: every lane takes its column's difference (rule R123). -/
def thetaXor (A : Lanes) (D : Vector Lane 5) : Lanes := vecOf 25 fun i => nth A i ^^^ nth D (i % 5)

/-- Step `θ` (rule R123). -/
def theta (A : Lanes) : Lanes := thetaXor A (thetaD (thetaC A))

/-- Steps `ρ` and `π` (rule R124). The lane at `(x, y)` goes, rotated, to `(x', y') = (y, (2x + 3y) mod 5)`; read at its
destination `j = x' + 5y'`, it comes from `y = x'` and `x = (x' + 3y') mod 5`. -/
def rhoPi (A : Lanes) : Lanes :=
  vecOf 25 fun j =>
    let x := (j % 5 + 3 * (j / 5)) % 5
    let y := j % 5
    rol64 (nth A (x + 5 * y)) (rotOffset x y)

/-- Step `χ`: a lane, the complement of the next and the one after it in the same row (rule R125). -/
def chi (B : Lanes) : Lanes :=
  vecOf 25 fun i =>
    nth B i ^^^ (~~~(nth B ((i % 5 + 1) % 5 + 5 * (i / 5))) &&& nth B ((i % 5 + 2) % 5 + 5 * (i / 5)))

/-- XOR a value into one lane. -/
def xorLane (A : Lanes) (k : Nat) (v : Lane) : Lanes := vecOf 25 fun i => if i = k then nth A i ^^^ v else nth A i

/-- Step `ι`: the round constant into lane 0 (rule R126). -/
def iota (A : Lanes) (i : Nat) : Lanes := xorLane A 0 (roundConstant i)

/-- One round (rule R127). -/
def keccakRound (A : Lanes) (i : Nat) : Lanes := iota (chi (rhoPi (theta A))) i

/-- Keccak-f[1600]: the 24 rounds, round index ascending (rule R128). -/
def keccakF (A : Lanes) : Lanes := (List.range 24).foldl keccakRound A

/-- The all-zero Keccak state. -/
def zeroLanes : Lanes := Vector.replicate 25 0

/-- A sponge in the course of absorbing: the state and the number of bytes absorbed since the last permutation. -/
abbrev Sponge := Lanes × Fin 136

/-- XOR a byte into rate byte `pos`: bits `8·(pos mod 8) + 7 : 8·(pos mod 8)` of lane `pos div 8` (rule R129,
20_memory.md rule R54). -/
def xorByte (A : Lanes) (pos : Nat) (v : Byte) : Lanes :=
  xorLane A (pos / 8) (v.setWidth 64 <<< (8 * (pos % 8)))

/-- `AbsorbByte` (rule R129): the permutation runs when the 136th byte of a block is in. -/
def absorbByte (st : Sponge) (v : Byte) : Sponge :=
  if h : st.2.val + 1 < 136 then (xorByte st.1 st.2.val v, ⟨st.2.val + 1, h⟩)
  else (keccakF (xorByte st.1 st.2.val v), 0)

/-- `Absorb`: the bytes in order (rule R129). -/
def absorb (st : Sponge) (bs : List Byte) : Sponge := bs.foldl absorbByte st

/-- The padding of rule R130, before the permutation: `0x01` at rate byte `pos`, `0x80` at rate byte 135; at
`pos = 135` the two fall on one byte and make `0x81`. -/
def padded (st : Sponge) : Lanes := xorByte (xorByte st.1 st.2.val 0x01) 135 0x80

/-- `Finalize` (rule R130). -/
def finalize (st : Sponge) : Sponge := (keccakF (padded st), 0)

/-- `Digest`: the 32 bytes of lanes 0 to 3, each least significant byte first (rule R131). -/
def digest (A : Lanes) : List Byte := (List.range 32).map fun i => (nth A (i / 8)).extractLsb' (8 * (i % 8)) 8

/-- The sponge after a whole message: absorbed from the zero state and finalised (rule R132). -/
def hashState (s : List Byte) : Lanes := (finalize (absorb (zeroLanes, 0) s)).1

/-- `keccak256(s)` (rule R132). -/
def keccak256 (s : List Byte) : List Byte := digest (hashState s)

/-- The 25 lanes as 200 bytes, every lane least significant byte first (rule R141). -/
def lanesBytes (A : Lanes) : List Byte := A.toList.flatMap laneBytes

/-- The 25 lanes of 200 bytes (rule R140). -/
def lanesOfBytes (bs : List Byte) : Lanes := vecOf 25 fun i => leLane ((bs.drop (8 * i)).take 8)

end Sys2Proof.Machine
end

