-- ==== Sys2Proof/Machine/HashSponge.lean ====
section
/-! DEFINITION. The meanings of the HashSponge commands (41_keccak.md section 4). -/

namespace Sys2Proof.Machine

/-- The sponge held in the registers `KS` and `KPOS`. -/
def State.sponge (s : State) : Sponge := (s.ks, s.kpos)

/-- `(KS, KPOS) <- st`. -/
def State.setSponge (s : State) (st : Sponge) : State := { s with ks := st.1, kpos := st.2 }

/-- The sponge left finalised with a message's hash: `KS` its last state, `KPOS = 0`, `KFIN = 1` (rules R139, R142). -/
def State.hashed (s : State) (bs : List Byte) : State := { s with ks := hashState bs, kpos := 0, kfin := true }

/-- `K.INIT` (rule R133). -/
def execKInit (s : State) : Result := complete { s with ks := zeroLanes, kpos := 0, kfin := false }

/-- `K.F1600` (rule R134): the raw permutation; `KPOS` and `KFIN` are neither read nor written. -/
def execKF1600 (s : State) : Result := complete { s with ks := keccakF s.ks }

/-- `K.ROUND imm16` (rule R135). An index of 24 or more has no legal word (rule R74 (d)); it is `IllegalCommand` here
as it is in the decoder. -/
def execKRound (imm : Half) (s : State) : Result :=
  if imm.toNat < 24 then complete { s with ks := keccakRound s.ks imm.toNat } else raise .illegalCommand s

/-- `K.ABSORB Ra, Rb` (rule R136). -/
def execKAbsorb (a : RReg) (b : RReg) (s : State) : Result :=
  needKfin false s <| checkRange (s.getR a) (s.getR b) s <|
    complete (s.setSponge (absorb s.sponge (s.memRead (s.getR a) (s.getR b))))

/-- `K.FINAL` (rule R137). -/
def execKFinal (s : State) : Result :=
  needKfin false s <| complete { s.setSponge (finalize s.sponge) with kfin := true }

/-- `K.SQUEEZE Wa` (rule R138): digest byte 0 becomes the most significant byte of the register. -/
def execKSqueeze (a : WReg) (s : State) : Result :=
  needKfin true s <| complete (s.setW a (wideOfBytes (digest s.ks)))

/-- `K.HASH Wa, Rb, Rc` (rule R139): legal in every phase of the sponge. -/
def execKHash (a : WReg) (b : RReg) (c : RReg) (s : State) : Result :=
  checkRange (s.getR b) (s.getR c) s <|
    let bs := s.memRead (s.getR b) (s.getR c)
    complete ((s.hashed bs).setW a (wideOfBytes (keccak256 bs)))

/-- `K.LDS Ra` (rule R140). -/
def execKLds (a : RReg) (s : State) : Result :=
  checkRange (s.getR a) 200 s <| complete { s with ks := lanesOfBytes (s.memRead (s.getR a) 200) }

/-- `K.STS Ra` (rule R141). -/
def execKSts (a : RReg) (s : State) : Result :=
  checkRange (s.getR a) 200 s <| complete (s.memWrite (s.getR a) (lanesBytes s.ks))

end Sys2Proof.Machine
end

