-- ==== Sys2Proof/Machine/Curve.lean ====
section
/-! DEFINITION. The functions of the CurveArithmetic unit: the field modulo the secp256k1 prime and affine point
arithmetic (42_secp256k1.md sections 1 to 3). Field elements are plain numbers here, as in the spec; only registers
are 256 bits wide. -/

namespace Sys2Proof.Machine

/-- The field prime `P = 2^256 − 2^32 − 977` (rule R160). -/
def primeP : Nat := 0xFFFFFFFFFFFFFFFFFFFFFFFFFFFFFFFFFFFFFFFFFFFFFFFFFFFFFFFEFFFFFC2F

/-- The group order `N` (rule R160). -/
def orderN : Nat := 0xFFFFFFFFFFFFFFFFFFFFFFFFFFFFFFFEBAAEDCE6AF48A03BBFD25E8CD0364141

/-- The x coordinate of the generator (rule R160). -/
def genX : Wide := 0x79BE667EF9DCBBAC55A06295CE870B07029BFCDB2DCE28D959F2815B16F81798

/-- The y coordinate of the generator (rule R160). -/
def genY : Wide := 0x483ADA7726A3C4655DA4FBFC0E1108A8FD17B448A68554199C47D08FFB10D4B8

/-! ### The field (rules R161 to R163) -/

/-- `fadd(a, b) = (a + b) mod P`. -/
def fadd (a b : Nat) : Nat := (a + b) % primeP

/-- `fsub(a, b) = (a − b) mod P`, the least non-negative residue. -/
def fsub (a b : Nat) : Nat := (((a : Int) - (b : Int)) % (primeP : Int)).toNat

/-- `fmul(a, b) = (a · b) mod P`, the full product reduced. -/
def fmul (a b : Nat) : Nat := (a * b) % primeP

/-- `fneg(a) = (P − (a mod P)) mod P`. -/
def fneg (a : Nat) : Nat := (primeP - a % primeP) % primeP

/-- Square and multiply over `fuel` exponent bits: `b^e mod m` when `e < 2^fuel`. It is how the model evaluates the
power of rule R163; "how the reduction is carried out is not architectural". -/
def powMod (m : Nat) : Nat → Nat → Nat → Nat
  | 0, _, _ => 1 % m
  | fuel + 1, b, e =>
    if e = 0 then 1 % m
    else if e % 2 = 1 then b * powMod m fuel (b * b % m) (e / 2) % m
    else powMod m fuel (b * b % m) (e / 2)

/-- `finv(a) = (a mod P)^(P−2) mod P` (rule R163). The check for `a ≡ 0` is the command's (rule R174); no other caller
gives it such an `a` (rule R169). -/
def finv (a : Nat) : Nat := powMod primeP 256 (a % primeP) (primeP - 2)

/-! ### Points (rules R164 to R168) -/

/-- The canonical point at infinity `(0, 0, 1)` (rule R164). -/
def Point.infinity : Point := ⟨0, 0, true⟩

/-- A finite point with the given coordinates. -/
def Point.finite (x y : Nat) : Point := ⟨BitVec.ofNat 256 x, BitVec.ofNat 256 y, false⟩

/-- The generator `G` (rule R160). -/
def Point.generator : Point := ⟨genX, genY, false⟩

/-- Coordinates in `[0, P)`, and infinity only as `(0, 0, 1)`: what every point register holds (10_state.md rule R24). -/
def Point.canonical (p : Point) : Bool :=
  decide (p.x.toNat < primeP) && decide (p.y.toNat < primeP) && (!p.inf || (p.x == 0 && p.y == 0))

/-- Negation (rule R165). -/
def pneg (p : Point) : Point := if p.inf then Point.infinity else ⟨p.x, BitVec.ofNat 256 (fneg p.y.toNat), false⟩

/-- The third point of a line of slope `lam` through abscissae `x1`, `x2` and the point `(x1, y1)`, negated: the last
three lines of rules R166 and R167. -/
def chordPoint (lam x1 y1 x2 : Nat) : Point :=
  let x3 := fsub (fsub (fmul lam lam) x1) x2
  Point.finite x3 (fsub (fmul lam (fsub x1 x3)) y1)

/-- Doubling (rule R166). -/
def pdbl (p : Point) : Point :=
  if p.inf then Point.infinity
  else if p.y = 0 then Point.infinity
  else
    let x := p.x.toNat
    let y := p.y.toNat
    chordPoint (fmul (fmul 3 (fmul x x)) (finv (fmul 2 y))) x y x

/-- Addition (rule R167, the case order of 90_conflicts.md C5). -/
def padd (p1 p2 : Point) : Point :=
  if p1.inf then p2
  else if p2.inf then p1
  else if p1.x = p2.x then if p1.y ≠ p2.y then Point.infinity else pdbl p1
  else
    let x1 := p1.x.toNat
    let y1 := p1.y.toNat
    let x2 := p2.x.toNat
    let y2 := p2.y.toNat
    chordPoint (fmul (fsub y2 y1) (finv (fsub x2 x1))) x1 y1 x2

/-- The loop of rule R168, low bit first, at most `fuel` turns. -/
def smulLoop : Nat → Nat → Point → Point → Point
  | 0, _, result, _ => result
  | fuel + 1, k, result, addend =>
    if k = 0 then result
    else smulLoop fuel (k / 2) (if k % 2 = 1 then padd result addend else result) (pdbl addend)

/-- `smul(k, p)` for `k ≥ 0` (rule R168): the scalar reduced modulo `N`, then double-and-add; 256 turns are enough for
any reduced scalar. The engine's scalars are unsigned, so the rule's line for `k < 0` is no command's. -/
def smul (k : Nat) (p : Point) : Point := smulLoop 256 (k % orderN) Point.infinity p

/-- A legal private key: `1 ≤ k < N` (rules R194, R196). -/
def isPrivateKey (k : Nat) : Bool := decide (1 ≤ k) && decide (k < orderN)

end Sys2Proof.Machine
end

