-- ==== Sys2Proof/Machine/Field.lean ====
section
/-! DEFINITION. The meanings of the field commands (42_secp256k1.md section 4). Every source register is reduced
modulo `P` first (rule R161), and every result is the canonical residue. -/

namespace Sys2Proof.Machine

/-- `W[b] mod P`: a source register as a field element (rule R161). -/
def State.fieldOf (s : State) (b : WReg) : Nat := (s.getW b).toNat % primeP

/-- A field element as a register value. -/
def wideOfField (v : Nat) : Wide := BitVec.ofNat 256 v

/-- `FP.ADD Wa, Wb, Wc` (rule R170). -/
def execFpAdd (a : WReg) (b : WReg) (c : WReg) (s : State) : Result :=
  complete (s.setW a (wideOfField (fadd (s.fieldOf b) (s.fieldOf c))))

/-- `FP.SUB Wa, Wb, Wc` (rule R171). -/
def execFpSub (a : WReg) (b : WReg) (c : WReg) (s : State) : Result :=
  complete (s.setW a (wideOfField (fsub (s.fieldOf b) (s.fieldOf c))))

/-- `FP.MUL Wa, Wb, Wc` (rule R172). -/
def execFpMul (a : WReg) (b : WReg) (c : WReg) (s : State) : Result :=
  complete (s.setW a (wideOfField (fmul (s.fieldOf b) (s.fieldOf c))))

/-- `FP.NEG Wa, Wb` (rule R173). -/
def execFpNeg (a : WReg) (b : WReg) (s : State) : Result := complete (s.setW a (wideOfField (fneg (s.getW b).toNat)))

/-- `FP.INV Wa, Wb` (rule R174): the one command that can fault with `DivisionByZero` (rule R169). -/
def execFpInv (a : WReg) (b : WReg) (s : State) : Result :=
  if s.fieldOf b = 0 then raise .divisionByZero s else complete (s.setW a (wideOfField (finv (s.getW b).toNat)))

end Sys2Proof.Machine
end

