-- ==== Sys2Proof/Machine/Points.lean ====
section
/-! DEFINITION. The meanings of the point commands (42_secp256k1.md section 5). None of them can fault once decoded,
and each that writes `Q[a]` writes the `PINF` flag with the new value's `inf`. -/

namespace Sys2Proof.Machine

/-- `PSET Qa, Wb, Wc` (rule R180): coordinates are reduced, not refused, and not checked against the curve equation. -/
def execPset (a : QReg) (b : WReg) (c : WReg) (s : State) : Result :=
  complete (s.setPoint a (Point.finite (s.fieldOf b) (s.fieldOf c)))

/-- `PINF Qa` (rule R181). -/
def execPinf (a : QReg) (s : State) : Result := complete (s.setPoint a Point.infinity)

/-- `PLDG Qa` (rule R182). -/
def execPldg (a : QReg) (s : State) : Result := complete (s.setPoint a Point.generator)

/-- `PGET Wa, Wb, Qc` (rule R183): `x` is written first, so with `a = b` the register ends holding `y`. -/
def execPget (a : WReg) (b : WReg) (c : QReg) (s : State) : Result :=
  complete { (s.setW a (s.getQ c).x).setW b (s.getQ c).y with pinf := (s.getQ c).inf }

/-- `PMOV Qa, Qb` (rule R184). -/
def execPmov (a : QReg) (b : QReg) (s : State) : Result := complete (s.setPoint a (s.getQ b))

/-- `PNEG Qa, Qb` (rule R185). -/
def execPneg (a : QReg) (b : QReg) (s : State) : Result := complete (s.setPoint a (pneg (s.getQ b)))

/-- `PDBL Qa, Qb` (rule R186). -/
def execPdbl (a : QReg) (b : QReg) (s : State) : Result := complete (s.setPoint a (pdbl (s.getQ b)))

/-- `PADD Qa, Qb, Qc` (rule R187). -/
def execPadd (a : QReg) (b : QReg) (c : QReg) (s : State) : Result :=
  complete (s.setPoint a (padd (s.getQ b) (s.getQ c)))

/-- `PMUL Qa, Wb, Qc` (rule R188): no range check on the scalar. -/
def execPmul (a : QReg) (b : WReg) (c : QReg) (s : State) : Result :=
  complete (s.setPoint a (smul (s.getW b).toNat (s.getQ c)))

end Sys2Proof.Machine
end

