-- ==== Sys2Proof/Machine/Keys.lean ====
section
/-! DEFINITION. The meanings of the key-level commands (42_secp256k1.md section 6). -/

namespace Sys2Proof.Machine

/-- The uncompressed encoding `0x04 ‖ x ‖ y`, 65 bytes (rule R194, 20_memory.md rule R53). -/
def uncompressed (p : Point) : List Byte := 0x04 :: (bytesOfWide p.x ++ bytesOfWide p.y)

/-- `EC.PUBKEY Qa, Wb, Rc` (rule R194). The range of the output is checked before the key's value (60_exceptions.md
rule R283), and the `PINF` flag is written with 0, as the rule has it. -/
def execEcPubkey (a : QReg) (b : WReg) (c : RReg) (s : State) : Result :=
  checkRange (s.getR c) 65 s <|
    if isPrivateKey (s.getW b).toNat then
      let p := smul (s.getW b).toNat Point.generator
      complete { (s.setQ a p).memWrite (s.getR c) (uncompressed p) with pinf := false }
    else raise .invalidPrivateKey s

/-- `EC.ADDR Wa, Rb, Rc` (rule R195): the last twenty digest bytes, zero-extended; the sponge is left as by `K.HASH`. -/
def execEcAddr (a : WReg) (b : RReg) (c : RReg) (s : State) : Result :=
  checkLength .invalidPublicKeyLength (s.getR c) 64 s <| checkRange (s.getR b) 64 s <|
    let xy := s.memRead (s.getR b) 64
    complete ((s.hashed xy).setW a (wideOfBytes ((keccak256 xy).drop 12)))

/-- A draw as the integer it stands for, `be_32(b)` (rule R196). -/
def drawValue (d : Draw) : Nat := beNat d.toList

/-- The rejection loop of rule R196 over the answers the entropy source has ready: the first value in `[1, N−1]` and
the answers after it, or nothing if every one of them is out of range. A rejected answer is thrown away whole. -/
def drawKey : List Draw → Option (Nat × List Draw)
  | [] => none
  | d :: rest => if isPrivateKey (drawValue d) then some (drawValue d, rest) else drawKey rest

/-- `EC.KEYGEN Wa` (rule R196). When every answer at hand is rejected, or there is none, the command has not completed:
it stays at the command port and goes on drawing at the next step (60_exceptions.md rule R295), so the number of draws
has no bound. -/
def execEcKeygen (a : WReg) (s : State) : Result :=
  match drawKey s.draws with
  | some (k, rest) => complete { s.setW a (BitVec.ofNat 256 k) with draws := rest }
  | none => .next { s with draws := [], busy := true }

end Sys2Proof.Machine
end

