-- ==== Sys2Proof/Machine/System.lean ====
section
/-! DEFINITION. The meanings of the system and data-movement commands (40_system.md). -/

namespace Sys2Proof.Machine

/-- `NOP` (rule R100): only `CC` advances. -/
def execNop (s : State) : Result := complete s

/-- `CLRERR` (rule R101): the acknowledgement of a fault. -/
def execClrerr (s : State) : Result := complete s.ackFault

/-- `SRST` (rule R102): every piece of state takes its reset value; `CC` is 0 and is not incremented. -/
def execSrst (s : State) : Result := .next s.resetEngine

/-- `LI Ra, imm16` (rule R103). -/
def execLi (a : RReg) (imm : Half) (s : State) : Result := complete (s.setR a imm)

/-- `LDW Wa, Rb` (rule R104): 32 bytes, the byte at the lowest offset most significant. -/
def execLdw (a : WReg) (b : RReg) (s : State) : Result :=
  checkRange (s.getR b) 32 s (complete (s.setW a (wideOfBytes (s.memRead (s.getR b) 32))))

/-- `STW Wa, Rb` (rule R105). -/
def execStw (a : WReg) (b : RReg) (s : State) : Result :=
  checkRange (s.getR b) 32 s (complete (s.memWrite (s.getR b) (bytesOfWide (s.getW a))))

/-- `MOVW Wa, Wb` (rule R106). -/
def execMovw (a : WReg) (b : WReg) (s : State) : Result := complete (s.setW a (s.getW b))

end Sys2Proof.Machine
end

