-- ==== Sys2Proof/Machine/Dispatch.lean ====
section
/-! DEFINITION. One arm per command of the opcode table (30_encoding.md rule R75): the meaning it calls. -/

namespace Sys2Proof.Machine

/-- Steps 3 to 5 of the command cycle for a decoded command (30_encoding.md rule R71). -/
def exec (i : Instr) (s : State) : Host.Outcome State Fault Refusal :=
  match i with
  | .nop => Sys2Proof.Machine.execNop s
  | .clrerr => Sys2Proof.Machine.execClrerr s
  | .srst => Sys2Proof.Machine.execSrst s
  | .li a imm => Sys2Proof.Machine.execLi a imm s
  | .ldw a b => Sys2Proof.Machine.execLdw a b s
  | .stw a b => Sys2Proof.Machine.execStw a b s
  | .movw a b => Sys2Proof.Machine.execMovw a b s
  | .kInit => Sys2Proof.Machine.execKInit s
  | .kF1600 => Sys2Proof.Machine.execKF1600 s
  | .kRound imm => Sys2Proof.Machine.execKRound imm s
  | .kAbsorb a b => Sys2Proof.Machine.execKAbsorb a b s
  | .kFinal => Sys2Proof.Machine.execKFinal s
  | .kSqueeze a => Sys2Proof.Machine.execKSqueeze a s
  | .kHash a b c => Sys2Proof.Machine.execKHash a b c s
  | .kLds a => Sys2Proof.Machine.execKLds a s
  | .kSts a => Sys2Proof.Machine.execKSts a s
  | .fpAdd a b c => Sys2Proof.Machine.execFpAdd a b c s
  | .fpSub a b c => Sys2Proof.Machine.execFpSub a b c s
  | .fpMul a b c => Sys2Proof.Machine.execFpMul a b c s
  | .fpNeg a b => Sys2Proof.Machine.execFpNeg a b s
  | .fpInv a b => Sys2Proof.Machine.execFpInv a b s
  | .pset a b c => Sys2Proof.Machine.execPset a b c s
  | .pinf a => Sys2Proof.Machine.execPinf a s
  | .pldg a => Sys2Proof.Machine.execPldg a s
  | .pget a b c => Sys2Proof.Machine.execPget a b c s
  | .pmov a b => Sys2Proof.Machine.execPmov a b s
  | .pneg a b => Sys2Proof.Machine.execPneg a b s
  | .pdbl a b => Sys2Proof.Machine.execPdbl a b s
  | .padd a b c => Sys2Proof.Machine.execPadd a b c s
  | .pmul a b c => Sys2Proof.Machine.execPmul a b c s
  | .ecPubkey a b c => Sys2Proof.Machine.execEcPubkey a b c s
  | .ecAddr a b c => Sys2Proof.Machine.execEcAddr a b c s
  | .ecKeygen a => Sys2Proof.Machine.execEcKeygen a s
  | .aesKeyexp a b => Sys2Proof.Machine.execAesKeyexp a b s
  | .aesEncb a b c => Sys2Proof.Machine.execAesEncb a b c s
  | .aesSetctr a b => Sys2Proof.Machine.execAesSetctr a b s
  | .aesCtrx a b c => Sys2Proof.Machine.execAesCtrx a b c s
  | .aesClr => Sys2Proof.Machine.execAesClr s

end Sys2Proof.Machine
end

