-- ==== Sys2Proof/Machine/Cycle.lean ====
section
/-! DEFINITION. The command cycle at the command port (30_encoding.md rule R71) and the host's other ports
(20_memory.md rule R58): what one action of the host does to the engine. -/

namespace Sys2Proof.Machine

/-- The word that is exactly `CLRERR`. -/
def clrerrWord : Word := 0x01000000

/-- The word that is exactly `SRST`. -/
def srstWord : Word := 0x02000000

/-- While `ERR = 1` every word but exactly `CLRERR` and `SRST` is discarded (rule R71 step 1, 60_exceptions.md R286). -/
def State.discards (s : State) (w : Word) : Bool := s.err && w != clrerrWord && w != srstWord

/-- The command cycle for the word at the command port, `s.cmd` (rule R71): discard, decode, then checks and writes. -/
def runCommand (s : State) : Result :=
  if s.discards s.cmd then .next { s with busy := false }
  else
    match decode s.cmd with
    | .error _ => raise .illegalCommand s
    | .ok i => exec i s

/-- The buffer port, write: an access out of range has no effect (20_memory.md rule R58). -/
def hostWrite (off : Nat) (bs : List Byte) (s : State) : State :=
  if s.inRange off bs.length then s.memWrite off bs else s

/-- What the buffer port answers a read (20_memory.md rule R58); out of range it reads zero bytes, a `0x00` for every
byte asked for (assumption 6). -/
def hostReadReply (off len : Nat) (s : State) : List Byte :=
  if s.inRange off len then s.memRead off len else List.replicate len 0

/-- A port's answer to the host is noted; nothing of the engine changes (10_state.md rule R34, 20_memory.md R60). -/
def State.answer (s : State) (r : HostReply) : State := { s with replies := s.replies ++ [r] }

/-- One action of the host (20_memory.md rule R58, 70_reset_and_hazards.md rule R310). -/
def hostAct (act : HostAction) (s : State) : Result :=
  match act with
  | .command w => runCommand { s with cmd := w }
  | .writeBuf off bs => .next (hostWrite off bs s)
  | .readBuf off len => .next (s.answer (.bytes (hostReadReply off len s)))
  | .readStatus n => .next (s.answer (.status (s.statusWord n)))
  | .reset => .next s.resetEngine

/-- The next thing that happens. With no command at the port, the host's next action is served, or the engine is idle.
While a command is at the port (only `EC.KEYGEN` waiting for entropy) it goes on, and of the host's actions only reset
can come before its end (70_reset_and_hazards.md rule R310; 20_memory.md rule R58: the two strictly alternate). -/
def nextStep (s : State) : Result :=
  match s.busy, s.host with
  | true, .reset :: rest => .next { s with host := rest }.resetEngine
  | true, _ => runCommand s
  | false, act :: rest => hostAct act { s with host := rest }
  | false, [] => .next s

/-- A command word placed as the host's next action, at a port with no command on it. -/
def State.present (s : State) (w : Word) : State := { s with busy := false, host := .command w :: s.host }

end Sys2Proof.Machine
end

