-- ==== Sys2Proof/Machine/Step.lean ====
section
/-! DEFINITION. One step of the machine, and the place a command word is put for the next step to run it. The bodies
they call stand in Cycle.lean. -/

namespace Sys2Proof.Machine

/-- One step: the host's next action, or the command that is still at the port (Cycle.lean). -/
def step (s : State) : Host.Outcome State Fault Refusal := nextStep s

/-- `s` with the command of an opcode-table word as the host's next action, so that the next step runs it: the engine
fetches nothing, the host presents its commands (10_state.md rule R21; assumption 1). -/
def State.withFetchWord (s : State) (nbits w : Nat) : State := s.present (tableWord nbits w)

end Sys2Proof.Machine
end

