-- ==== Sys2Proof/Safety.lean ====
section
/-! DEFINITION. The terms that claims about the engine use: the invariant every step keeps, what a store changes, and
three lists of the spec by command: the opcode table, who writes which piece of state, who raises which fault. -/

namespace Sys2Proof.Machine

/-! ### The invariant -/

/-- Every point register holds a canonical point (10_state.md rule R24). -/
def State.pointsCanonical (s : State) : Prop := ∀ a : QReg, (s.getQ a).canonical = true

/-- `ERR = 0` implies `ERRCODE = 0` and `ERRCMD = 0`; with `ERR = 1`, `ERRCODE` is the code of one of the nine kinds
(10_state.md rule R33, 60_exceptions.md rule R280). -/
def State.latchConsistent (s : State) : Prop :=
  if s.err then ∃ k : FaultKind, s.errcode = k.code else s.errcode = 0 ∧ s.errcmd = 0

/-- `RK` is an expanded key exactly while `KVALID = 1`, and cleared otherwise (10_state.md rules R29, R36). -/
def State.keyConsistent (s : State) : Prop :=
  if s.kvalid then s.rk = keyExpand (keyAt s.rk 0) else s.rk = zeroKeys

/-- Only `EC.KEYGEN` is ever found unfinished at the command port, and never while the latch is set
(60_exceptions.md rules R286, R295). -/
def State.portConsistent (s : State) : Prop :=
  s.busy = true → s.err = false ∧ ∃ a : WReg, decode s.cmd = .ok (.ecKeygen a)

/-- The invariant of the machine: `BUF` in its canonical form and inside `BUF_SIZE`, points canonical, latch, keys and
port consistent. -/
def Inv (s : State) : Prop :=
  Memory.wf s.buf = true ∧ Memory.within s.buf s.bufSize = true ∧ s.pointsCanonical ∧ s.latchConsistent ∧
    s.keyConsistent ∧ s.portConsistent

/-! ### Stores -/

/-- From memory `m` to memory `m'` the bytes `bs` were stored from `off` up, and every other byte reads as before. -/
def Stored (m m' : Memory) (off : Nat) (bs : List Byte) : Prop :=
  (∀ j, j < bs.length → Memory.read m' (off + j) = byteAt bs j) ∧
    ∀ x, x < off ∨ off + bs.length ≤ x → Memory.read m' x = Memory.read m x

/-! ### Terms in which results are stated -/

/-- The commands of a list in order, each in the state the one before left. -/
def execAll : List Instr → State → Result
  | [], s => .next s
  | i :: is, s =>
    match exec i s with
    | .next t => execAll is t
    | o => o

/-- Byte `j` of a Keccak state, `j = 0..199` (10_state.md rule R25). -/
def stateByte (A : Lanes) (j : Nat) : Byte := (nth A (j / 8)).extractLsb' (8 * (j % 8)) 8

/-- Byte `j` of a `W` register seen as a 32-byte string: byte 0 is bits 255:248 (10_state.md rule R23). -/
def wideByte (v : Wide) (j : Nat) : Byte := v.extractLsb' (8 * (31 - j)) 8

/-- `[k]p` as a sum: with `k' = k mod N`, the `2^i`-fold of `p` for every bit `i` of `k'` that is 1, low bit first
(42_secp256k1.md rule R168). -/
def scalarTimes (k : Nat) (p : Point) : Point :=
  (List.range 256).foldl (fun acc i => if (k % orderN).testBit i then padd acc (pdbl^[i] p) else acc) Point.infinity

/-- A point is on the curve: at infinity, or `y² ≡ x³ + 7 (mod P)` (42_secp256k1.md rule R164). -/
def Point.onCurve (p : Point) : Prop :=
  p.inf = true ∨ p.y.toNat * p.y.toNat % primeP = (p.x.toNat * p.x.toNat * p.x.toNat + 7) % primeP

/-- The sum of `k` copies of `p`. -/
def multiple (k : Nat) (p : Point) : Point := (fun q => padd q p)^[k] Point.infinity

/-- The value an entropy answer stands for is a private key (42_secp256k1.md rule R196). -/
def drawAccepted (d : Draw) : Prop := 1 ≤ beNat d.toList ∧ beNat d.toList < orderN

/-- The reset value of every piece of state (the table of 10_state.md rule R36). -/
def AtReset (t : State) : Prop :=
  (∀ i, i < 25 → nth t.ks i = 0) ∧ t.kpos.val = 0 ∧ t.kfin = false ∧ (∀ a : RReg, t.getR a = 0) ∧
    (∀ a : WReg, t.getW a = 0) ∧ (∀ a : QReg, t.getQ a = ⟨0, 0, true⟩) ∧ t.pinf = false ∧
    (∀ r, r < 11 → ∀ j, j < 16 → nth (keyAt t.rk r) j = 0) ∧ t.kvalid = false ∧ t.ctr = 0 ∧ t.err = false ∧
    t.errcode = 0 ∧ t.errcmd = 0 ∧ t.cc = 0 ∧ ∀ x, Memory.read t.buf x = 0

/-! ### How the spec generates its tables -/

/-- The position after `t` moves of the walk that generates the rotation offsets (41_keccak.md rule R121). -/
def rotWalk : Nat → Nat × Nat
  | 0 => (1, 0)
  | t + 1 => ((rotWalk t).2, (2 * (rotWalk t).1 + 3 * (rotWalk t).2) % 5)

/-- One turn of the shift register of 41_keccak.md rule R122. -/
def lfsrTurn (r : Nat) : Nat := if (2 * r).testBit 8 then (2 * r) ^^^ 0x171 else 2 * r

/-- The output bit `rc(t)` (41_keccak.md rule R122). -/
def lfsrBit (t : Nat) : Bool := (lfsrTurn^[t % 255] 1).testBit 0

/-- The product in GF(2^8) with reduction polynomial `0x11B` (43_aes128.md rule R221), over the bits of `b`. -/
def gfMul (a b : Byte) : Byte :=
  (List.range 8).foldl (fun acc i => if b.getLsbD i then acc ^^^ xtime^[i] a else acc) 0

/-! ### The opcode table (30_encoding.md rules R72, R75) -/

/-- The six formats of rule R72. -/
inductive Format where
  | Z | A | AB | ABC | AI | I
  deriving DecidableEq, Repr

/-- The bits a format marks must-be-zero, from the columns of rule R72. -/
def Format.mbz : Format → Word
  | .Z => 0x00FFFFFF
  | .A => 0x000FFFFF
  | .AB => 0x0000FFFF
  | .ABC => 0x00000FFF
  | .AI => 0x000F0000
  | .I => 0x00FF0000

/-- A row of rule R75: the opcode, the format, and for each register field the format has, in the order `a`, `b`, `c`,
how many registers its file holds. -/
structure TableRow where
  op : Nat
  format : Format
  files : List Nat
  deriving DecidableEq, Repr

/-- The 38 rows of rule R75. -/
def tableRows : List TableRow :=
  [⟨0x00, .Z, []⟩, ⟨0x01, .Z, []⟩, ⟨0x02, .Z, []⟩, ⟨0x03, .AI, [8]⟩, ⟨0x04, .AB, [8, 8]⟩, ⟨0x05, .AB, [8, 8]⟩,
   ⟨0x06, .AB, [8, 8]⟩] ++
  [⟨0x10, .Z, []⟩, ⟨0x11, .Z, []⟩, ⟨0x12, .I, []⟩, ⟨0x13, .AB, [8, 8]⟩, ⟨0x14, .Z, []⟩, ⟨0x15, .A, [8]⟩,
   ⟨0x16, .ABC, [8, 8, 8]⟩, ⟨0x17, .A, [8]⟩, ⟨0x18, .A, [8]⟩] ++
  [⟨0x20, .ABC, [8, 8, 8]⟩, ⟨0x21, .ABC, [8, 8, 8]⟩, ⟨0x22, .ABC, [8, 8, 8]⟩, ⟨0x23, .AB, [8, 8]⟩,
   ⟨0x24, .AB, [8, 8]⟩] ++
  [⟨0x28, .ABC, [4, 8, 8]⟩, ⟨0x29, .A, [4]⟩, ⟨0x2A, .A, [4]⟩, ⟨0x2B, .ABC, [8, 8, 4]⟩, ⟨0x2C, .AB, [4, 4]⟩,
   ⟨0x2D, .AB, [4, 4]⟩, ⟨0x2E, .AB, [4, 4]⟩, ⟨0x2F, .ABC, [4, 4, 4]⟩, ⟨0x30, .ABC, [4, 8, 4]⟩] ++
  [⟨0x38, .ABC, [4, 8, 8]⟩, ⟨0x39, .ABC, [8, 8, 8]⟩, ⟨0x3A, .A, [8]⟩] ++
  [⟨0x40, .AB, [8, 8]⟩, ⟨0x41, .ABC, [8, 8, 8]⟩, ⟨0x42, .AB, [8, 8]⟩, ⟨0x43, .ABC, [8, 8, 8]⟩, ⟨0x44, .Z, []⟩]

/-- The register numbers in the fields `a`, `b`, `c` of a word, in that order (rule R70). -/
def fieldNumbers (w : Word) : List Nat := [(aField w).toNat, (bField w).toNat, (cField w).toNat]

/-- What rule R74 (b), (c), (d) hold against a word that has the row's opcode. -/
def TableRow.forbids (r : TableRow) (w : Word) : Bool :=
  (w &&& r.format.mbz) != 0 || (List.zipWith (fun n size => decide (size ≤ n)) (fieldNumbers w) r.files).any id ||
    (r.op == 0x12 && decide (24 ≤ (immField w).toNat))

/-- Rule R74: the word is an illegal command. -/
def illegalByTable (w : Word) : Prop :=
  (∀ r ∈ tableRows, r.op ≠ (opField w).toNat) ∨
    ∃ r ∈ tableRows, r.op = (opField w).toNat ∧ r.forbids w = true

end Sys2Proof.Machine

namespace Sys2Proof

open Machine

/-! ### Who writes what (10_state.md rule R20, 20_memory.md rule R52) -/

/-- The writers of the `R` file. -/
def Instr.mayWriteR : Instr → Bool
  | .li _ _ | .srst => true
  | _ => false

/-- The writers of the `W` file. -/
def Instr.mayWriteW : Instr → Bool
  | .ldw _ _ | .movw _ _ | .kSqueeze _ | .kHash _ _ _ | .fpAdd _ _ _ | .fpSub _ _ _ | .fpMul _ _ _ | .fpNeg _ _
  | .fpInv _ _ | .pget _ _ _ | .ecAddr _ _ _ | .ecKeygen _ | .srst => true
  | _ => false

/-- The writers of the `Q` file. -/
def Instr.mayWriteQ : Instr → Bool
  | .pset _ _ _ | .pinf _ | .pldg _ | .pmov _ _ | .pneg _ _ | .pdbl _ _ | .padd _ _ _ | .pmul _ _ _
  | .ecPubkey _ _ _ | .srst => true
  | _ => false

/-- The writers of the `PINF` flag: those of the `Q` file and `PGET` (rule R31). -/
def Instr.mayWritePinf (i : Instr) : Bool :=
  match i with
  | .pget _ _ _ => true
  | _ => i.mayWriteQ

/-- The writers of `KS`. -/
def Instr.mayWriteKs : Instr → Bool
  | .kInit | .kF1600 | .kRound _ | .kAbsorb _ _ | .kFinal | .kHash _ _ _ | .kLds _ | .ecAddr _ _ _ | .srst => true
  | _ => false

/-- The writers of `KPOS`. -/
def Instr.mayWriteKpos : Instr → Bool
  | .kInit | .kAbsorb _ _ | .kFinal | .kHash _ _ _ | .ecAddr _ _ _ | .srst => true
  | _ => false

/-- The writers of `KFIN`. -/
def Instr.mayWriteKfin : Instr → Bool
  | .kInit | .kFinal | .kHash _ _ _ | .ecAddr _ _ _ | .srst => true
  | _ => false

/-- The writers of `RK` and `KVALID`. -/
def Instr.mayWriteKeys : Instr → Bool
  | .aesKeyexp _ _ | .aesClr | .srst => true
  | _ => false

/-- The writers of `CTR`. -/
def Instr.mayWriteCtr : Instr → Bool
  | .aesSetctr _ _ | .aesCtrx _ _ _ | .aesClr | .srst => true
  | _ => false

/-- The writers of `BUF` (rule R52). -/
def Instr.mayWriteBuf : Instr → Bool
  | .stw _ _ | .kSts _ | .ecPubkey _ _ _ | .aesEncb _ _ _ | .aesCtrx _ _ _ | .srst => true
  | _ => false

/-! ### Who raises what (60_exceptions.md rule R280) -/

/-- The fault kinds that rule R280 lists for a command once it is decoded. -/
def Instr.faultKinds : Instr → List FaultKind
  | .kAbsorb _ _ => [.illegalSequence, .bufferRange]
  | .kFinal | .kSqueeze _ => [.illegalSequence]
  | .aesEncb _ _ _ => [.illegalSequence, .invalidBlockLength, .bufferRange]
  | .aesCtrx _ _ _ => [.illegalSequence, .bufferRange]
  | .ldw _ _ | .stw _ _ | .kHash _ _ _ | .kLds _ | .kSts _ => [.bufferRange]
  | .ecPubkey _ _ _ => [.bufferRange, .invalidPrivateKey]
  | .ecAddr _ _ _ => [.invalidPublicKeyLength, .bufferRange]
  | .fpInv _ _ => [.divisionByZero]
  | .aesKeyexp _ _ => [.invalidKeyLength, .bufferRange]
  | .aesSetctr _ _ => [.invalidIVLength, .bufferRange]
  | _ => []

end Sys2Proof
end

