-- ==== Sys2Proof/Certificates/Slice0/Obligations.lean ====
section
/-! DEFINITION. The statements for the provers: what the numbered rules of the spec say the engine does. A statement
about a command gives its whole next state: `{ s with … }` names every field that changes, so the rest is the frame. A
store is said through `Stored`: the bytes stored, at the offset the command computes, and every other byte as before.
`cc := s.cc + 1, busy := false` is the end of a completed command (10_state.md rule R32). The fields `cfg`, `cmd`, `busy`,
`host`, `draws` and `replies` are the model's own (assumptions 1 to 5 and 8): what a statement says of them is the model's
choice, not a rule's. -/

open Sys2Proof Sys2Proof.Machine

/-! ### Encoding -/

/-- Rules R72, R73, R75, R78: the word of every well-formed command, with every operand at every value, decodes to that
command. -/
def Obligations.EncodeThenDecodeReturnsTheCommand : Prop := ∀ i : Instr, WellFormed i → decode (encode i) = .ok i

/-- Rule R76: a legal word determines its command and operands uniquely, and distinct legal commands have distinct
words. -/
def Obligations.LegalWordIsTheEncodingOfItsCommand : Prop :=
  ∀ (w : Word) (i : Instr), decode w = .ok i → WellFormed i ∧ encode i = w

/-- Rule R74 whole: a word has no command exactly when one of (a) to (d) holds, and then the engine faults it with
`IllegalCommand` (rules R71, R280, R284). What becomes of the host's list and of the word at the port is the model's own
choice (assumptions 1 and 5). -/
def Obligations.IllegalWordsAreThoseTheTableForbids : Prop :=
  ∀ w : Word,
    ((∀ i, decode w ≠ .ok i) ↔ illegalByTable w) ∧
      ∀ (s : State) (rest : List HostAction),
        illegalByTable w → s.err = false → s.busy = false → s.host = .command w :: rest →
          step s = .next { s with host := rest, cmd := w, err := true, errcode := 0x01, errcmd := w }

/-- Rule R81: the eleven worked encodings both ways, and the three words that are illegal and fault (rules R71, R280,
R284). What becomes of the host's list and of the word at the port is the model's own choice (assumptions 1 and 5). -/
def Obligations.WorkedEncodings : Prop :=
  (∀ p ∈ ([(0x00000000, .nop), (0x01000000, .clrerr), (0x02000000, .srst), (0x03100088, .li 1 136),
      (0x04320000, .ldw 3 2), (0x12000017, .kRound 23), (0x16001000, .kHash 0 0 1), (0x22201000, .fpMul 2 0 1),
      (0x30170000, .pmul 1 7 0), (0x38002000, .ecPubkey 0 0 2), (0x43324000, .aesCtrx 3 2 4)] : List (Word × Instr)),
    decode p.1 = .ok p.2 ∧ encode p.2 = p.1) ∧
  ∀ w ∈ ([0x2F401000, 0x12000018, 0x00000001] : List Word),
    (∀ i, decode w ≠ .ok i) ∧
      ∀ (s : State) (rest : List HostAction), s.err = false → s.busy = false → s.host = .command w :: rest →
        step s = .next { s with host := rest, cmd := w, err := true, errcode := 0x01, errcmd := w }

/-! ### The command cycle and the ports -/

/-- Rule R71: a step that finds a word at the head of the host's actions and no command at the port runs the command
the word decodes to, when the latch is clear or the word is `CLRERR` or `SRST`; and the same of the word that
`withFetchWord` places. -/
def Obligations.StepRunsTheDecodedCommand : Prop :=
  (∀ (s : State) (w : Word) (rest : List HostAction) (i : Instr),
    s.busy = false → s.host = .command w :: rest → (s.err = false ∨ w = 0x01000000 ∨ w = 0x02000000) →
      decode w = .ok i → step s = exec i { s with host := rest, cmd := w }) ∧
  ∀ (s : State) (nbits w : Nat) (i : Instr), s.err = false → decodeTableWord nbits w = some i →
    step (s.withFetchWord nbits w) = exec i { s with busy := false, cmd := tableWord nbits w }

/-- Rules R71 step 1, R286: while `ERR = 1` any other word is discarded: nothing changes but what the host has still to
say. -/
def Obligations.DiscardedCommandChangesNothing : Prop :=
  ∀ (s : State) (w : Word) (rest : List HostAction),
    s.busy = false → s.host = .command w :: rest → s.err = true → w ≠ 0x01000000 → w ≠ 0x02000000 →
      step s = .next { s with host := rest, cmd := w }

/-- Rule R33: while `ERR = 1` a step leaves the latch as it is, or it was `CLRERR`, `SRST` or reset and the latch is
zero. The invariant excludes a command waiting at the port under a set latch, which no run reaches (rule R286,
assumption 4). -/
def Obligations.FaultLatchHoldsUntilAcknowledged : Prop :=
  ∀ s t : State, Inv s → s.err = true → step s = .next t →
    (t.err = true ∧ t.errcode = s.errcode ∧ t.errcmd = s.errcmd) ∨
      (t.err = false ∧ t.errcode = 0 ∧ t.errcmd = 0 ∧
        ∃ rest, s.host = .command 0x01000000 :: rest ∨ s.host = .command 0x02000000 :: rest ∨ s.host = .reset :: rest)

/-- Rules R58, R310, R295: a command waiting at the port goes on at the next step, only reset comes before its end and
abandons it; with nothing at the port and nothing from the host the engine is idle. That the waiting is a state between
two steps is the model's choice (assumption 4). -/
def Obligations.OnlyResetOvertakesAWaitingCommand : Prop :=
  ∀ s : State,
    (∀ rest, s.busy = true → s.host = .reset :: rest →
      step s = .next { State.reset with
        cfg := s.cfg, cmd := s.cmd, host := rest, draws := s.draws, replies := s.replies }) ∧
    (∀ a : WReg, s.busy = true → s.err = false → (∀ rest, s.host ≠ .reset :: rest) → decode s.cmd = .ok (.ecKeygen a) →
      step s = exec (.ecKeygen a) s) ∧
    (s.busy = false → s.host = [] → step s = .next s)

/-- Rule R34: the five status words bit by bit, 0 for any other number; reading one is answered and changes nothing of
the engine, and no use of the buffer port changes one. -/
def Obligations.StatusWordsAreAsTabled : Prop :=
  ∀ s : State,
    ((s.statusWord 0).getLsbD 0 = s.err ∧ (s.statusWord 0).getLsbD 1 = s.kfin ∧ (s.statusWord 0).getLsbD 2 = s.kvalid ∧
      (s.statusWord 0).getLsbD 3 = s.pinf ∧ ∀ j, 4 ≤ j → (s.statusWord 0).getLsbD j = false) ∧
    (s.statusWord 1).toNat = s.errcode.toNat ∧ s.statusWord 2 = s.errcmd ∧ s.statusWord 3 = s.cc ∧
    (s.statusWord 4).toNat = s.kpos.val ∧ (∀ n, 5 ≤ n → s.statusWord n = 0) ∧
    (∀ (n : Nat) (rest : List HostAction), s.busy = false → s.host = .readStatus n :: rest →
      step s = .next { s with host := rest, replies := s.replies ++ [.status (s.statusWord n)] }) ∧
    ∀ (off : Nat) (bs : List Byte) (n : Nat), (hostWrite off bs s).statusWord n = s.statusWord n

/-- Rules R58, R51, R60: the host writes and reads `BUF` through its port, with `ERR` 0 or 1; out of range an access
changes nothing, not even the part of it in range (the model's reading, assumption 7), and a read is answered a `0x00` for
every byte asked for (the model's reading of "reads zero bytes", assumption 6). -/
def Obligations.BufferPortReadsAndWrites : Prop :=
  ∀ (s : State) (rest : List HostAction), s.busy = false →
    (∀ (off : Nat) (bs : List Byte), s.host = .writeBuf off bs :: rest →
      (Memory.wf s.buf = true → off + bs.length ≤ s.bufSize →
        ∃ m, step s = .next { s with host := rest, buf := m } ∧ Stored s.buf m off bs) ∧
      (s.bufSize < off + bs.length → step s = .next { s with host := rest })) ∧
    ∀ off len : Nat, s.host = .readBuf off len :: rest →
      (off + len ≤ s.bufSize →
        step s = .next { s with
          host := rest, replies := s.replies ++ [.bytes ((List.range len).map fun j => Memory.read s.buf (off + j))] }) ∧
      (s.bufSize < off + len →
        step s = .next { s with host := rest, replies := s.replies ++ [.bytes (List.replicate len 0)] })

/-- Rule R71: the step function is total; no word and no state makes the machine stop. -/
def Obligations.EveryStepHasANextState : Prop := ∀ s : State, ∃ t, step s = .next t

/-! ### The whole machine -/

/-- Rule R36: the invariant holds right after reset. -/
def Obligations.InvHoldsAtReset : Prop := Inv State.reset

/-- Rules R24, R29, R33, R51, R280, R295: every step keeps the invariant, from every state that has it. Its
clauses on the memory's form and on the waiting command are about the model's own form (assumptions 12 and 4). -/
def Obligations.EveryStepKeepsInv : Prop := ∀ s t : State, Inv s → step s = .next t → Inv t

/-- Rules R20, R52: a command writes no piece of state whose list of writers does not name it, and no command touches
`BUF_SIZE`, the command port, the host's actions or its answers; only `EC.KEYGEN` asks the entropy source. -/
def Obligations.StateIsWrittenOnlyByItsListedCommands : Prop :=
  ∀ (i : Instr) (s t : State), exec i s = .next t →
    (i.mayWriteR = false → t.r = s.r) ∧ (i.mayWriteW = false → t.w = s.w) ∧ (i.mayWriteQ = false → t.q = s.q) ∧
    (i.mayWritePinf = false → t.pinf = s.pinf) ∧ (i.mayWriteKs = false → t.ks = s.ks) ∧
    (i.mayWriteKpos = false → t.kpos = s.kpos) ∧ (i.mayWriteKfin = false → t.kfin = s.kfin) ∧
    (i.mayWriteKeys = false → t.rk = s.rk ∧ t.kvalid = s.kvalid) ∧ (i.mayWriteCtr = false → t.ctr = s.ctr) ∧
    (i.mayWriteBuf = false → t.buf = s.buf) ∧ ((∀ a, i ≠ .ecKeygen a) → t.draws = s.draws) ∧
    t.cfg = s.cfg ∧ t.cmd = s.cmd ∧ t.host = s.host ∧ t.replies = s.replies

/-- Rules R280, R284, R285: the nine codes; a command ends as a fault of a kind that rule R280 lists for it, with the
latch written and nothing else changed, or leaves the latch alone, but for `CLRERR` and `SRST`, which zero it. -/
def Obligations.OnlyListedFaultsAreRaised : Prop :=
  ([FaultKind.illegalCommand, .illegalSequence, .bufferRange, .invalidPrivateKey, .invalidPublicKeyLength,
      .divisionByZero, .invalidKeyLength, .invalidBlockLength, .invalidIVLength].map FaultKind.code =
    [0x01, 0x02, 0x03, 0x10, 0x11, 0x12, 0x20, 0x21, 0x22]) ∧
  ∀ (i : Instr) (s : State), WellFormed i →
    ∃ t, exec i s = .next t ∧
      ((∃ k ∈ i.faultKinds, t = { s with err := true, errcode := k.code, errcmd := s.cmd, busy := false }) ∨
        (t.err = s.err ∧ t.errcode = s.errcode ∧ t.errcmd = s.errcmd) ∨
        ((i = .clrerr ∨ i = .srst) ∧ t.err = false ∧ t.errcode = 0 ∧ t.errcmd = 0))

/-- Rules R283, R142, R29, R51: which fault each command with more than one check ends in, the first failing check in
the fixed order; `takeFault` is the fault entry that OnlyListedFaultsAreRaised spells out. -/
def Obligations.FirstFailingCheckDecidesTheFault : Prop :=
  ∀ (s : State) (a b c : RReg) (q : QReg) (w : WReg),
    (s.kfin = true → exec (.kAbsorb a b) s = .next (s.takeFault .illegalSequence)) ∧
    (s.kfin = false → s.bufSize < s.getR a + s.getR b →
      exec (.kAbsorb a b) s = .next (s.takeFault .bufferRange)) ∧
    (s.getR c ≠ 64 → exec (.ecAddr w b c) s = .next (s.takeFault .invalidPublicKeyLength)) ∧
    (s.getR c = 64 → s.bufSize < s.getR b + 64 → exec (.ecAddr w b c) s = .next (s.takeFault .bufferRange)) ∧
    (s.bufSize < s.getR c + 65 → exec (.ecPubkey q w c) s = .next (s.takeFault .bufferRange)) ∧
    (s.getR c + 65 ≤ s.bufSize → (s.getW w).toNat = 0 ∨ orderN ≤ (s.getW w).toNat →
      exec (.ecPubkey q w c) s = .next (s.takeFault .invalidPrivateKey)) ∧
    (s.getR b ≠ 16 → exec (.aesKeyexp a b) s = .next (s.takeFault .invalidKeyLength)) ∧
    (s.getR b = 16 → s.bufSize < s.getR a + 16 → exec (.aesKeyexp a b) s = .next (s.takeFault .bufferRange)) ∧
    (s.getR b ≠ 16 → exec (.aesSetctr a b) s = .next (s.takeFault .invalidIVLength)) ∧
    (s.getR b = 16 → s.bufSize < s.getR a + 16 → exec (.aesSetctr a b) s = .next (s.takeFault .bufferRange)) ∧
    (s.kvalid = false → exec (.aesEncb a b c) s = .next (s.takeFault .illegalSequence)) ∧
    (s.kvalid = true → s.getR c ≠ 16 → exec (.aesEncb a b c) s = .next (s.takeFault .invalidBlockLength)) ∧
    (s.kvalid = true → s.getR c = 16 → s.bufSize < s.getR b + 16 ∨ s.bufSize < s.getR a + 16 →
      exec (.aesEncb a b c) s = .next (s.takeFault .bufferRange)) ∧
    (s.kvalid = false → exec (.aesCtrx a b c) s = .next (s.takeFault .illegalSequence)) ∧
    (s.kvalid = true → s.bufSize < s.getR b + s.getR c ∨ s.bufSize < s.getR a + s.getR c →
      exec (.aesCtrx a b c) s = .next (s.takeFault .bufferRange))

/-- The commands with one check: rules R104, R105, R137 to R141, R174. -/
def Obligations.SingleCheckFaults : Prop :=
  ∀ (s : State) (a b : RReg) (w v : WReg),
    (s.bufSize < s.getR a + 32 → exec (.ldw w a) s = .next (s.takeFault .bufferRange)) ∧
    (s.bufSize < s.getR a + 32 → exec (.stw w a) s = .next (s.takeFault .bufferRange)) ∧
    (s.bufSize < s.getR a + s.getR b → exec (.kHash w a b) s = .next (s.takeFault .bufferRange)) ∧
    (s.bufSize < s.getR a + 200 → exec (.kLds a) s = .next (s.takeFault .bufferRange)) ∧
    (s.bufSize < s.getR a + 200 → exec (.kSts a) s = .next (s.takeFault .bufferRange)) ∧
    (s.kfin = true → exec .kFinal s = .next (s.takeFault .illegalSequence)) ∧
    (s.kfin = false → exec (.kSqueeze w) s = .next (s.takeFault .illegalSequence)) ∧
    ((s.getW v).toNat = 0 ∨ (s.getW v).toNat = primeP →
      exec (.fpInv w v) s = .next (s.takeFault .divisionByZero))

/-- Rule R32: `CC` advances by one, modulo `2^32`, with every command that completes, which leaves the latch as it was
unless it is `CLRERR`; a fault leaves `CC`, and so does a turn of `EC.KEYGEN` that has not completed (assumption 4); `SRST`
sets it to 0. -/
def Obligations.CcCountsCompletedCommands : Prop :=
  ∀ (i : Instr) (s t : State), exec i s = .next t →
    (i = .srst ∧ t.cc = 0) ∨
      (i ≠ .srst ∧ t.cc.toNat = (s.cc.toNat + 1) % 2 ^ 32 ∧ t.busy = false ∧
        (i = .clrerr ∧ t.err = false ∨ t.err = s.err ∧ t.errcode = s.errcode ∧ t.errcmd = s.errcmd)) ∨
      (t.cc = s.cc ∧ ∃ k, t = s.takeFault k) ∨ (t.cc = s.cc ∧ t.busy = true ∧ ∃ a, i = .ecKeygen a)

/-- Rules R21, R31, R32: no command reads `CC` or the `PINF` flag. Two runs of a command from states that differ in
nothing else end in states that differ in nothing else. -/
def Obligations.CcAndPinfAreNeverRead : Prop :=
  ∀ (i : Instr) (s t : State) (n : Word) (f : Bool), exec i s = .next t →
    ∃ (m : Word) (g : Bool), exec i { s with cc := n, pinf := f } = .next { t with cc := m, pinf := g }

/-- Rule R295: the only command that may fail to complete is `EC.KEYGEN`, and only while no entropy answer at
hand is in range (assumptions 3 and 4). -/
def Obligations.OnlyKeygenWaits : Prop :=
  ∀ (i : Instr) (s t : State), exec i s = .next t → t.busy = true →
    (∃ a, i = .ecKeygen a) ∧ ∀ d ∈ s.draws, ¬ drawAccepted d

/-- Rule R36: `SRST` and reset leave every piece of state at its tabled value; both complete from every state. -/
def Obligations.ResetLeavesTheTabledValues : Prop :=
  AtReset State.reset ∧
  (∀ s : State, ∃ t, exec .srst s = .next t ∧ AtReset t) ∧
  ∀ (s : State) (rest : List HostAction), s.host = .reset :: rest → ∃ t, step s = .next t ∧ AtReset t

/-! ### System and data movement -/

/-- Rules R100, R101: `NOP` does nothing but count; `CLRERR` zeroes the latch and restores nothing. -/
def Obligations.NopCountsAndClrerrAcknowledges : Prop :=
  ∀ s : State,
    exec .nop s = .next { s with cc := s.cc + 1, busy := false } ∧
    exec .clrerr s = .next { s with err := false, errcode := 0, errcmd := 0, cc := s.cc + 1, busy := false }

/-- Rules R103, R106: `LI` and `MOVW` write their one destination register. -/
def Obligations.LiAndMovwWriteOneRegister : Prop :=
  ∀ s : State,
    (∀ (a : RReg) (imm : Half), ∃ r', exec (.li a imm) s = .next { s with r := r', cc := s.cc + 1, busy := false } ∧
      r'[a] = imm ∧ ∀ j : RReg, j ≠ a → r'[j] = s.r[j]) ∧
    ∀ a b : WReg, ∃ w', exec (.movw a b) s = .next { s with w := w', cc := s.cc + 1, busy := false } ∧
      w'[a] = s.w[b] ∧ ∀ j : WReg, j ≠ a → w'[j] = s.w[j]

/-- Rules R104, R53: `LDW` reads 32 bytes, the one at the lowest offset into bits 255:248, and reduces nothing. -/
def Obligations.LdwReadsBigEndian : Prop :=
  ∀ (s : State) (a : WReg) (b : RReg), s.getR b + 32 ≤ s.bufSize →
    ∃ v, exec (.ldw a b) s = .next { s with w := s.w.set a v, cc := s.cc + 1, busy := false } ∧
      ∀ j, j < 32 → wideByte v j = Memory.read s.buf (s.getR b + j)

/-- Rules R105, R53: `STW` stores the 32 bytes of the register, bits 255:248 at the lowest offset. -/
def Obligations.StwStoresBigEndian : Prop :=
  ∀ (s : State) (a : WReg) (b : RReg), Memory.wf s.buf = true → s.getR b + 32 ≤ s.bufSize →
    ∃ m, exec (.stw a b) s = .next { s with buf := m, cc := s.cc + 1, busy := false } ∧
      Stored s.buf m (s.getR b) ((List.range 32).map (wideByte (s.getW a)))

/-- Rule R105: `STW` then `LDW` at the same offset is the identity on the register, `LDW` then `STW` on the bytes. -/
def Obligations.StwAndLdwUndoEachOther : Prop :=
  ∀ (s : State) (a : WReg) (b : RReg), Memory.wf s.buf = true → s.getR b + 32 ≤ s.bufSize →
    (∃ t u, execAll [.stw a b] s = .next t ∧ execAll [.stw a b, .ldw a b] s = .next u ∧ u.w = s.w ∧ u.buf = t.buf) ∧
    ∃ u, execAll [.ldw a b, .stw a b] s = .next u ∧ u.buf = s.buf

/-! ### HashSponge -/

/-- Rules R121, R122: the two Keccak tables are the ones the spec's generators make. -/
def Obligations.KeccakTablesAreTheGeneratedOnes : Prop :=
  ((List.range 5).map (rotOffset · 0) = [0, 1, 62, 28, 27] ∧ (List.range 5).map (rotOffset · 1) = [36, 44, 6, 55, 20] ∧
    (List.range 5).map (rotOffset · 2) = [3, 10, 43, 25, 39] ∧ (List.range 5).map (rotOffset · 3) = [41, 45, 15, 21, 8] ∧
    (List.range 5).map (rotOffset · 4) = [18, 2, 61, 56, 14] ∧
    ∀ t, t < 24 → rotOffset (rotWalk t).1 (rotWalk t).2 = (t + 1) * (t + 2) / 2 % 64) ∧
  ∀ i, i < 24 →
    (∀ j, j < 7 → (roundConstant i).getLsbD (2 ^ j - 1) = lfsrBit (j + 7 * i)) ∧
      ∀ b, b < 64 → (∀ j, j < 7 → b ≠ 2 ^ j - 1) → (roundConstant i).getLsbD b = false

/-- Rule R123 with its example: step `θ`. -/
def Obligations.ThetaXorsColumnParities : Prop :=
  (∀ A : Lanes,
    let C := fun x => nth A x ^^^ nth A (x + 5) ^^^ nth A (x + 10) ^^^ nth A (x + 15) ^^^ nth A (x + 20)
    let D := fun x => C ((x + 4) % 5) ^^^ (C ((x + 1) % 5)).rotateLeft 1
    ∀ i, i < 25 → nth (theta A) i = nth A i ^^^ D (i % 5)) ∧
  ∀ i, i < 25 → nth (theta (vecOf 25 fun i => if i = 0 then 1 else 0)) i =
    if i = 0 ∨ i % 5 = 1 then 1 else if i % 5 = 4 then 2 else 0

/-- Rule R124 with its two examples: steps `ρ` and `π`, by coordinates and by lane index. -/
def Obligations.RhoPiRotatesAndMovesLanes : Prop :=
  (∀ (A : Lanes) (x y : Nat), x < 5 → y < 5 →
    nth (rhoPi A) (y + 5 * ((2 * x + 3 * y) % 5)) = (nth A (x + 5 * y)).rotateLeft (rotOffset x y)) ∧
  (∀ (A : Lanes) (i : Nat), i < 25 →
    nth (rhoPi A) ([0, 10, 20, 5, 15, 16, 1, 11, 21, 6, 7, 17, 2, 12, 22, 23, 8, 18, 3, 13, 14, 24, 9, 19, 4].getD i 0) =
      (nth A i).rotateLeft (rotOffset (i % 5) (i / 5))) ∧
  (∀ i, i < 25 → nth (rhoPi (vecOf 25 fun i => if i = 1 then 1 else 0)) i = if i = 10 then 2 else 0) ∧
  ∀ i, i < 25 → nth (rhoPi (vecOf 25 fun i => if i = 3 then 0x8000000000000001 else 0)) i =
    if i = 5 then 0x0000000018000000 else 0

/-- Rules R125, R126, R127 with their examples: step `χ`, every output of a row from the row's inputs; step `ι`; and a
round as the four steps in order. -/
def Obligations.ChiIotaAndTheRound : Prop :=
  (∀ (B : Lanes) (x y : Nat), x < 5 → y < 5 →
    nth (chi B) (x + 5 * y) =
      nth B (x + 5 * y) ^^^ (~~~ nth B ((x + 1) % 5 + 5 * y) &&& nth B ((x + 2) % 5 + 5 * y))) ∧
  (List.range 5).map (nth (chi (vecOf 25 fun i => if i < 5 then BitVec.ofNat 64 (i + 1) else 0))) = [0, 6, 2, 4, 7] ∧
  (∀ (A : Lanes) (i : Nat), i < 24 →
    nth (iota A i) 0 = nth A 0 ^^^ roundConstant i ∧ ∀ j, 0 < j → j < 25 → nth (iota A i) j = nth A j) ∧
  nth (iota (vecOf 25 fun j => if j = 0 then 1 else 0) 5) 0 = 0x0000000080000000 ∧
  (∀ (A : Lanes) (i : Nat), i < 24 → keccakRound A i = iota (chi (rhoPi (theta A))) i) ∧
  ∀ j, j < 25 → nth (keccakRound (Vector.replicate 25 0) 0) j = if j = 0 then 0x0000000000000001 else 0

/-- Rules R133, R134, R135, R128: `K.INIT` clears the sponge, `K.F1600` runs the 24 rounds in ascending order, `K.ROUND`
runs one; the last two neither read nor write `KPOS` and `KFIN`. -/
def Obligations.InitPermuteAndRound : Prop :=
  ∀ s : State,
    exec .kInit s = .next { s with
      ks := Vector.replicate 25 0, kpos := 0, kfin := false, cc := s.cc + 1, busy := false } ∧
    exec .kF1600 s = .next { s with
      ks := (List.range 24).foldl (fun A i => keccakRound A i) s.ks, cc := s.cc + 1, busy := false } ∧
    ∀ imm : Half, imm.toNat < 24 →
      exec (.kRound imm) s = .next { s with ks := keccakRound s.ks imm.toNat, cc := s.cc + 1, busy := false }

/-- Rule R135: `K.ROUND 0` to `K.ROUND 23` equal `K.F1600`, but for the count of commands. -/
def Obligations.TwentyFourRoundsAreThePermutation : Prop :=
  ∀ s : State, ∃ t, exec .kF1600 s = .next t ∧
    execAll ((List.range 24).map fun n => .kRound (BitVec.ofNat 16 n)) s = .next { t with cc := s.cc + 24 }

/-- Rules R136, R129, R142: `K.ABSORB` takes the bytes at its range in order; `KPOS` advances modulo 136; while no
block is filled, the bytes are XORed to the state bytes from `KPOS` up and nothing else changes. -/
def Obligations.AbsorbTakesTheBytes : Prop :=
  ∀ (s : State) (a b : RReg), s.kfin = false → s.getR a + s.getR b ≤ s.bufSize →
    ∃ (A : Lanes) (p : Fin 136),
      exec (.kAbsorb a b) s = .next { s with ks := A, kpos := p, cc := s.cc + 1, busy := false } ∧
      (A, p) = absorb (s.ks, s.kpos) ((List.range (s.getR b)).map fun j => Memory.read s.buf (s.getR a + j)) ∧
      p.val = (s.kpos.val + s.getR b) % 136 ∧
      (s.kpos.val + s.getR b < 136 → ∀ j, j < 200 →
        stateByte A j = stateByte s.ks j ^^^
          if s.kpos.val ≤ j ∧ j < s.kpos.val + s.getR b then Memory.read s.buf (s.getR a + (j - s.kpos.val)) else 0)

/-- Rule R136: a message may be absorbed in any pieces; two commands over adjacent ranges give the state of one over
both, but for the count of commands. -/
def Obligations.AbsorbingInPiecesIsAbsorbingAtOnce : Prop :=
  ∀ (s : State) (a b c d e : RReg), s.kfin = false → s.getR c = s.getR a + s.getR b →
    s.getR e = s.getR b + s.getR d → s.getR a + s.getR e ≤ s.bufSize →
    ∃ t, exec (.kAbsorb a e) s = .next t ∧
      execAll [.kAbsorb a b, .kAbsorb c d] s = .next { t with cc := s.cc + 2 }

/-- Rule R129: absorbing whole 136-byte blocks from position 0 is, block by block, XOR of the block's 17 little-endian
lanes into lanes 0 to 16 and one permutation. -/
def Obligations.FullBlocksAreXoredAndPermuted : Prop :=
  ∀ (A : Lanes) (blocks : List (List Byte)), (∀ blk ∈ blocks, blk.length = 136) →
    absorb (A, 0) blocks.flatten =
      (blocks.foldl (fun A blk =>
        keccakF (vecOf 25 fun i => if i < 17 then nth A i ^^^ leLane ((blk.drop (8 * i)).take 8) else nth A i)) A, 0)

/-- Rules R137, R130: `K.FINAL` puts `0x01` at rate byte `KPOS` and `0x80` at rate byte 135, both on one byte when
`KPOS = 135`, permutes, and leaves the finalised phase with `KPOS = 0`. -/
def Obligations.FinalPadsAndPermutes : Prop :=
  ∀ s : State, s.kfin = false →
    ∃ A : Lanes, exec .kFinal s = .next { s with
        ks := keccakF A, kpos := 0, kfin := true, cc := s.cc + 1, busy := false } ∧
      ∀ j, j < 200 → stateByte A j =
        stateByte s.ks j ^^^ (if j = s.kpos.val then 0x01 else 0) ^^^ (if j = 135 then 0x80 else 0)

/-- Rules R138, R131, R54: `K.SQUEEZE` puts state byte 0 into bits 255:248 of the register, and so on to byte 31. -/
def Obligations.SqueezeReadsTheDigest : Prop :=
  ∀ (s : State) (a : WReg), s.kfin = true →
    ∃ v, exec (.kSqueeze a) s = .next { s with w := s.w.set a v, cc := s.cc + 1, busy := false } ∧
      ∀ j, j < 32 → wideByte v j = stateByte s.ks j

/-- Rules R139, R132: `K.HASH` completes in every phase, writes one register and the sponge, and equals
`K.INIT; K.ABSORB; K.FINAL; K.SQUEEZE`, but that it counts as one command. -/
def Obligations.HashIsTheFourCommandSequence : Prop :=
  ∀ (s : State) (a : WReg) (b c : RReg), s.getR b + s.getR c ≤ s.bufSize →
    ∃ (A : Lanes) (v : Wide),
      exec (.kHash a b c) s = .next { s with
        w := s.w.set a v, ks := A, kpos := 0, kfin := true, cc := s.cc + 1, busy := false } ∧
      execAll [.kInit, .kAbsorb b c, .kFinal, .kSqueeze a] s = .next { s with
        w := s.w.set a v, ks := A, kpos := 0, kfin := true, cc := s.cc + 4, busy := false } ∧
      ∀ j, j < 32 → wideByte v j =
        byteAt (keccak256 ((List.range (s.getR c)).map fun i => Memory.read s.buf (s.getR b + i))) j

/-- Rules R140, R141, R54: `K.LDS` loads and `K.STS` stores the 200 state bytes in order, little-endian in each lane;
`K.STS` then `K.LDS` at the same offset leaves `KS` unchanged. -/
def Obligations.LdsAndStsMoveTheStateBytes : Prop :=
  ∀ (s : State) (a : RReg), s.getR a + 200 ≤ s.bufSize →
    (∃ A : Lanes, exec (.kLds a) s = .next { s with ks := A, cc := s.cc + 1, busy := false } ∧
      ∀ j, j < 200 → stateByte A j = Memory.read s.buf (s.getR a + j)) ∧
    (Memory.wf s.buf = true →
      ∃ m, exec (.kSts a) s = .next { s with buf := m, cc := s.cc + 1, busy := false } ∧
        Stored s.buf m (s.getR a) ((List.range 200).map (stateByte s.ks)) ∧
        execAll [.kSts a, .kLds a] s = .next { s with buf := m, cc := s.cc + 2, busy := false })

/-! ### CurveArithmetic: the field -/

/-- Rule R160 whole: the values of `P`, `N` and `G`, and every fact the rule states of them; `[k]G` is said as the sum of
`k` copies of `G`. The bound that rule R161 rests on is added. -/
def Obligations.CurveConstantsHaveTheStatedProperties : Prop :=
  primeP = 0xFFFFFFFFFFFFFFFFFFFFFFFFFFFFFFFFFFFFFFFFFFFFFFFFFFFFFFFEFFFFFC2F ∧ primeP = 2 ^ 256 - 2 ^ 32 - 977 ∧
    orderN = 0xFFFFFFFFFFFFFFFFFFFFFFFFFFFFFFFEBAAEDCE6AF48A03BBFD25E8CD0364141 ∧
    Point.generator = ⟨0x79BE667EF9DCBBAC55A06295CE870B07029BFCDB2DCE28D959F2815B16F81798,
      0x483ADA7726A3C4655DA4FBFC0E1108A8FD17B448A68554199C47D08FFB10D4B8, false⟩ ∧
    Point.generator = ⟨genX, genY, false⟩ ∧
    2 ^ 256 - primeP = 0x1000003D1 ∧ 2 ^ 256 - primeP = 4294968273 ∧ 2 ^ 256 < 2 * primeP ∧
    2 ^ 256 - orderN = 0x14551231950B75FC4402DA1732FC9BEBF ∧ Nat.Prime primeP ∧ Nat.Prime orderN ∧
    genY.toNat * genY.toNat % primeP = (genX.toNat * genX.toNat * genX.toNat + 7) % primeP ∧
    multiple orderN Point.generator = ⟨0, 0, true⟩ ∧
    ∀ k, 1 ≤ k → k < orderN → multiple k Point.generator ≠ ⟨0, 0, true⟩

/-- Rules R161, R162, R170 to R173: sum, difference, product and negation are the exact integer results reduced to
`[0, P)`, whatever the sources hold. -/
def Obligations.FieldCommandsReduceExactResults : Prop :=
  ∀ (s : State) (a b c : WReg),
    (∃ v, exec (.fpAdd a b c) s = .next { s with w := s.w.set a v, cc := s.cc + 1, busy := false } ∧
      v.toNat = ((s.getW b).toNat + (s.getW c).toNat) % primeP) ∧
    (∃ v, exec (.fpSub a b c) s = .next { s with w := s.w.set a v, cc := s.cc + 1, busy := false } ∧
      (v.toNat : Int) = (((s.getW b).toNat : Int) - (s.getW c).toNat) % primeP) ∧
    (∃ v, exec (.fpMul a b c) s = .next { s with w := s.w.set a v, cc := s.cc + 1, busy := false } ∧
      v.toNat = (s.getW b).toNat * (s.getW c).toNat % primeP) ∧
    ∃ v, exec (.fpNeg a b) s = .next { s with w := s.w.set a v, cc := s.cc + 1, busy := false } ∧
      (v.toNat : Int) = (-((s.getW b).toNat : Int)) % primeP

/-- Rule R163 whole, at `FP.INV` (rule R174): a source that is 0 modulo `P` fails with `DivisionByZero`; for any other
the command completes and writes the power of Fermat's little theorem, the one number in `[1, P)` whose product with the
source is 1 modulo `P`; and the three examples. -/
def Obligations.InverseIsTheUniqueInverse : Prop :=
  (∀ (s : State) (a b : WReg), (s.getW b).toNat % primeP = 0 →
    exec (.fpInv a b) s = .next (s.takeFault .divisionByZero)) ∧
  (∀ (s : State) (a b : WReg), (s.getW b).toNat % primeP ≠ 0 →
    ∃ v, exec (.fpInv a b) s = .next { s with w := s.w.set a v, cc := s.cc + 1, busy := false } ∧
      v.toNat = ((s.getW b).toNat % primeP) ^ (primeP - 2) % primeP ∧
      1 ≤ v.toNat ∧ v.toNat < primeP ∧ (s.getW b).toNat * v.toNat % primeP = 1 ∧
      ∀ r : Nat, 1 ≤ r → r < primeP → (s.getW b).toNat * r % primeP = 1 → r = v.toNat) ∧
  finv 1 = 1 ∧ finv 2 = 0x7FFFFFFFFFFFFFFFFFFFFFFFFFFFFFFFFFFFFFFFFFFFFFFFFFFFFFFF7FFFFE18 ∧
  finv (primeP - 1) = primeP - 1

/-! ### CurveArithmetic: points -/

/-- Rules R180 to R185, R31: the commands that move points. Each that writes `Q[a]` writes the `PINF` flag with the new
`inf`; `PGET` writes it with the one read, and with `a = b` the register ends holding `y`. -/
def Obligations.PointMovesWriteRegisterAndFlag : Prop :=
  ∀ (s : State) (a b : QReg) (x y : WReg),
    (∃ p : Point, exec (.pset a x y) s = .next { s with q := s.q.set a p, pinf := false, cc := s.cc + 1, busy := false } ∧
      p.x.toNat = (s.getW x).toNat % primeP ∧ p.y.toNat = (s.getW y).toNat % primeP ∧ p.inf = false) ∧
    exec (.pinf a) s = .next { s with q := s.q.set a ⟨0, 0, true⟩, pinf := true, cc := s.cc + 1, busy := false } ∧
    exec (.pldg a) s = .next { s with q := s.q.set a ⟨genX, genY, false⟩, pinf := false, cc := s.cc + 1, busy := false } ∧
    exec (.pget x y b) s = .next { s with
      w := (s.w.set x (s.getQ b).x).set y (s.getQ b).y, pinf := (s.getQ b).inf, cc := s.cc + 1, busy := false } ∧
    exec (.pmov a b) s = .next { s with
      q := s.q.set a (s.getQ b), pinf := (s.getQ b).inf, cc := s.cc + 1, busy := false } ∧
    ∃ p : Point, exec (.pneg a b) s = .next { s with q := s.q.set a p, pinf := p.inf, cc := s.cc + 1, busy := false } ∧
      ((s.getQ b).inf = true → p = ⟨0, 0, true⟩) ∧
      ((s.getQ b).inf = false → p.inf = false ∧ p.x = (s.getQ b).x ∧
        (p.y.toNat : Int) = (-((s.getQ b).y.toNat : Int)) % primeP)

/-- Rules R186, R166, R169: doubling a canonical point. The slope is said by its equation `2y·λ ≡ 3x²`, which has a
solution since `2y` is not 0 modulo `P`. -/
def Obligations.DoublingFollowsTheTangent : Prop :=
  ∀ (s : State) (a b : QReg), (s.getQ b).canonical = true →
    ∃ p : Point, exec (.pdbl a b) s = .next { s with q := s.q.set a p, pinf := p.inf, cc := s.cc + 1, busy := false } ∧
      ((s.getQ b).inf = true ∨ (s.getQ b).y = 0 → p = ⟨0, 0, true⟩) ∧
      ((s.getQ b).inf = false → (s.getQ b).y ≠ 0 →
        ∃ lam : Nat, lam < primeP ∧
          2 * (s.getQ b).y.toNat * lam % primeP = 3 * (s.getQ b).x.toNat * (s.getQ b).x.toNat % primeP ∧
          p.inf = false ∧ (p.x.toNat : Int) = ((lam : Int) * lam - 2 * (s.getQ b).x.toNat) % primeP ∧
          (p.y.toNat : Int) = ((lam : Int) * ((s.getQ b).x.toNat - p.x.toNat) - (s.getQ b).y.toNat) % primeP)

/-- Rules R187, R167, R169: adding canonical points, case by case; the slope of the chord is said by its equation. -/
def Obligations.AddingFollowsTheChord : Prop :=
  ∀ (s : State) (a b c : QReg), (s.getQ b).canonical = true → (s.getQ c).canonical = true →
    ∃ p : Point,
      exec (.padd a b c) s = .next { s with q := s.q.set a p, pinf := p.inf, cc := s.cc + 1, busy := false } ∧
      ((s.getQ b).inf = true → p = s.getQ c) ∧
      ((s.getQ b).inf = false → (s.getQ c).inf = true → p = s.getQ b) ∧
      ((s.getQ b).inf = false → (s.getQ c).inf = false → (s.getQ b).x = (s.getQ c).x → (s.getQ b).y ≠ (s.getQ c).y →
        p = ⟨0, 0, true⟩) ∧
      ((s.getQ b).inf = false → s.getQ b = s.getQ c → exec (.pdbl a b) s = exec (.padd a b c) s) ∧
      ((s.getQ b).inf = false → (s.getQ c).inf = false → (s.getQ b).x ≠ (s.getQ c).x →
        ∃ lam : Nat, lam < primeP ∧
          (((s.getQ c).x.toNat : Int) - (s.getQ b).x.toNat) * lam % primeP =
            (((s.getQ c).y.toNat : Int) - (s.getQ b).y.toNat) % primeP ∧
          p.inf = false ∧
          (p.x.toNat : Int) = ((lam : Int) * lam - (s.getQ b).x.toNat - (s.getQ c).x.toNat) % primeP ∧
          (p.y.toNat : Int) = ((lam : Int) * ((s.getQ b).x.toNat - p.x.toNat) - (s.getQ b).y.toNat) % primeP)

/-- Rules R188, R168, R164: `PMUL` gives the sum of the `2^i`-folds of the point over the bits of the scalar reduced modulo
`N`; with a scalar that is 0 modulo `N` that is the point at infinity; and for a point on the curve it is the sum of as many
copies of the point as the reduced scalar says. -/
def Obligations.PmulAddsTheSelectedDoublings : Prop :=
  ∀ (s : State) (a : QReg) (b : WReg) (c : QReg),
    ∃ p : Point, exec (.pmul a b c) s = .next { s with q := s.q.set a p, pinf := p.inf, cc := s.cc + 1, busy := false } ∧
      p = scalarTimes (s.getW b).toNat (s.getQ c) ∧
      ((s.getW b).toNat % orderN = 0 → p = ⟨0, 0, true⟩) ∧
      ((s.getQ c).canonical = true → (s.getQ c).onCurve → p = multiple ((s.getW b).toNat % orderN) (s.getQ c))

/-! ### CurveArithmetic: keys -/

/-- Rule R194: for a legal key `EC.PUBKEY` leaves `[k]G`, which is finite, in `Q[a]` and stores `0x04 ‖ x ‖ y`. -/
def Obligations.PubkeyStoresTheUncompressedPoint : Prop :=
  ∀ (s : State) (a : QReg) (b : WReg) (c : RReg), Memory.wf s.buf = true → s.getR c + 65 ≤ s.bufSize →
    1 ≤ (s.getW b).toNat → (s.getW b).toNat < orderN →
    ∃ (p : Point) (m : Memory),
      exec (.ecPubkey a b c) s = .next { s with
        q := s.q.set a p, pinf := false, buf := m, cc := s.cc + 1, busy := false } ∧
      p = scalarTimes (s.getW b).toNat ⟨genX, genY, false⟩ ∧ p = multiple (s.getW b).toNat ⟨genX, genY, false⟩ ∧
      p.inf = false ∧
      Stored s.buf m (s.getR c) (0x04 :: ((List.range 32).map (wideByte p.x) ++ (List.range 32).map (wideByte p.y)))

/-- Rule R195: `EC.ADDR` leaves the sponge as `K.HASH` over the same 64 bytes does, and the low 160 bits of that digest,
zero-extended, in `W[a]`. -/
def Obligations.AddrIsTheLowPartOfTheHash : Prop :=
  ∀ (s : State) (a : WReg) (b c : RReg), s.getR c = 64 → s.getR b + 64 ≤ s.bufSize →
    ∃ (t : State) (v : Wide), exec (.kHash a b c) s = .next t ∧
      exec (.ecAddr a b c) s = .next { t with w := s.w.set a v } ∧ v.toNat = (t.getW a).toNat % 2 ^ 160

/-- Rules R196, R262: `EC.KEYGEN` throws away every answer out of `[1, N−1]` and takes the first one in it, byte 0 most
significant, for every sequence of answers; with no such answer at hand it waits (assumption 4). -/
def Obligations.KeygenTakesTheFirstDrawInRange : Prop :=
  ∀ (s : State) (a : WReg),
    (∀ (bad : List Draw) (d : Draw) (rest : List Draw), s.draws = bad ++ d :: rest →
      (∀ e ∈ bad, ¬ drawAccepted e) → drawAccepted d →
      ∃ v, exec (.ecKeygen a) s = .next { s with w := s.w.set a v, draws := rest, cc := s.cc + 1, busy := false } ∧
        1 ≤ v.toNat ∧ v.toNat < orderN ∧ ∀ j, j < 32 → wideByte v j = nth d j) ∧
    ((∀ e ∈ s.draws, ¬ drawAccepted e) → exec (.ecKeygen a) s = .next { s with draws := [], busy := true })

/-- Rule R197: `EC.PUBKEY; LI; LI; EC.ADDR` completes for every legal key and leaves a value that depends on the key
alone: the last twenty bytes of the hash of `x ‖ y` of `[k]G`. -/
def Obligations.AddressIsAFunctionOfTheKey : Prop :=
  ∀ (s : State) (qa : QReg) (wb wd : WReg) (rc rx ry : RReg), rx ≠ ry → Memory.wf s.buf = true →
    s.getR rc + 65 ≤ s.bufSize → 1 ≤ (s.getW wb).toNat → (s.getW wb).toNat < orderN →
    ∃ (t : State) (p : Point), p = scalarTimes (s.getW wb).toNat ⟨genX, genY, false⟩ ∧
      execAll [.ecPubkey qa wb rc, .li rx (BitVec.ofNat 16 (s.getR rc + 1)), .li ry 64, .ecAddr wd rx ry] s = .next t ∧
      (t.getW wd).toNat =
        beNat ((keccak256 ((List.range 32).map (wideByte p.x) ++ (List.range 32).map (wideByte p.y))).drop 12)

/-! ### BlockCipher -/

/-- Rules R221, R222: the S-box is the affine image of the inverse in GF(2^8), a permutation without fixed point; the
round constants double from 1. -/
def Obligations.AesTablesAreTheGeneratedOnes : Prop :=
  (∀ a : Byte, ∃ b : Byte, (a = 0 → b = 0) ∧ (a ≠ 0 → gfMul a b = 1) ∧
    ∀ i, i < 8 → (subByte a).getLsbD i =
      (b.getLsbD i ^^ b.getLsbD ((i + 4) % 8) ^^ b.getLsbD ((i + 5) % 8) ^^ b.getLsbD ((i + 6) % 8) ^^
        b.getLsbD ((i + 7) % 8) ^^ (0x63 : Byte).getLsbD i)) ∧
  (∀ a b : Byte, subByte a = subByte b → a = b) ∧ (∀ a : Byte, subByte a ≠ a) ∧
  rcon 1 = 0x01 ∧ ∀ j, 1 ≤ j → j < 10 → rcon (j + 1) = xtime (rcon j)

/-- Rule R223 with its examples: doubling in GF(2^8), and multiplication by 2 and by 3. -/
def Obligations.XtimeDoublesAndReduces : Prop :=
  (∀ b : Byte, (b.getLsbD 7 = false → (xtime b).toNat = 2 * b.toNat % 256) ∧
    (b.getLsbD 7 = true → xtime b = BitVec.ofNat 8 (2 * b.toNat % 256) ^^^ 0x1B) ∧
    mul2 b = xtime b ∧ mul3 b = xtime b ^^^ b) ∧
  xtime 0x57 = 0xAE ∧ xtime 0xAE = 0x47 ∧ xtime 0x80 = 0x1B ∧ xtime 0x01 = 0x02

/-- Rules R231, R224, R28: `AES.KEYEXP` reads the 16 key bytes and expands them by the word recurrence of the key
schedule; `CTR` is not touched. -/
def Obligations.KeyexpFollowsTheSchedule : Prop :=
  ∀ (s : State) (a b : RReg), s.getR b = 16 → s.getR a + 16 ≤ s.bufSize →
    ∃ rk : RoundKeys,
      exec (.aesKeyexp a b) s = .next { s with rk := rk, kvalid := true, cc := s.cc + 1, busy := false } ∧
      let w := fun i j => nth (keyAt rk (i / 4)) (4 * (i % 4) + j)
      (∀ i j, i < 4 → j < 4 → w i j = Memory.read s.buf (s.getR a + (4 * i + j))) ∧
      ∀ i j, 4 ≤ i → i < 44 → j < 4 →
        w i j = w (i - 4) j ^^^
          if i % 4 = 0 then subByte (w (i - 1) ((j + 1) % 4)) ^^^ (if j = 0 then rcon (i / 4) else 0) else w (i - 1) j

/-- Rules R225 to R228 with their examples: SubBytes, ShiftRows, MixColumns with its four rows of coefficients, and
AddRoundKey, byte by byte. -/
def Obligations.AesRoundStepsByteByByte : Prop :=
  (∀ (s : Block) (i : Nat), i < 16 → nth (subBytes s) i = subByte (nth s i)) ∧
  (subBytes (vecOf 16 fun i => BitVec.ofNat 8 (16 * i))).toList =
    [0x63, 0xca, 0xb7, 0x04, 0x09, 0x53, 0xd0, 0x51, 0xcd, 0x60, 0xe0, 0xe7, 0xba, 0x70, 0xe1, 0x8c] ∧
  (∀ (s : Block) (r c : Nat), r < 4 → c < 4 → nth (shiftRows s) (r + 4 * c) = nth s (r + 4 * ((c + r) % 4))) ∧
  (shiftRows (vecOf 16 fun i => BitVec.ofNat 8 i)).toList =
    [0x00, 0x05, 0x0a, 0x0f, 0x04, 0x09, 0x0e, 0x03, 0x08, 0x0d, 0x02, 0x07, 0x0c, 0x01, 0x06, 0x0b] ∧
  (∀ (s : Block) (c : Nat), c < 4 →
    let a := fun r => nth s (r + 4 * c)
    nth (mixColumns s) (0 + 4 * c) = mul2 (a 0) ^^^ mul3 (a 1) ^^^ a 2 ^^^ a 3 ∧
    nth (mixColumns s) (1 + 4 * c) = a 0 ^^^ mul2 (a 1) ^^^ mul3 (a 2) ^^^ a 3 ∧
    nth (mixColumns s) (2 + 4 * c) = a 0 ^^^ a 1 ^^^ mul2 (a 2) ^^^ mul3 (a 3) ∧
    nth (mixColumns s) (3 + 4 * c) = mul3 (a 0) ^^^ a 1 ^^^ a 2 ^^^ mul2 (a 3)) ∧
  (mixColumns (blockOfBytes [0xdb, 0x13, 0x53, 0x45, 0x01, 0x01, 0x01, 0x01, 0xc6, 0xc6, 0xc6, 0xc6,
      0xd4, 0xd4, 0xd4, 0xd5])).toList =
    [0x8e, 0x4d, 0xa1, 0xbc, 0x01, 0x01, 0x01, 0x01, 0xc6, 0xc6, 0xc6, 0xc6, 0xd5, 0xd5, 0xd7, 0xd6] ∧
  ∀ (rk : RoundKeys) (s : Block) (r i : Nat), r < 11 → i < 16 →
    nth (addRoundKey rk s r) i = nth s i ^^^ nth (keyAt rk r) i

/-- Rules R232, R229, R220: `AES.ENCB` stores the encryption of the 16 source bytes of before the command, ten rounds of
which the last has no MixColumns. -/
def Obligations.EncbRunsTheTenRounds : Prop :=
  ∀ (s : State) (a b c : RReg), Memory.wf s.buf = true → s.kvalid = true → s.getR c = 16 →
    s.getR b + 16 ≤ s.bufSize → s.getR a + 16 ≤ s.bufSize →
    ∃ (m : Memory) (x y : Block), exec (.aesEncb a b c) s = .next { s with buf := m, cc := s.cc + 1, busy := false } ∧
      (∀ j, j < 16 → nth x j = Memory.read s.buf (s.getR b + j)) ∧
      y = [1, 2, 3, 4, 5, 6, 7, 8, 9].foldl
        (fun z r => addRoundKey s.rk (mixColumns (shiftRows (subBytes z))) r) (addRoundKey s.rk x 0) ∧
      Stored s.buf m (s.getR a) (addRoundKey s.rk (shiftRows (subBytes y)) 10).toList

/-- Rules R233, R235, R55: `AES.SETCTR` reads the counter big-endian and needs no key; `AES.CLR` clears keys and
counter. -/
def Obligations.SetctrAndClr : Prop :=
  ∀ s : State,
    (∀ a b : RReg, s.getR b = 16 → s.getR a + 16 ≤ s.bufSize →
      ∃ v, exec (.aesSetctr a b) s = .next { s with ctr := v, cc := s.cc + 1, busy := false } ∧
        ∀ j, j < 16 → v.extractLsb' (8 * (15 - j)) 8 = Memory.read s.buf (s.getR a + j)) ∧
    exec .aesClr s = .next { s with
      rk := Vector.replicate 11 (Vector.replicate 16 0), ctr := 0, kvalid := false, cc := s.cc + 1, busy := false }

/-- Rules R234, R230, R61, R55: byte `j` of the output of `AES.CTRX` is byte `j` of the source as it was before, XOR byte
`j mod 16` of the encryption of the counter's value plus `j div 16`; the counter advances once for each started block,
modulo `2^128`. -/
def Obligations.CtrxXorsTheKeystream : Prop :=
  ∀ (s : State) (a b c : RReg), Memory.wf s.buf = true → s.kvalid = true →
    s.getR b + s.getR c ≤ s.bufSize → s.getR a + s.getR c ≤ s.bufSize →
    ∃ (m : Memory) (v : Counter) (out : List Byte),
      exec (.aesCtrx a b c) s = .next { s with buf := m, ctr := v, cc := s.cc + 1, busy := false } ∧
      v.toNat = (s.ctr.toNat + (s.getR c + 15) / 16) % 2 ^ 128 ∧ out.length = s.getR c ∧
      Stored s.buf m (s.getR a) out ∧
      ∀ (j : Nat) (x : Block), j < s.getR c →
        (∀ i, i < 16 → nth x i = (s.ctr + BitVec.ofNat 128 (j / 16)).extractLsb' (8 * (15 - i)) 8) →
        byteAt out j = Memory.read s.buf (s.getR b + j) ^^^ nth (encryptBlock s.rk x) (j % 16)

/-- Rule R234, "CTR involution": the command applied twice in place, from the same counter, restores the data. -/
def Obligations.CtrxTwiceInPlaceRestoresTheData : Prop :=
  ∀ (s : State) (a c : RReg), Memory.wf s.buf = true → s.kvalid = true → s.getR a + s.getR c ≤ s.bufSize →
    ∃ t u, exec (.aesCtrx a a c) s = .next t ∧ exec (.aesCtrx a a c) { t with ctr := s.ctr } = .next u ∧
      u.buf = s.buf ∧ u.ctr = t.ctr

/-- Rules R234, R315: a stream split after a multiple of 16 bytes equals the one-command result. Two `AES.CTRX` over
adjacent ranges, the first of a length that is a multiple of 16, give the state of one over both, but for the count of
commands, when no byte the first stores is one the second reads; and the same of the keystream alone. -/
def Obligations.StreamSplitsAtBlockBoundaries : Prop :=
  (∀ (s : State) (a b c d e f g : RReg), Memory.wf s.buf = true → s.kvalid = true → s.getR c % 16 = 0 →
    s.getR d = s.getR a + s.getR c → s.getR e = s.getR b + s.getR c → s.getR g = s.getR c + s.getR f →
    s.getR a + s.getR g ≤ s.bufSize → s.getR b + s.getR g ≤ s.bufSize →
    (∀ x, s.getR a ≤ x → x < s.getR d → x < s.getR e ∨ s.getR b + s.getR g ≤ x) →
    ∃ t, exec (.aesCtrx a b g) s = .next t ∧
      execAll [.aesCtrx a b c, .aesCtrx d e f] s = .next { t with cc := s.cc + 2 }) ∧
  ∀ (rk : RoundKeys) (ctr : Counter) (x y : List Byte), x.length % 16 = 0 →
    ctrStream rk ctr (x ++ y) =
      ((ctrStream rk ctr x).1 ++ (ctrStream rk (ctrStream rk ctr x).2 y).1, (ctrStream rk (ctrStream rk ctr x).2 y).2)
end

