-- ==== Sys2Proof/Laws/Bytes.lean ====
section
/-! SUPPORT. What the array and byte-string helpers of Machine/Bytes.lean give: entries, lengths, and the two byte
orders there and back. -/

namespace Sys2Proof.Machine

/-! ### Arrays -/

@[simp] theorem toList_vecOf {α : Type} (n : Nat) (f : Nat → α) : (vecOf n f).toList = (List.range n).map f := by
  simp [vecOf, Vector.toList]

@[simp] theorem getElem_vecOf {α : Type} (n : Nat) (f : Nat → α) (i : Nat) (h : i < n) : (vecOf n f)[i] = f i := by
  simp [vecOf]

theorem nth_eq_getElem {w n : Nat} (v : Vector (BitVec w) n) (i : Nat) (h : i < n) : nth v i = v[i] := by
  simp [nth, List.getD_eq_getElem?_getD, h]

@[simp] theorem nth_vecOf {w n : Nat} (f : Nat → BitVec w) (i : Nat) (h : i < n) : nth (vecOf n f) i = f i := by
  simp [nth_eq_getElem _ _ h]

/-- Two arrays with the same entries are the same array. -/
theorem vec_ext_nth {w n : Nat} {u v : Vector (BitVec w) n} (h : ∀ i, i < n → nth u i = nth v i) : u = v := by
  ext i hi
  rw [← nth_eq_getElem u i hi, ← nth_eq_getElem v i hi, h i hi]

@[simp] theorem nth_replicate {w n : Nat} (x : BitVec w) (i : Nat) (h : i < n) : nth (Vector.replicate n x) i = x := by
  simp [nth_eq_getElem _ _ h]

theorem byteAt_eq_getElem (bs : List Byte) (i : Nat) (h : i < bs.length) : byteAt bs i = bs[i] := by
  simp [byteAt, List.getD_eq_getElem?_getD, h]

/-! ### Lengths -/

@[simp] theorem length_beBytes (n v : Nat) : (beBytes n v).length = n := by simp [beBytes]

@[simp] theorem length_laneBytes (v : Lane) : (laneBytes v).length = 8 := by simp [laneBytes]

@[simp] theorem length_bytesOfWide (v : Wide) : (bytesOfWide v).length = 32 := by simp [bytesOfWide]

@[simp] theorem length_digest (A : Lanes) : (digest A).length = 32 := by simp [digest]

@[simp] theorem length_keccak256 (bs : List Byte) : (keccak256 bs).length = 32 := by simp [keccak256]

@[simp] theorem length_lanesBytes (A : Lanes) : (lanesBytes A).length = 200 := by
  have h : ∀ l : List Lane, (l.flatMap laneBytes).length = 8 * l.length := by
    intro l
    induction l with
    | nil => rfl
    | cons a l ih => simp [ih]; omega
  simp [lanesBytes, h]

@[simp] theorem length_uncompressed (p : Point) : (uncompressed p).length = 65 := by
  simp only [uncompressed, List.length_cons, List.length_append, length_bytesOfWide]

@[simp] theorem length_keystream (rk : RoundKeys) (ctr : Counter) : (keystream rk ctr).length = 16 :=
  Vector.length_toList

/-! ### Big-endian numbers -/

theorem foldl_be (bs : List Byte) (acc : Nat) :
    bs.foldl (fun acc b => acc * 256 + b.toNat) acc = acc * 256 ^ bs.length + beNat bs := by
  induction bs generalizing acc with
  | nil => show acc = acc * 256 ^ 0 + 0; omega
  | cons b bs ih =>
    rw [List.foldl_cons, ih, show beNat (b :: bs) = List.foldl (fun acc b => acc * 256 + b.toNat) (0 * 256 + b.toNat) bs from rfl,
      ih, List.length_cons, pow_succ]
    ring

@[simp] theorem beNat_nil : beNat [] = 0 := rfl

theorem beNat_cons (b : Byte) (bs : List Byte) : beNat (b :: bs) = b.toNat * 256 ^ bs.length + beNat bs := by
  rw [beNat, List.foldl_cons, foldl_be]; simp

theorem beNat_append (as bs : List Byte) : beNat (as ++ bs) = beNat as * 256 ^ bs.length + beNat bs := by
  rw [beNat, List.foldl_append, foldl_be]; rfl

theorem beNat_lt (bs : List Byte) : beNat bs < 256 ^ bs.length := by
  induction bs with
  | nil => simp
  | cons b bs ih =>
    have := b.isLt
    rw [beNat_cons, List.length_cons, pow_succ]
    nlinarith

theorem beBytes_succ (n v : Nat) : beBytes (n + 1) v = BitVec.ofNat 8 (v >>> (8 * n)) :: beBytes n v := by
  simp only [beBytes, List.range_succ_eq_map, List.map_cons, List.map_map, List.cons.injEq]
  refine ⟨by simp, List.map_congr_left fun i hi => ?_⟩
  simp only [Function.comp_apply]
  congr 3
  omega

/-- `be_n` undoes `bytes_be_n` (00_scope.md rule R13). -/
theorem beNat_beBytes (n v : Nat) : beNat (beBytes n v) = v % 256 ^ n := by
  induction n with
  | zero => simp [beBytes, Nat.mod_one]
  | succ n ih =>
    rw [beBytes_succ, beNat_cons, ih, length_beBytes, BitVec.toNat_ofNat, Nat.shiftRight_eq_div_pow,
      show 2 ^ (8 * n) = 256 ^ n by rw [pow_mul]; rfl, show (2 : Nat) ^ 8 = 256 from rfl, pow_succ,
      Nat.mod_mul, Nat.add_comm, Nat.mul_comm]

/-- `bytes_be_n` undoes `be_n` (00_scope.md rule R13). -/
theorem beBytes_beNat (bs : List Byte) : beBytes bs.length (beNat bs) = bs := by
  induction bs with
  | nil => rfl
  | cons b bs ih =>
    have hlt := beNat_lt bs
    rw [List.length_cons, beBytes_succ]
    congr 1
    · apply BitVec.eq_of_toNat_eq
      rw [BitVec.toNat_ofNat, Nat.shiftRight_eq_div_pow, show 2 ^ (8 * bs.length) = 256 ^ bs.length by rw [pow_mul]; rfl,
        beNat_cons, Nat.mul_comm, Nat.mul_add_div (by positivity), Nat.div_eq_of_lt hlt]
      have := b.isLt
      omega
    · calc beBytes bs.length (beNat (b :: bs)) = beBytes bs.length (beNat bs) := by
            rw [beNat_cons]
            unfold beBytes
            refine List.map_congr_left fun i hi => ?_
            have hi' := List.mem_range.1 hi
            apply BitVec.eq_of_toNat_eq
            simp only [BitVec.toNat_ofNat, Nat.shiftRight_eq_div_pow]
            obtain ⟨d, hd⟩ : ∃ d, bs.length = (bs.length - 1 - i) + 1 + d := ⟨i, by omega⟩
            have e : b.toNat * 256 ^ bs.length =
                2 ^ (8 * (bs.length - 1 - i)) * (256 * (256 ^ d * b.toNat)) := by
              conv_lhs => rw [hd]
              rw [pow_add, pow_succ, pow_mul]; ring
            rw [e, Nat.mul_add_div (by positivity)]
            omega
        _ = bs := ih

/-- A 32-byte string goes through a `W` register unchanged (20_memory.md rule R53). -/
theorem bytesOfWide_wideOfBytes (bs : List Byte) (h : bs.length = 32) : bytesOfWide (wideOfBytes bs) = bs := by
  have hlt := beNat_lt bs
  rw [h] at hlt
  unfold bytesOfWide wideOfBytes
  rw [BitVec.toNat_ofNat, Nat.mod_eq_of_lt (by simpa using hlt), ← h, beBytes_beNat]

/-- A `W` register goes through its 32 bytes unchanged (20_memory.md rule R53). -/
theorem wideOfBytes_bytesOfWide (v : Wide) : wideOfBytes (bytesOfWide v) = v := by
  unfold bytesOfWide wideOfBytes
  rw [beNat_beBytes, show (256 : Nat) ^ 32 = 2 ^ 256 from by norm_num, Nat.mod_eq_of_lt v.isLt]
  simp

end Sys2Proof.Machine
end

