-- ==== Sys2Proof/Laws/Memory.lean ====
section
/-! SUPPORT. The laws of `BUF`: reading after writing, and that every memory operation keeps the canonical form and the
bound on the listed offsets. -/

namespace Sys2Proof.Machine

/-! ### The canonical form -/

theorem Memory.wfFrom_cons {lo k : Nat} {v : Byte} {m : Memory} :
    Memory.wfFrom lo ((k, v) :: m) = true ↔ lo ≤ k ∧ v ≠ Memory.blank ∧ Memory.wfFrom (k + 1) m = true := by
  simp [Memory.wfFrom, and_assoc]

theorem Memory.wfFrom_mono {lo lo' : Nat} {m : Memory} (h : lo ≤ lo') (hm : Memory.wfFrom lo' m = true) :
    Memory.wfFrom lo m = true := by
  cases m with
  | nil => rfl
  | cons c m => obtain ⟨k, v⟩ := c; rw [Memory.wfFrom_cons] at *; exact ⟨by omega, hm.2⟩

/-- Below its first offset a canonical memory is blank. -/
theorem Memory.read_below {lo : Nat} {m : Memory} (hm : Memory.wfFrom lo m = true) {a : Nat} (h : a < lo) :
    Memory.read m a = Memory.blank := by
  induction m generalizing lo with
  | nil => rfl
  | cons c m ih =>
    obtain ⟨k, v⟩ := c
    rw [Memory.wfFrom_cons] at hm
    rw [Memory.read, if_neg (by omega)]
    exact ih hm.2.2 (by omega)

theorem Memory.read_append_entry (a x : Nat) (b : Byte) (m : Memory) :
    Memory.read (Memory.entry a b ++ m) x =
      if b ≠ Memory.blank ∧ a = x then b else Memory.read m x := by
  unfold Memory.entry
  split <;> simp_all [Memory.read]

theorem Memory.wfFrom_append_entry {lo a : Nat} {b : Byte} {m : Memory} (h : lo ≤ a)
    (hm : Memory.wfFrom (a + 1) m = true) : Memory.wfFrom lo (Memory.entry a b ++ m) = true := by
  unfold Memory.entry
  split
  · exact Memory.wfFrom_mono (by omega) hm
  · exact Memory.wfFrom_cons.2 ⟨h, ‹_›, hm⟩

theorem Memory.wfFrom_write {lo : Nat} {m : Memory} (hm : Memory.wfFrom lo m = true) {a : Nat} (h : lo ≤ a) (b : Byte) :
    Memory.wfFrom lo (Memory.write m a b) = true := by
  induction m generalizing lo with
  | nil => simpa [Memory.write] using Memory.wfFrom_append_entry (m := []) (b := b) h rfl
  | cons c m ih =>
    obtain ⟨k, v⟩ := c
    have hc := Memory.wfFrom_cons.1 hm
    rw [Memory.write]
    split
    · exact Memory.wfFrom_append_entry h (Memory.wfFrom_cons.2 ⟨by omega, hc.2⟩)
    · split
      · subst_vars; exact Memory.wfFrom_append_entry h hc.2.2
      · exact Memory.wfFrom_cons.2 ⟨hc.1, hc.2.1, ih hc.2.2 (by omega)⟩

/-- Reading after writing one byte of a canonical memory. -/
theorem Memory.read_write_from {lo : Nat} {m : Memory} (hm : Memory.wfFrom lo m = true) {a : Nat} (h : lo ≤ a)
    (b : Byte) (x : Nat) : Memory.read (Memory.write m a b) x = if a = x then b else Memory.read m x := by
  induction m generalizing lo with
  | nil =>
    have := Memory.read_append_entry a x b []
    rw [List.append_nil] at this
    rw [Memory.write, this]
    by_cases hb : b = Memory.blank <;> by_cases hx : a = x <;> simp [hb, hx, Memory.read]
  | cons c m ih =>
    obtain ⟨k, v⟩ := c
    have hc := Memory.wfFrom_cons.1 hm
    rw [Memory.write]
    split
    · rw [Memory.read_append_entry]
      by_cases hx : a = x
      · subst hx
        rw [if_pos rfl]
        split
        · rfl
        · rw [Memory.read_below (Memory.wfFrom_cons.2 ⟨‹a < k›, hc.2⟩) (Nat.lt_succ_self a)]
          simp_all
      · simp [hx]
    · split
      · rename_i hak
        subst hak
        rw [Memory.read_append_entry]
        by_cases hx : a = x
        · subst hx
          rw [if_pos rfl]
          split
          · rfl
          · rw [Memory.read_below hc.2.2 (Nat.lt_succ_self a)]; simp_all
        · simp [hx, Memory.read]
      · rw [Memory.read, Memory.read, ih hc.2.2 (by omega)]
        by_cases hx : a = x
        · subst hx; rw [if_neg (by omega), if_pos rfl, if_pos rfl]
        · simp [hx]

/-- Writing one byte keeps the canonical form. -/
theorem Memory.write_wf {m : Memory} (hm : Memory.wf m = true) (a : Nat) (b : Byte) :
    Memory.wf (Memory.write m a b) = true := Memory.wfFrom_write hm (Nat.zero_le a) b

theorem Memory.read_write {m : Memory} (hm : Memory.wf m = true) (a : Nat) (b : Byte) (x : Nat) :
    Memory.read (Memory.write m a b) x = if a = x then b else Memory.read m x :=
  Memory.read_write_from hm (Nat.zero_le a) b x

/-- Writing a byte string keeps the canonical form. -/
theorem Memory.writeBytes_wf {m : Memory} (hm : Memory.wf m = true) (a : Nat) (bs : List Byte) :
    Memory.wf (Memory.writeBytes m a bs) = true := by
  induction bs generalizing m a with
  | nil => exact hm
  | cons b bs ih => exact ih (Memory.write_wf hm a b) (a + 1)

/-- Reading after writing a byte string of a canonical memory. -/
theorem Memory.read_writeBytes {m : Memory} (hm : Memory.wf m = true) (a : Nat) (bs : List Byte) (x : Nat) :
    Memory.read (Memory.writeBytes m a bs) x =
      if a ≤ x ∧ x < a + bs.length then byteAt bs (x - a) else Memory.read m x := by
  induction bs generalizing m a with
  | nil => rw [Memory.writeBytes, if_neg (by simp)]
  | cons b bs ih =>
    rw [Memory.writeBytes, ih (Memory.write_wf hm a b), Memory.read_write hm, List.length_cons]
    by_cases h1 : a = x
    · subst h1; rw [if_neg (by omega), if_pos rfl, if_pos (by omega)]; simp [byteAt]
    · by_cases h2 : a + 1 ≤ x ∧ x < a + 1 + bs.length
      · rw [if_pos h2, if_pos (by omega)]
        obtain ⟨d, rfl⟩ : ∃ d, x = a + 1 + d := ⟨x - (a + 1), by omega⟩
        simp [byteAt, show a + 1 + d - a = d + 1 by omega]
      · rw [if_neg h2, if_neg h1, if_neg (by omega)]

/-- What a write of a byte string does, in the words claims use. -/
theorem Memory.stored_writeBytes {m : Memory} (hm : Memory.wf m = true) (a : Nat) (bs : List Byte) :
    Stored m (Memory.writeBytes m a bs) a bs := by
  refine ⟨fun j hj => ?_, fun x hx => ?_⟩
  · rw [Memory.read_writeBytes hm, if_pos (by omega), Nat.add_sub_cancel_left]
  · rw [Memory.read_writeBytes hm, if_neg (by omega)]

/-- A canonical memory is determined by what it reads as. -/
theorem Memory.ext_from {lo : Nat} {m m' : Memory} (hm : Memory.wfFrom lo m = true) (hm' : Memory.wfFrom lo m' = true)
    (h : ∀ x, Memory.read m x = Memory.read m' x) : m = m' := by
  induction m generalizing lo m' with
  | nil =>
    cases m' with
    | nil => rfl
    | cons c m' =>
      obtain ⟨k, v⟩ := c
      have := h k
      rw [Memory.wfFrom_cons] at hm'
      rw [Memory.read, Memory.read, if_pos rfl] at this
      exact absurd this.symm hm'.2.1
  | cons c m ih =>
    obtain ⟨k, v⟩ := c
    have hc := Memory.wfFrom_cons.1 hm
    cases m' with
    | nil =>
      have := h k
      rw [Memory.read, Memory.read, if_pos rfl] at this
      exact absurd this hc.2.1
    | cons c' m' =>
      obtain ⟨k', v'⟩ := c'
      have hc' := Memory.wfFrom_cons.1 hm'
      have below : ∀ {a b : Nat} {u : Byte} {n : Memory}, a < b → Memory.wfFrom (b + 1) n = true →
          Memory.read ((b, u) :: n) a = Memory.blank := by
        intro a b u n hab hn
        rw [Memory.read, if_neg (by omega)]
        exact Memory.read_below hn (by omega)
      have hk : k = k' := by
        rcases Nat.lt_trichotomy k k' with hlt | heq | hlt
        · have := h k
          rw [below hlt hc'.2.2, Memory.read, if_pos rfl] at this
          exact absurd this hc.2.1
        · exact heq
        · have := h k'
          rw [below hlt hc.2.2, Memory.read, if_pos rfl] at this
          exact absurd this.symm hc'.2.1
      subst hk
      have hv : v = v' := by simpa [Memory.read] using h k
      subst hv
      congr 1
      refine ih hc.2.2 hc'.2.2 fun x => ?_
      by_cases hx : k = x
      · subst hx
        rw [Memory.read_below hc.2.2 (Nat.lt_succ_self _), Memory.read_below hc'.2.2 (Nat.lt_succ_self _)]
      · simpa [Memory.read, hx] using h x

/-- Equal reads make equal canonical memories: the form is one form. -/
theorem Memory.ext {m m' : Memory} (hm : Memory.wf m = true) (hm' : Memory.wf m' = true)
    (h : ∀ x, Memory.read m x = Memory.read m' x) : m = m' := Memory.ext_from hm hm' h

/-! ### The bound on listed offsets -/

theorem Memory.within_append_entry {a size : Nat} {b : Byte} {m : Memory} (h : a < size)
    (hm : Memory.within m size = true) : Memory.within (Memory.entry a b ++ m) size = true := by
  unfold Memory.entry Memory.within at *
  split <;> simp_all [List.all_eq_true]
  all_goals exact fun k v hk => hm k v hk

theorem Memory.write_within {m : Memory} {size : Nat} (hm : Memory.within m size = true) {a : Nat} (h : a < size)
    (b : Byte) : Memory.within (Memory.write m a b) size = true := by
  induction m with
  | nil => simpa [Memory.write] using Memory.within_append_entry (b := b) (m := []) h rfl
  | cons c m ih =>
    obtain ⟨k, v⟩ := c
    have hc : k < size ∧ Memory.within m size = true := by simpa [Memory.within] using hm
    rw [Memory.write]
    split
    · exact Memory.within_append_entry h hm
    · split
      · exact Memory.within_append_entry h hc.2
      · simpa [Memory.within] using And.intro hc.1 (by simpa [Memory.within] using ih hc.2)

/-- A write of a byte string inside the buffer keeps every listed offset inside it. -/
theorem Memory.writeBytes_within {m : Memory} {size : Nat} (hm : Memory.within m size = true) {a : Nat}
    (bs : List Byte) (h : a + bs.length ≤ size) : Memory.within (Memory.writeBytes m a bs) size = true := by
  induction bs generalizing m a with
  | nil => exact hm
  | cons b bs ih =>
    rw [List.length_cons] at h
    exact ih (Memory.write_within hm (by omega) b) (by omega)

/-! ### Reading byte strings -/

@[simp] theorem Memory.length_readBytes (m : Memory) (a n : Nat) : (Memory.readBytes m a n).length = n := by
  simp [Memory.readBytes]

theorem Memory.byteAt_readBytes (m : Memory) (a n i : Nat) (h : i < n) :
    byteAt (Memory.readBytes m a n) i = Memory.read m (a + i) := by
  rw [byteAt_eq_getElem _ _ (by simpa using h)]; simp [Memory.readBytes]

@[simp] theorem State.length_memRead (s : State) (a n : Nat) : (s.memRead a n).length = n :=
  Memory.length_readBytes _ _ _

theorem Memory.readBytes_append (m : Memory) (a n k : Nat) :
    Memory.readBytes m a (n + k) = Memory.readBytes m a n ++ Memory.readBytes m (a + n) k := by
  simp [Memory.readBytes, List.range_add, Function.comp_def, Nat.add_assoc]

/-- The bytes just written are the bytes read. -/
theorem Memory.readBytes_writeBytes {m : Memory} (hm : Memory.wf m = true) (a : Nat) (bs : List Byte) :
    Memory.readBytes (Memory.writeBytes m a bs) a bs.length = bs := by
  refine List.ext_getElem (by simp) fun i h1 h2 => ?_
  simp only [Memory.readBytes, List.getElem_map, List.getElem_range]
  rw [Memory.read_writeBytes hm, if_pos (by omega), Nat.add_sub_cancel_left, byteAt_eq_getElem]

/-- A string stored in two parts, one right after the other, is stored whole. -/
theorem Memory.writeBytes_append (m : Memory) (a : Nat) (bs cs : List Byte) :
    Memory.writeBytes m a (bs ++ cs) = Memory.writeBytes (Memory.writeBytes m a bs) (a + bs.length) cs := by
  induction bs generalizing m a with
  | nil => rfl
  | cons b bs ih =>
    rw [List.cons_append, Memory.writeBytes, ih, Memory.writeBytes, List.length_cons, Nat.add_assoc, Nat.add_comm 1]

/-- The memory after reset has the canonical form and lists nothing. -/
theorem Memory.wf_reset : Memory.wf State.reset.buf = true := rfl

end Sys2Proof.Machine
end

