-- ==== Sys2Proof/Laws/Data.lean ====
section
/-! SUPPORT. Registers, lanes and blocks as byte strings, byte by byte: what the conversions of Machine/Bytes.lean and
the byte-wise operations of the units do to one byte. -/

namespace Sys2Proof.Machine

/-! ### `W` registers as bytes -/

theorem bytesOfWide_eq (v : Wide) : bytesOfWide v = (List.range 32).map (wideByte v) := by
  unfold bytesOfWide beBytes
  refine List.map_congr_left fun i hi => ?_
  apply BitVec.eq_of_toNat_eq
  rw [wideByte, BitVec.extractLsb'_toNat, BitVec.toNat_ofNat, show 32 - 1 - i = 31 - i from rfl]

/-- Byte `j` of the register that holds a 32-byte string is byte `j` of the string. -/
theorem wideByte_wideOfBytes {bs : List Byte} (h : bs.length = 32) {j : Nat} (hj : j < 32) :
    wideByte (wideOfBytes bs) j = byteAt bs j := by
  have e : bytesOfWide (wideOfBytes bs) = bs := bytesOfWide_wideOfBytes bs h
  rw [bytesOfWide_eq] at e
  have : byteAt ((List.range 32).map (wideByte (wideOfBytes bs))) j = wideByte (wideOfBytes bs) j := by
    rw [byteAt_eq_getElem _ _ (by simpa using hj)]; simp
  rw [← this, e]

theorem toNat_wideOfBytes {bs : List Byte} (h : bs.length ≤ 32) : (wideOfBytes bs).toNat = beNat bs := by
  rw [wideOfBytes, BitVec.toNat_ofNat, Nat.mod_eq_of_lt]
  calc beNat bs < 256 ^ bs.length := beNat_lt bs
    _ ≤ 256 ^ 32 := Nat.pow_le_pow_right (by decide) h
    _ = 2 ^ 256 := by norm_num

/-! ### The Keccak state as bytes -/

theorem byte_laneBytes (v : Lane) {i : Nat} (hi : i < 8) : byteAt (laneBytes v) i = v.extractLsb' (8 * i) 8 := by
  rw [byteAt_eq_getElem _ _ (by simpa using hi)]; simp [laneBytes]

/-- Two lanes with the same bytes are the same lane. -/
theorem lane_ext {u v : Lane} (h : ∀ i, i < 8 → u.extractLsb' (8 * i) 8 = v.extractLsb' (8 * i) 8) : u = v := by
  apply BitVec.eq_of_getLsbD_eq
  intro k hk
  have := congrArg (fun b => b.getLsbD (k % 8)) (h (k / 8) (by omega))
  simpa [BitVec.getLsbD_extractLsb', show 8 * (k / 8) + k % 8 = k by omega, Nat.mod_lt] using this

/-- Two Keccak states with the same 200 bytes are the same state. -/
theorem lanes_ext {A B : Lanes} (h : ∀ j, j < 200 → stateByte A j = stateByte B j) : A = B := by
  refine vec_ext_nth fun i hi => lane_ext fun k hk => ?_
  have := h (8 * i + k) (by omega)
  simpa [stateByte, show (8 * i + k) / 8 = i by omega, show (8 * i + k) % 8 = k by omega] using this

theorem digest_eq (A : Lanes) : digest A = (List.range 32).map (stateByte A) := rfl

theorem flatMap_laneBytes_getD (l : List Lane) (j : Nat) (h : j < 8 * l.length) :
    (l.flatMap laneBytes).getD j 0 = (l.getD (j / 8) 0).extractLsb' (8 * (j % 8)) 8 := by
  induction l generalizing j with
  | nil => simp at h
  | cons v l ih =>
    rw [List.flatMap_cons]
    by_cases hj : j < 8
    · rw [List.getD_append _ _ _ _ (by simpa using hj), show j / 8 = 0 by omega, show j % 8 = j by omega]
      simpa [byteAt] using byte_laneBytes v hj
    · rw [List.getD_append_right _ _ _ _ (by simp; omega), length_laneBytes, ih _ (by rw [List.length_cons] at h; omega)]
      obtain ⟨d, rfl⟩ : ∃ d, j = d + 8 := ⟨j - 8, by omega⟩
      rw [show (d + 8 - 8) / 8 = d / 8 by omega, show (d + 8) / 8 = d / 8 + 1 by omega,
        show (d + 8 - 8) % 8 = (d + 8) % 8 by omega]
      rfl

/-- `K.STS` writes the 200 state bytes in order. -/
theorem lanesBytes_eq (A : Lanes) : lanesBytes A = (List.range 200).map (stateByte A) := by
  refine List.ext_getElem (by simp) fun j h1 h2 => ?_
  have hj : j < 200 := by simpa using h1
  have := flatMap_laneBytes_getD A.toList j (by simpa using hj)
  have e : (lanesBytes A)[j] = (lanesBytes A).getD j 0 := by
    rw [List.getD_eq_getElem?_getD, List.getElem?_eq_getElem h1, Option.getD_some]
  rw [List.getElem_map, List.getElem_range, stateByte, nth, ← this, e]
  rfl

theorem leLane_laneBytes (v : Lane) : leLane (laneBytes v) = v := by
  have h : (laneBytes v).reverse = beBytes 8 v.toNat := by
    refine List.ext_getElem (by simp) fun i h1 h2 => ?_
    have hi : i < 8 := by simpa using h1
    rw [List.getElem_reverse]
    simp only [laneBytes, beBytes, List.getElem_map, List.getElem_range, List.length_map, List.length_range]
    apply BitVec.eq_of_toNat_eq
    rw [BitVec.extractLsb'_toNat, BitVec.toNat_ofNat]
  rw [leLane, h, beNat_beBytes, show (256 : Nat) ^ 8 = 2 ^ 64 by norm_num, Nat.mod_eq_of_lt v.isLt]
  simp

/-- Eight bytes through a lane are unchanged. -/
theorem laneBytes_leLane (bs : List Byte) (h : bs.length = 8) : laneBytes (leLane bs) = bs := by
  have hl : beNat bs.reverse < 2 ^ 64 := by
    have := beNat_lt bs.reverse
    rw [List.length_reverse, h] at this
    calc beNat bs.reverse < 256 ^ 8 := this
      _ = 2 ^ 64 := by norm_num
  have e := beBytes_beNat bs.reverse
  rw [List.length_reverse, h] at e
  have e2 : (laneBytes (leLane bs)).reverse = beBytes 8 (beNat bs.reverse) := by
    refine List.ext_getElem (by simp) fun i h1 h2 => ?_
    have hi : i < 8 := by simpa using h1
    rw [List.getElem_reverse]
    simp only [laneBytes, beBytes, List.getElem_map, List.getElem_range, List.length_map, List.length_range]
    apply BitVec.eq_of_toNat_eq
    rw [BitVec.extractLsb'_toNat, BitVec.toNat_ofNat, leLane, BitVec.toNat_ofNat, Nat.mod_eq_of_lt hl]
  rw [e] at e2
  exact List.reverse_injective e2

/-- `K.LDS` reads the 200 state bytes in order. -/
theorem stateByte_lanesOfBytes {bs : List Byte} (h : bs.length = 200) {j : Nat} (hj : j < 200) :
    stateByte (lanesOfBytes bs) j = byteAt bs j := by
  have hlen : ((bs.drop (8 * (j / 8))).take 8).length = 8 := by simp; omega
  rw [stateByte, lanesOfBytes, nth_vecOf _ _ (by omega), ← byte_laneBytes _ (by omega), laneBytes_leLane _ hlen,
    byteAt_eq_getElem _ _ (by omega), byteAt_eq_getElem _ _ (by omega)]
  simp only [List.getElem_take, List.getElem_drop]
  congr 1
  omega

/-! ### The sponge, byte by byte -/

theorem extract_xor (u v : Lane) (i : Nat) :
    (u ^^^ v).extractLsb' i 8 = u.extractLsb' i 8 ^^^ v.extractLsb' i 8 := by
  ext k hk; simp [BitVec.getElem_extractLsb']

theorem extract_shifted_byte (v : Byte) {i k : Nat} (hi : i < 8) (hk : k < 8) :
    (v.setWidth 64 <<< (8 * i) : Lane).extractLsb' (8 * k) 8 = if k = i then v else 0 := by
  ext b hb
  rw [BitVec.getElem_extractLsb', BitVec.getLsbD_shiftLeft, BitVec.getLsbD_setWidth]
  by_cases h : k = i
  · subst h
    rw [if_pos rfl, Nat.add_sub_cancel_left]
    have h1 : 8 * k + b < 64 := by omega
    have h2 : b < 64 := by omega
    simp [h1, h2, BitVec.getLsbD_eq_getElem hb]
  · rw [if_neg h]
    by_cases hlt : 8 * k + b < 8 * i
    · simp [hlt]
    · have : 8 ≤ 8 * k + b - 8 * i := by omega
      simp [BitVec.getLsbD_of_ge v _ this]

theorem nth_xorLane (A : Lanes) (k : Nat) (v : Lane) {i : Nat} (hi : i < 25) :
    nth (xorLane A k v) i = if i = k then nth A i ^^^ v else nth A i := nth_vecOf _ _ hi

/-- XOR of a byte into the state changes that byte alone. -/
theorem stateByte_xorByte (A : Lanes) (pos : Nat) (v : Byte) {j : Nat} (hj : j < 200) :
    stateByte (xorByte A pos v) j = stateByte A j ^^^ if j = pos then v else 0 := by
  rw [stateByte, xorByte, nth_xorLane _ _ _ (by omega)]
  by_cases h : j / 8 = pos / 8
  · rw [if_pos h, extract_xor, extract_shifted_byte _ (by omega) (by omega), stateByte]
    have : (j % 8 = pos % 8) = (j = pos) := by apply propext; constructor <;> intro h2 <;> omega
    simp only [this]
  · rw [if_neg h, if_neg (by rintro rfl; exact h rfl), stateByte]; simp

theorem absorb_append (st : Sponge) (as bs : List Byte) : absorb st (as ++ bs) = absorb (absorb st as) bs :=
  List.foldl_append

theorem absorb_cons (st : Sponge) (b : Byte) (bs : List Byte) : absorb st (b :: bs) = absorb (absorbByte st b) bs := rfl

theorem absorbByte_pos (st : Sponge) (v : Byte) : (absorbByte st v).2.val = (st.2.val + 1) % 136 := by
  have := st.2.isLt
  unfold absorbByte
  split
  · rw [Nat.mod_eq_of_lt ‹_›]
  · rw [show st.2.val + 1 = 136 by omega]; rfl

/-- `KPOS` counts the bytes modulo 136 (rule R136). -/
theorem absorb_pos (st : Sponge) (bs : List Byte) : (absorb st bs).2.val = (st.2.val + bs.length) % 136 := by
  induction bs generalizing st with
  | nil => exact (Nat.mod_eq_of_lt st.2.isLt).symm
  | cons b bs ih => rw [absorb_cons, ih, absorbByte_pos, List.length_cons]; omega

/-- Bytes that do not fill the block are XORed in and nothing else happens (rule R129). -/
theorem stateByte_absorb_short (st : Sponge) (bs : List Byte) (h : st.2.val + bs.length < 136) {j : Nat} (hj : j < 200) :
    stateByte (absorb st bs).1 j =
      stateByte st.1 j ^^^ if st.2.val ≤ j ∧ j < st.2.val + bs.length then byteAt bs (j - st.2.val) else 0 := by
  induction bs generalizing st with
  | nil => rw [if_neg (by simp)]; simp [absorb]
  | cons b bs ih =>
    rw [List.length_cons] at h
    have hb : absorbByte st b = (xorByte st.1 st.2.val b, ⟨st.2.val + 1, by omega⟩) := dif_pos (by omega)
    rw [absorb_cons, hb, ih _ (by simp only; omega)]
    simp only [List.length_cons, stateByte_xorByte _ _ _ hj]
    by_cases h1 : j = st.2.val
    · subst h1
      rw [if_pos rfl, if_neg (by omega), if_pos (by omega), Nat.sub_self]
      simp [byteAt]
    · rw [if_neg h1]
      by_cases h2 : st.2.val + 1 ≤ j ∧ j < st.2.val + 1 + bs.length
      · rw [if_pos h2, if_pos (by omega), show j - st.2.val = (j - (st.2.val + 1)) + 1 by omega]
        simp [byteAt]
      · rw [if_neg h2, if_neg (by omega)]; simp

/-- The last byte of a block runs the permutation (rule R129). -/
theorem absorbByte_last (A : Lanes) (v : Byte) : absorbByte (A, 135) v = (keccakF (xorByte A 135 v), 0) := rfl

/-- The padding, byte by byte (rule R130). -/
theorem stateByte_padded (st : Sponge) {j : Nat} (hj : j < 200) :
    stateByte (padded st) j =
      stateByte st.1 j ^^^ (if j = st.2.val then 0x01 else 0) ^^^ (if j = 135 then 0x80 else 0) := by
  rw [padded, stateByte_xorByte _ _ _ hj, stateByte_xorByte _ _ _ hj]

/-- The rotation of rule R14 is the library's. -/
theorem rol64_eq (v : Lane) (n : Nat) : rol64 v n = v.rotateLeft n := by
  unfold rol64
  split
  · rename_i h
    ext i hi
    simp [BitVec.rotateLeft, BitVec.rotateLeftAux, h]
  · rename_i h
    simp [BitVec.rotateLeft, BitVec.rotateLeftAux]

end Sys2Proof.Machine
end

