-- ==== Sys2Proof/Laws/Cipher.lean ====
section
/-! SUPPORT. The key schedule word by word, and the counter-mode stream byte by byte. -/

namespace Sys2Proof.Machine

/-! ### Key schedule (43_aes128.md rule R224) -/

theorem growSchedule_length (n : Nat) (ws : List KeyWord) : (growSchedule n ws).length = ws.length + n := by
  induction n generalizing ws with
  | zero => rfl
  | succ n ih => rw [growSchedule, ih, List.length_append, List.length_singleton]; omega

/-- Growing a schedule keeps its words. -/
theorem wordAt_growSchedule_old (n : Nat) (ws : List KeyWord) {i : Nat} (h : i < ws.length) :
    wordAt (growSchedule n ws) i = wordAt ws i := by
  induction n generalizing ws with
  | zero => rfl
  | succ n ih =>
    rw [growSchedule, ih _ (by rw [List.length_append]; omega), wordAt, wordAt, List.getD_append _ _ _ _ h]

theorem growSchedule_add (m n : Nat) (ws : List KeyWord) :
    growSchedule (m + n) ws = growSchedule n (growSchedule m ws) := by
  induction m generalizing ws with
  | zero => rw [Nat.zero_add]; rfl
  | succ m ih => rw [Nat.succ_add, growSchedule, ih, growSchedule]

/-- The word of index `|ws| + m` of a grown schedule is the one the rule makes of the words before it. -/
theorem wordAt_growSchedule_new (m n : Nat) (ws : List KeyWord) (h : m < n) :
    wordAt (growSchedule n ws) (ws.length + m) = nextKeyWord (growSchedule m ws) := by
  obtain ⟨k, rfl⟩ : ∃ k, n = m + (k + 1) := ⟨n - m - 1, by omega⟩
  have hl := growSchedule_length m ws
  rw [growSchedule_add, growSchedule, wordAt_growSchedule_old _ _ (by rw [List.length_append, hl]; simp)]
  rw [wordAt, ← hl, List.getD_append_right _ _ _ _ (Nat.le_refl _), Nat.sub_self]
  rfl

@[simp] theorem length_keyWords (key : Block) : (keyWords key).length = 4 := by simp [keyWords]

/-- The first four words of the schedule are the key. -/
theorem wordAt_schedule_key (key : Block) {i j : Nat} (hi : i < 4) (hj : j < 4) :
    nth (wordAt (schedule key) i) j = nth key (4 * i + j) := by
  rw [schedule, wordAt_growSchedule_old _ _ (by simpa using hi), wordAt, List.getD_eq_getElem?_getD]
  simp [keyWords, hi, nth_vecOf _ _ hj]

/-- The recurrence of the schedule. -/
theorem wordAt_schedule_next (key : Block) {i : Nat} (h4 : 4 ≤ i) (h44 : i < 44) :
    wordAt (schedule key) i =
      vecOf 4 fun k => nth (wordAt (schedule key) (i - 4)) k ^^^
        nth (if i % 4 = 0 then scheduleCore (wordAt (schedule key) (i - 1)) (i / 4)
          else wordAt (schedule key) (i - 1)) k := by
  obtain ⟨m, rfl⟩ : ∃ m, i = 4 + m := ⟨i - 4, by omega⟩
  have hm : (growSchedule m (keyWords key)).length = 4 + m := by rw [growSchedule_length, length_keyWords]
  have hw : ∀ j, j < 4 + m → wordAt (growSchedule m (keyWords key)) j = wordAt (schedule key) j := by
    intro j hj
    have : schedule key = growSchedule (40 - m) (growSchedule m (keyWords key)) := by
      rw [← growSchedule_add, show m + (40 - m) = 40 by omega]; rfl
    rw [this]
    exact (wordAt_growSchedule_old (40 - m) _ (by omega)).symm
  have e := wordAt_growSchedule_new m 40 (keyWords key) (by omega)
  rw [length_keyWords] at e
  rw [schedule, e, nextKeyWord, hm]
  simp only [hw (4 + m - 1) (by omega), hw (4 + m - 4) (by omega)]
  rfl

theorem keyAt_keyExpand (key : Block) {r : Nat} (h : r < 11) : keyAt (keyExpand key) r = roundKeyOf (schedule key) r := by
  rw [keyAt, keyExpand, roundKeysOf, toList_vecOf, List.getD_eq_getElem?_getD]
  simp [h]

/-- Byte `j` of schedule word `i`, in the round key it belongs to (10_state.md rule R28). -/
theorem nth_keyAt_keyExpand (key : Block) {i j : Nat} (hi : i < 44) (hj : j < 4) :
    nth (keyAt (keyExpand key) (i / 4)) (4 * (i % 4) + j) = nth (wordAt (schedule key) i) j := by
  rw [keyAt_keyExpand _ (by omega), roundKeyOf, nth_vecOf _ _ (by omega), show 4 * (i / 4) + (4 * (i % 4) + j) / 4 = i by omega,
    show (4 * (i % 4) + j) % 4 = j by omega]

/-- Round key 0 is the key (rule R224). -/
theorem keyAt_keyExpand_zero (key : Block) : keyAt (keyExpand key) 0 = key := by
  refine vec_ext_nth fun j hj => ?_
  have h := nth_keyAt_keyExpand key (i := j / 4) (j := j % 4) (by omega) (by omega)
  rw [show j / 4 / 4 = 0 by omega, show 4 * (j / 4 % 4) + j % 4 = j by omega] at h
  rw [h, wordAt_schedule_key _ (by omega) (by omega), show 4 * (j / 4) + j % 4 = j by omega]

/-! ### Counter mode (43_aes128.md rule R230) -/

theorem length_ctrBlocks (rk : RoundKeys) (n : Nat) (ctr : Counter) (data : List Byte) (h : data.length ≤ 16 * n) :
    (ctrBlocks rk n ctr data).length = data.length := by
  induction n generalizing ctr data with
  | zero => simp_all [ctrBlocks]
  | succ n ih =>
    rw [ctrBlocks, List.length_append, ih _ _ (by rw [List.length_drop]; omega)]
    simp
    omega

/-- The stream is as long as the data. -/
theorem length_ctrStream (rk : RoundKeys) (ctr : Counter) (data : List Byte) :
    (ctrStream rk ctr data).1.length = data.length :=
  length_ctrBlocks _ _ _ _ (by rw [blocksOf]; omega)

theorem byteAt_keystream (rk : RoundKeys) (ctr : Counter) (j : Nat) :
    byteAt (keystream rk ctr) j = nth (encryptBlock rk (counterBlock ctr)) j := rfl

theorem byteAt_ctrBlocks (rk : RoundKeys) (n : Nat) (ctr : Counter) (data : List Byte) (h : data.length ≤ 16 * n)
    {j : Nat} (hj : j < data.length) :
    byteAt (ctrBlocks rk n ctr data) j =
      byteAt data j ^^^ nth (encryptBlock rk (counterBlock (ctr + BitVec.ofNat 128 (j / 16)))) (j % 16) := by
  induction n generalizing ctr data j with
  | zero => omega
  | succ n ih =>
    have hz : (List.zipWith (· ^^^ ·) (data.take 16) (keystream rk ctr)).length = min 16 data.length := by
      simp
    rw [ctrBlocks]
    by_cases h16 : j < 16
    · have hj1 : j < (List.zipWith (· ^^^ ·) (data.take 16) (keystream rk ctr)).length := by omega
      have e : byteAt (List.zipWith (· ^^^ ·) (data.take 16) (keystream rk ctr) ++
          ctrBlocks rk n (ctr + 1) (data.drop 16)) j =
          byteAt (List.zipWith (· ^^^ ·) (data.take 16) (keystream rk ctr)) j := by
        rw [byteAt, List.getD_append _ _ _ _ hj1]
        rfl
      rw [e, byteAt_eq_getElem _ _ hj1, List.getElem_zipWith, List.getElem_take, show j / 16 = 0 by omega,
        show j % 16 = j by omega, ← byteAt_keystream, byteAt_eq_getElem _ _ hj,
        byteAt_eq_getElem _ _ (by simpa using h16)]
      simp
    · have e : byteAt (List.zipWith (· ^^^ ·) (data.take 16) (keystream rk ctr) ++
          ctrBlocks rk n (ctr + 1) (data.drop 16)) j =
          byteAt (ctrBlocks rk n (ctr + 1) (data.drop 16)) (j - 16) := by
        rw [byteAt, List.getD_append_right _ _ _ _ (by omega), hz, show min 16 data.length = 16 by omega]
        rfl
      rw [e, ih _ _ (by rw [List.length_drop]; omega) (by rw [List.length_drop]; omega),
        show (j - 16) % 16 = j % 16 by omega]
      have e2 : byteAt (data.drop 16) (j - 16) = byteAt data j := by
        rw [byteAt_eq_getElem _ _ (by rw [List.length_drop]; omega), byteAt_eq_getElem _ _ hj, List.getElem_drop]
        congr 1
        omega
      have e3 : ctr + 1 + BitVec.ofNat 128 ((j - 16) / 16) = ctr + BitVec.ofNat 128 (j / 16) := by
        rw [BitVec.add_assoc, show (1 : Counter) = BitVec.ofNat 128 1 from rfl, ← BitVec.ofNat_add,
          show 1 + (j - 16) / 16 = j / 16 by omega]
      rw [e2, e3]

/-- Byte `j` of the stream (rule R230). -/
theorem byteAt_ctrStream (rk : RoundKeys) (ctr : Counter) (data : List Byte) {j : Nat} (hj : j < data.length) :
    byteAt (ctrStream rk ctr data).1 j =
      byteAt data j ^^^ nth (encryptBlock rk (counterBlock (ctr + BitVec.ofNat 128 (j / 16)))) (j % 16) :=
  byteAt_ctrBlocks _ _ _ _ (by rw [blocksOf]; omega) hj

/-- Two byte strings of one length with the same bytes are the same. -/
theorem bytes_ext {as bs : List Byte} (hl : as.length = bs.length) (h : ∀ j, j < as.length → byteAt as j = byteAt bs j) :
    as = bs := by
  refine List.ext_getElem hl fun j h1 h2 => ?_
  rw [← byteAt_eq_getElem as j h1, ← byteAt_eq_getElem bs j h2, h j h1]

/-- The counter block, byte by byte (20_memory.md rule R55). -/
theorem nth_counterBlock (ctr : Counter) {i : Nat} (hi : i < 16) :
    nth (counterBlock ctr) i = ctr.extractLsb' (8 * (15 - i)) 8 := by
  rw [counterBlock, blockOfBytes, nth_vecOf _ _ hi, byteAt_eq_getElem _ _ (by simpa using hi)]
  simp only [beBytes, List.getElem_map, List.getElem_range]
  apply BitVec.eq_of_toNat_eq
  rw [BitVec.extractLsb'_toNat, BitVec.toNat_ofNat, show 16 - 1 - i = 15 - i from rfl]

end Sys2Proof.Machine
end

