-- ==== Sys2Proof/Laws/Curve.lean ====
section
/-! SUPPORT. The field modulo `P`: square-and-multiply computes the power, `P` is prime, so the power of 42_secp256k1.md
rule R163 is the inverse; and the ranges of the field functions. -/

namespace Sys2Proof.Machine

/-! ### Powers -/

/-- Square-and-multiply is the power, when the fuel covers the exponent's bits. -/
theorem powMod_eq (m f b e : Nat) (h : e < 2 ^ f) : powMod m f b e = b ^ e % m := by
  induction f generalizing b e with
  | zero =>
    obtain rfl : e = 0 := by simpa using h
    rfl
  | succ f ih =>
    have h2 : e / 2 < 2 ^ f := by rw [pow_succ] at h; omega
    have key : (b * b % m) ^ (e / 2) % m = b ^ (2 * (e / 2)) % m := by
      rw [← Nat.pow_mod, pow_mul, pow_two]
    rw [powMod, ih _ _ h2, key]
    split
    · subst_vars; rfl
    · split
      · conv_rhs => rw [show e = 2 * (e / 2) + 1 by omega, pow_succ, Nat.mul_comm]
        rw [Nat.mul_mod, Nat.mod_mod, ← Nat.mul_mod]
      · conv_rhs => rw [show e = 2 * (e / 2) by omega]

/-! ### `P` is prime -/

/-- Pocklington's criterion with one prime factor `q` of `n − 1` above the square root of `n`. -/
theorem prime_of_pocklington {n q m a : Nat} (hq : q.Prime) (hn : n - 1 = q * m) (hbig : n < q * q) (h1 : 1 < n)
    (hpow : a ^ (n - 1) % n = 1) (hco : Nat.gcd (a ^ m % n + (n - 1)) n = 1) : n.Prime := by
  by_contra hnp
  have hr : (n.minFac).Prime := Nat.minFac_prime (by omega)
  have hle : n.minFac ^ 2 ≤ n := Nat.minFac_sq_le_self (by omega) hnp
  have hdvd : n.minFac ∣ n := Nat.minFac_dvd n
  generalize n.minFac = r at *
  have : Fact r.Prime := ⟨hr⟩
  have hcast : ∀ x y : Nat, x % n = y % n → (x : ZMod r) = y := fun x y h =>
    (ZMod.natCast_eq_natCast_iff x y r).2 (Nat.ModEq.of_dvd hdvd h)
  have hone : (a : ZMod r) ^ (n - 1) = 1 := by
    have := hcast (a ^ (n - 1)) 1 (by rw [hpow, Nat.mod_eq_of_lt h1])
    simpa using this
  have hm : ¬ orderOf (a : ZMod r) ∣ m := by
    intro hd
    have hp : (a : ZMod r) ^ m = 1 := orderOf_dvd_iff_pow_eq_one.1 hd
    have hz : ((a ^ m % n + (n - 1) : Nat) : ZMod r) = 0 := by
      have e1 : ((a ^ m % n : Nat) : ZMod r) = 1 := by
        rw [hcast (a ^ m % n) (a ^ m) (Nat.mod_mod _ _)]
        simpa using hp
      have e2 : ((n : Nat) : ZMod r) = 0 := (ZMod.natCast_eq_zero_iff n r).2 hdvd
      rw [Nat.cast_add, e1, Nat.cast_sub (by omega), e2]
      simp
    have : r ∣ 1 := hco ▸ Nat.dvd_gcd ((ZMod.natCast_eq_zero_iff _ r).1 hz) hdvd
    exact hr.one_lt.ne' (Nat.dvd_one.1 this)
  have hqd : q ∣ orderOf (a : ZMod r) := by
    by_contra hnd
    have hc : Nat.Coprime (orderOf (a : ZMod r)) q := ((Nat.Prime.coprime_iff_not_dvd hq).2 hnd).symm
    exact hm (hc.dvd_of_dvd_mul_left (hn ▸ orderOf_dvd_of_pow_eq_one hone))
  have hne : (a : ZMod r) ≠ 0 := by
    intro h0
    rw [h0, zero_pow (by omega)] at hone
    exact zero_ne_one hone
  have hlt : q ≤ r - 1 := Nat.le_of_dvd (by have := hr.one_lt; omega) (hqd.trans (ZMod.orderOf_dvd_card_sub_one hne))
  have : q < r := by have := hr.one_lt; omega
  nlinarith

/-- The largest prime factor of `primeQ − 1`. -/
def primeG : Nat := 255515944373312847190720520512484175977

/-- The largest prime factor of `P − 1`. -/
def primeQ : Nat := 205115282021455665897114700593932402728804164701536103180137503955397371

/-- A power in `ZMod n` is 1 exactly when square-and-multiply gives 1. -/
theorem pow_eq_one_iff {n a e : Nat} (hn : 1 < n) (he : e < 2 ^ 256) : ((a : ZMod n) ^ e = 1) ↔ powMod n 256 a e = 1 := by
  rw [powMod_eq _ _ _ _ he, ← Nat.cast_pow, ← Nat.cast_one, ZMod.natCast_eq_natCast_iff, Nat.ModEq,
    Nat.mod_eq_of_lt hn]

/-- Lucas' criterion with the prime factors of `n − 1` listed: `a` has the full order. -/
theorem prime_of_lucas {n : Nat} (a : Nat) (fs : List Nat) (hn : 1 < n) (hlt : n < 2 ^ 256) (hprod : n - 1 = fs.prod)
    (hfs : ∀ q ∈ fs, q.Prime) (h1 : powMod n 256 a (n - 1) = 1) (h2 : ∀ q ∈ fs, powMod n 256 a ((n - 1) / q) ≠ 1) :
    n.Prime := by
  refine lucas_primality n ((a : Nat) : ZMod n) ((pow_eq_one_iff hn (by omega)).2 h1) fun q hq hd => ?_
  rw [hprod] at hd
  obtain ⟨r, hr, hqr⟩ := (Prime.dvd_prod_iff hq.prime).1 hd
  obtain rfl := (Nat.prime_dvd_prime_iff_eq hq (hfs r hr)).1 hqr
  exact (pow_eq_one_iff hn ((Nat.div_le_self _ _).trans_lt (by omega))).not.2 (h2 q hr)

theorem primeG_prime : primeG.Prime :=
  prime_of_lucas 3 [2, 2, 2, 7, 7, 11, 1627, 2657, 4423, 41201, 96557, 7240687, 107590001] (by decide) (by decide)
    (by decide +kernel) (by simp only [List.forall_mem_cons]; norm_num) (by decide +kernel) (by decide +kernel)

theorem primeQ_prime : primeQ.Prime := by
  have h1 : powMod primeQ 256 2 (primeQ - 1) = 1 := by decide +kernel
  have h2 : Nat.gcd (powMod primeQ 256 2 802749442992798076634733441528810 + (primeQ - 1)) primeQ = 1 := by
    decide +kernel
  rw [powMod_eq _ _ _ _ (by decide)] at h1 h2
  exact prime_of_pocklington primeG_prime (by decide +kernel) (by decide) (by decide) h1 h2

/-- The field prime is prime (rule R160). -/
theorem primeP_prime : primeP.Prime := by
  have h1 : powMod primeP 256 2 (primeP - 1) = 1 := by decide +kernel
  have h2 : Nat.gcd (powMod primeP 256 2 564522 + (primeP - 1)) primeP = 1 := by decide +kernel
  rw [powMod_eq _ _ _ _ (by decide)] at h1 h2
  exact prime_of_pocklington primeQ_prime (by decide +kernel) (by decide) (by decide) h1 h2

/-! ### `N` is prime -/

theorem prime_297159362677 : Nat.Prime 297159362677 :=
  prime_of_lucas 2 [2, 2, 3, 3, 11, 461, 1627771] (by decide) (by decide) (by decide +kernel)
    (by simp only [List.forall_mem_cons]; norm_num) (by decide +kernel) (by decide +kernel)

theorem prime_545358713 : Nat.Prime 545358713 :=
  prime_of_lucas 5 [2, 2, 2, 41, 59, 28181] (by decide) (by decide) (by decide +kernel)
    (by simp only [List.forall_mem_cons]; norm_num) (by decide +kernel) (by decide +kernel)

/-- The largest prime factor of `primeL − 1`. -/
def primeK : Nat := 29047611873442575647497758179

/-- The three largest prime factors of `N − 1`. -/
def primeL : Nat := 341948486974166000522343609283189

@[inherit_doc primeL] def primeM : Nat := 174723607534414371449

@[inherit_doc primeL] def primeO : Nat := 107361793816595537

theorem primeK_prime : primeK.Prime :=
  prime_of_lucas 2 [2, 293, 305873, 545358713, 297159362677] (by decide) (by decide) (by decide +kernel)
    (by
      simp only [List.forall_mem_cons]
      exact ⟨by norm_num, by norm_num, by norm_num, prime_545358713, prime_297159362677, by simp⟩)
    (by decide +kernel) (by decide +kernel)

theorem primeL_prime : primeL.Prime :=
  prime_of_lucas 2 [2, 2, 3, 3, 3, 109, primeK] (by decide) (by decide) (by decide +kernel)
    (by
      simp only [List.forall_mem_cons]
      exact ⟨by norm_num, by norm_num, by norm_num, by norm_num, by norm_num, by norm_num, primeK_prime, by simp⟩)
    (by decide +kernel) (by decide +kernel)

theorem primeM_prime : primeM.Prime :=
  prime_of_lucas 3 [2, 2, 2, 17, 59, 4051, 120233, 44706919] (by decide) (by decide) (by decide +kernel)
    (by simp only [List.forall_mem_cons]; norm_num) (by decide +kernel) (by decide +kernel)

theorem primeO_prime : primeO.Prime :=
  prime_of_lucas 3 [2, 2, 2, 2, 16699, 85831, 4681609] (by decide) (by decide) (by decide +kernel)
    (by simp only [List.forall_mem_cons]; norm_num) (by decide +kernel) (by decide +kernel)

/-- The group order is prime (rule R160). -/
theorem orderN_prime : orderN.Prime :=
  prime_of_lucas 7 [2, 2, 2, 2, 2, 2, 3, 149, 631, primeO, primeM, primeL] (by decide) (by decide) (by decide +kernel)
    (by
      simp only [List.forall_mem_cons]
      refine ⟨?_, ?_, ?_, ?_, ?_, ?_, ?_, ?_, ?_, primeO_prime, primeM_prime, primeL_prime, by simp⟩ <;> norm_num)
    (by decide +kernel) (by decide +kernel)

/-! ### The field functions -/

theorem primeP_pos : 0 < primeP := by decide

theorem primeP_lt : primeP < 2 ^ 256 := by decide

theorem fadd_lt (a b : Nat) : fadd a b < primeP := Nat.mod_lt _ primeP_pos

theorem fsub_lt (a b : Nat) : fsub a b < primeP := by
  have h0 := Int.emod_nonneg ((a : Int) - b) (b := (primeP : Int)) (by decide)
  have h1 := Int.emod_lt_of_pos ((a : Int) - b) (b := (primeP : Int)) (by decide)
  rw [fsub]; omega

theorem fmul_lt (a b : Nat) : fmul a b < primeP := Nat.mod_lt _ primeP_pos

theorem fneg_lt (a : Nat) : fneg a < primeP := Nat.mod_lt _ primeP_pos

/-- The power of rule R163. -/
theorem finv_eq (a : Nat) : finv a = (a % primeP) ^ (primeP - 2) % primeP := powMod_eq _ _ _ _ (by decide)

theorem finv_lt (a : Nat) : finv a < primeP := by rw [finv_eq]; exact Nat.mod_lt _ primeP_pos

/-- The power of rule R163 is the inverse, for an argument that is not 0 modulo `P`. -/
theorem mul_finv {a : Nat} (h : a % primeP ≠ 0) : a * finv a % primeP = 1 := by
  have : Fact primeP.Prime := ⟨primeP_prime⟩
  have hne : ((a : Nat) : ZMod primeP) ≠ 0 := by
    rw [Ne, ZMod.natCast_eq_zero_iff]; exact fun hd => h (Nat.mod_eq_zero_of_dvd hd)
  have e : ((a * finv a : Nat) : ZMod primeP) = ((1 : Nat) : ZMod primeP) := by
    rw [finv_eq, Nat.cast_mul, ZMod.natCast_mod, Nat.cast_pow, ZMod.natCast_mod, ← pow_succ',
      show primeP - 2 + 1 = primeP - 1 from rfl, ZMod.pow_card_sub_one_eq_one hne, Nat.cast_one]
  rw [ZMod.natCast_eq_natCast_iff, Nat.ModEq] at e
  rw [e]; rfl

theorem fadd_int (a b : Nat) : ((fadd a b : Nat) : Int) = ((a : Int) + b) % primeP := by simp [fadd]

theorem fmul_int (a b : Nat) : ((fmul a b : Nat) : Int) = ((a : Int) * b) % primeP := by simp [fmul]

/-- The difference as an integer (rule R162). -/
theorem fsub_int (a b : Nat) : ((fsub a b : Nat) : Int) = ((a : Int) - b) % primeP := by
  rw [fsub, Int.toNat_of_nonneg (Int.emod_nonneg _ (by decide))]

/-- The negation as an integer (rule R162). -/
theorem fneg_int (a : Nat) : ((fneg a : Nat) : Int) = (-(a : Int)) % primeP := by
  have h : a % primeP ≤ primeP := (Nat.mod_lt _ primeP_pos).le
  have e : (primeP : Int) - (a : Int) % primeP = -(a : Int) + (primeP : Int) * ((a : Int) / primeP + 1) := by
    have := Int.emod_add_mul_ediv (a : Int) primeP
    linarith
  rw [fneg, Int.natCast_emod, Int.natCast_sub h, Int.natCast_emod, e, Int.add_mul_emod_self_left]

/-! ### Points -/

theorem toNat_ofNat_of_lt {v : Nat} (h : v < primeP) : (BitVec.ofNat 256 v).toNat = v := by
  rw [BitVec.toNat_ofNat, Nat.mod_eq_of_lt (h.trans primeP_lt)]

theorem finite_canonical {x y : Nat} (hx : x < primeP) (hy : y < primeP) : (Point.finite x y).canonical = true := by
  simp [Point.canonical, Point.finite, -BitVec.toNat_ofNat, toNat_ofNat_of_lt hx, toNat_ofNat_of_lt hy, hx, hy]

theorem infinity_canonical : Point.infinity.canonical = true := by decide

theorem generator_canonical : Point.generator.canonical = true := by decide

theorem pneg_canonical {p : Point} (h : p.canonical = true) : (pneg p).canonical = true := by
  unfold pneg
  split
  · exact infinity_canonical
  · have hx : p.x.toNat < primeP := by simp [Point.canonical] at h; exact h.1.1
    simp [Point.canonical, -BitVec.toNat_ofNat, toNat_ofNat_of_lt (fneg_lt _), hx, fneg_lt]

theorem chordPoint_canonical (lam x1 y1 x2 : Nat) : (chordPoint lam x1 y1 x2).canonical = true :=
  finite_canonical (fsub_lt _ _) (fsub_lt _ _)

theorem pdbl_canonical (p : Point) : (pdbl p).canonical = true := by
  unfold pdbl
  split
  · exact infinity_canonical
  · split
    · exact infinity_canonical
    · exact chordPoint_canonical _ _ _ _

theorem padd_canonical {p q : Point} (hp : p.canonical = true) (hq : q.canonical = true) :
    (padd p q).canonical = true := by
  unfold padd
  split
  · exact hq
  · split
    · exact hp
    · split
      · split
        · exact infinity_canonical
        · exact pdbl_canonical _
      · exact chordPoint_canonical _ _ _ _

theorem smulLoop_canonical (fuel k : Nat) {r a : Point} (hr : r.canonical = true) (ha : a.canonical = true) :
    (smulLoop fuel k r a).canonical = true := by
  induction fuel generalizing k r a with
  | zero => exact hr
  | succ fuel ih =>
    rw [smulLoop]
    split
    · exact hr
    · refine ih _ ?_ (pdbl_canonical _)
      split
      · exact padd_canonical hr ha
      · exact hr

theorem smul_canonical (k : Nat) {p : Point} (h : p.canonical = true) : (smul k p).canonical = true :=
  smulLoop_canonical _ _ infinity_canonical h

/-- The loop of rule R168 adds the selected doublings. -/
theorem smulLoop_eq (fuel k : Nat) (r a : Point) :
    smulLoop fuel k r a =
      (List.range fuel).foldl (fun acc i => if k.testBit i then padd acc (pdbl^[i] a) else acc) r := by
  induction fuel generalizing k r a with
  | zero => rfl
  | succ fuel ih =>
    rw [smulLoop]
    split
    · subst_vars
      have : ∀ l : List Nat, l.foldl (fun acc i => if Nat.testBit 0 i then padd acc (pdbl^[i] a) else acc) r = r := by
        intro l
        induction l with
        | nil => rfl
        | cons i l ih => rw [List.foldl_cons, Nat.zero_testBit, if_neg (by decide)]; exact ih
      rw [this]
    · rw [ih, List.range_succ_eq_map, List.foldl_cons, List.foldl_map]
      have h0 : k.testBit 0 = decide (k % 2 = 1) := Nat.testBit_zero k
      have hs : ∀ i, k.testBit (i + 1) = (k / 2).testBit i := fun i => Nat.testBit_succ k i
      simp only [h0, hs, Nat.succ_eq_add_one, Function.iterate_succ_apply, Function.iterate_zero, id_eq,
        decide_eq_true_eq]

/-- `smul` is the sum of the selected doublings (rule R168). -/
theorem smul_eq (k : Nat) (p : Point) : smul k p = scalarTimes k p := smulLoop_eq _ _ _ _

end Sys2Proof.Machine
end

