-- ==== Sys2Proof/Laws/State.lean ====
section
/-! SUPPORT. What each named update of the state does to each field and to what is read of it: one lemma per field per
update, true by rfl, so that no later proof unfolds a record update. -/

namespace Sys2Proof.Machine

variable (s : State)

/-! ### setR -/

@[simp] theorem State.setR_r (a : RReg) (v : Half) : (s.setR a v).r = s.r.set a v := rfl
@[simp] theorem State.setR_w (a : RReg) (v : Half) : (s.setR a v).w = s.w := rfl
@[simp] theorem State.setR_q (a : RReg) (v : Half) : (s.setR a v).q = s.q := rfl
@[simp] theorem State.setR_ks (a : RReg) (v : Half) : (s.setR a v).ks = s.ks := rfl
@[simp] theorem State.setR_kpos (a : RReg) (v : Half) : (s.setR a v).kpos = s.kpos := rfl
@[simp] theorem State.setR_kfin (a : RReg) (v : Half) : (s.setR a v).kfin = s.kfin := rfl
@[simp] theorem State.setR_rk (a : RReg) (v : Half) : (s.setR a v).rk = s.rk := rfl
@[simp] theorem State.setR_kvalid (a : RReg) (v : Half) : (s.setR a v).kvalid = s.kvalid := rfl
@[simp] theorem State.setR_ctr (a : RReg) (v : Half) : (s.setR a v).ctr = s.ctr := rfl
@[simp] theorem State.setR_pinf (a : RReg) (v : Half) : (s.setR a v).pinf = s.pinf := rfl
@[simp] theorem State.setR_err (a : RReg) (v : Half) : (s.setR a v).err = s.err := rfl
@[simp] theorem State.setR_errcode (a : RReg) (v : Half) : (s.setR a v).errcode = s.errcode := rfl
@[simp] theorem State.setR_errcmd (a : RReg) (v : Half) : (s.setR a v).errcmd = s.errcmd := rfl
@[simp] theorem State.setR_cc (a : RReg) (v : Half) : (s.setR a v).cc = s.cc := rfl
@[simp] theorem State.setR_buf (a : RReg) (v : Half) : (s.setR a v).buf = s.buf := rfl
@[simp] theorem State.setR_cfg (a : RReg) (v : Half) : (s.setR a v).cfg = s.cfg := rfl
@[simp] theorem State.setR_cmd (a : RReg) (v : Half) : (s.setR a v).cmd = s.cmd := rfl
@[simp] theorem State.setR_busy (a : RReg) (v : Half) : (s.setR a v).busy = s.busy := rfl
@[simp] theorem State.setR_host (a : RReg) (v : Half) : (s.setR a v).host = s.host := rfl
@[simp] theorem State.setR_draws (a : RReg) (v : Half) : (s.setR a v).draws = s.draws := rfl
@[simp] theorem State.setR_replies (a : RReg) (v : Half) : (s.setR a v).replies = s.replies := rfl
@[simp] theorem State.setR_getW (a : RReg) (v : Half) (b : WReg) : (s.setR a v).getW b = s.getW b := rfl
@[simp] theorem State.setR_getQ (a : RReg) (v : Half) (b : QReg) : (s.setR a v).getQ b = s.getQ b := rfl
@[simp] theorem State.setR_bufSize (a : RReg) (v : Half) : (s.setR a v).bufSize = s.bufSize := rfl
@[simp] theorem State.setR_inRange (a : RReg) (v : Half) (o n : Nat) : (s.setR a v).inRange o n = s.inRange o n := rfl
@[simp] theorem State.setR_memRead (a : RReg) (v : Half) (o n : Nat) : (s.setR a v).memRead o n = s.memRead o n := rfl

/-! ### setW -/

@[simp] theorem State.setW_r (a : WReg) (v : Wide) : (s.setW a v).r = s.r := rfl
@[simp] theorem State.setW_w (a : WReg) (v : Wide) : (s.setW a v).w = s.w.set a v := rfl
@[simp] theorem State.setW_q (a : WReg) (v : Wide) : (s.setW a v).q = s.q := rfl
@[simp] theorem State.setW_ks (a : WReg) (v : Wide) : (s.setW a v).ks = s.ks := rfl
@[simp] theorem State.setW_kpos (a : WReg) (v : Wide) : (s.setW a v).kpos = s.kpos := rfl
@[simp] theorem State.setW_kfin (a : WReg) (v : Wide) : (s.setW a v).kfin = s.kfin := rfl
@[simp] theorem State.setW_rk (a : WReg) (v : Wide) : (s.setW a v).rk = s.rk := rfl
@[simp] theorem State.setW_kvalid (a : WReg) (v : Wide) : (s.setW a v).kvalid = s.kvalid := rfl
@[simp] theorem State.setW_ctr (a : WReg) (v : Wide) : (s.setW a v).ctr = s.ctr := rfl
@[simp] theorem State.setW_pinf (a : WReg) (v : Wide) : (s.setW a v).pinf = s.pinf := rfl
@[simp] theorem State.setW_err (a : WReg) (v : Wide) : (s.setW a v).err = s.err := rfl
@[simp] theorem State.setW_errcode (a : WReg) (v : Wide) : (s.setW a v).errcode = s.errcode := rfl
@[simp] theorem State.setW_errcmd (a : WReg) (v : Wide) : (s.setW a v).errcmd = s.errcmd := rfl
@[simp] theorem State.setW_cc (a : WReg) (v : Wide) : (s.setW a v).cc = s.cc := rfl
@[simp] theorem State.setW_buf (a : WReg) (v : Wide) : (s.setW a v).buf = s.buf := rfl
@[simp] theorem State.setW_cfg (a : WReg) (v : Wide) : (s.setW a v).cfg = s.cfg := rfl
@[simp] theorem State.setW_cmd (a : WReg) (v : Wide) : (s.setW a v).cmd = s.cmd := rfl
@[simp] theorem State.setW_busy (a : WReg) (v : Wide) : (s.setW a v).busy = s.busy := rfl
@[simp] theorem State.setW_host (a : WReg) (v : Wide) : (s.setW a v).host = s.host := rfl
@[simp] theorem State.setW_draws (a : WReg) (v : Wide) : (s.setW a v).draws = s.draws := rfl
@[simp] theorem State.setW_replies (a : WReg) (v : Wide) : (s.setW a v).replies = s.replies := rfl
@[simp] theorem State.setW_getR (a : WReg) (v : Wide) (b : RReg) : (s.setW a v).getR b = s.getR b := rfl
@[simp] theorem State.setW_getQ (a : WReg) (v : Wide) (b : QReg) : (s.setW a v).getQ b = s.getQ b := rfl
@[simp] theorem State.setW_bufSize (a : WReg) (v : Wide) : (s.setW a v).bufSize = s.bufSize := rfl
@[simp] theorem State.setW_inRange (a : WReg) (v : Wide) (o n : Nat) : (s.setW a v).inRange o n = s.inRange o n := rfl
@[simp] theorem State.setW_memRead (a : WReg) (v : Wide) (o n : Nat) : (s.setW a v).memRead o n = s.memRead o n := rfl

/-! ### setQ -/

@[simp] theorem State.setQ_r (a : QReg) (p : Point) : (s.setQ a p).r = s.r := rfl
@[simp] theorem State.setQ_w (a : QReg) (p : Point) : (s.setQ a p).w = s.w := rfl
@[simp] theorem State.setQ_q (a : QReg) (p : Point) : (s.setQ a p).q = s.q.set a p := rfl
@[simp] theorem State.setQ_ks (a : QReg) (p : Point) : (s.setQ a p).ks = s.ks := rfl
@[simp] theorem State.setQ_kpos (a : QReg) (p : Point) : (s.setQ a p).kpos = s.kpos := rfl
@[simp] theorem State.setQ_kfin (a : QReg) (p : Point) : (s.setQ a p).kfin = s.kfin := rfl
@[simp] theorem State.setQ_rk (a : QReg) (p : Point) : (s.setQ a p).rk = s.rk := rfl
@[simp] theorem State.setQ_kvalid (a : QReg) (p : Point) : (s.setQ a p).kvalid = s.kvalid := rfl
@[simp] theorem State.setQ_ctr (a : QReg) (p : Point) : (s.setQ a p).ctr = s.ctr := rfl
@[simp] theorem State.setQ_pinf (a : QReg) (p : Point) : (s.setQ a p).pinf = s.pinf := rfl
@[simp] theorem State.setQ_err (a : QReg) (p : Point) : (s.setQ a p).err = s.err := rfl
@[simp] theorem State.setQ_errcode (a : QReg) (p : Point) : (s.setQ a p).errcode = s.errcode := rfl
@[simp] theorem State.setQ_errcmd (a : QReg) (p : Point) : (s.setQ a p).errcmd = s.errcmd := rfl
@[simp] theorem State.setQ_cc (a : QReg) (p : Point) : (s.setQ a p).cc = s.cc := rfl
@[simp] theorem State.setQ_buf (a : QReg) (p : Point) : (s.setQ a p).buf = s.buf := rfl
@[simp] theorem State.setQ_cfg (a : QReg) (p : Point) : (s.setQ a p).cfg = s.cfg := rfl
@[simp] theorem State.setQ_cmd (a : QReg) (p : Point) : (s.setQ a p).cmd = s.cmd := rfl
@[simp] theorem State.setQ_busy (a : QReg) (p : Point) : (s.setQ a p).busy = s.busy := rfl
@[simp] theorem State.setQ_host (a : QReg) (p : Point) : (s.setQ a p).host = s.host := rfl
@[simp] theorem State.setQ_draws (a : QReg) (p : Point) : (s.setQ a p).draws = s.draws := rfl
@[simp] theorem State.setQ_replies (a : QReg) (p : Point) : (s.setQ a p).replies = s.replies := rfl
@[simp] theorem State.setQ_getR (a : QReg) (p : Point) (b : RReg) : (s.setQ a p).getR b = s.getR b := rfl
@[simp] theorem State.setQ_getW (a : QReg) (p : Point) (b : WReg) : (s.setQ a p).getW b = s.getW b := rfl
@[simp] theorem State.setQ_bufSize (a : QReg) (p : Point) : (s.setQ a p).bufSize = s.bufSize := rfl
@[simp] theorem State.setQ_inRange (a : QReg) (p : Point) (o n : Nat) : (s.setQ a p).inRange o n = s.inRange o n := rfl
@[simp] theorem State.setQ_memRead (a : QReg) (p : Point) (o n : Nat) : (s.setQ a p).memRead o n = s.memRead o n := rfl

/-! ### setPoint -/

@[simp] theorem State.setPoint_r (a : QReg) (p : Point) : (s.setPoint a p).r = s.r := rfl
@[simp] theorem State.setPoint_w (a : QReg) (p : Point) : (s.setPoint a p).w = s.w := rfl
@[simp] theorem State.setPoint_q (a : QReg) (p : Point) : (s.setPoint a p).q = s.q.set a p := rfl
@[simp] theorem State.setPoint_ks (a : QReg) (p : Point) : (s.setPoint a p).ks = s.ks := rfl
@[simp] theorem State.setPoint_kpos (a : QReg) (p : Point) : (s.setPoint a p).kpos = s.kpos := rfl
@[simp] theorem State.setPoint_kfin (a : QReg) (p : Point) : (s.setPoint a p).kfin = s.kfin := rfl
@[simp] theorem State.setPoint_rk (a : QReg) (p : Point) : (s.setPoint a p).rk = s.rk := rfl
@[simp] theorem State.setPoint_kvalid (a : QReg) (p : Point) : (s.setPoint a p).kvalid = s.kvalid := rfl
@[simp] theorem State.setPoint_ctr (a : QReg) (p : Point) : (s.setPoint a p).ctr = s.ctr := rfl
@[simp] theorem State.setPoint_pinf (a : QReg) (p : Point) : (s.setPoint a p).pinf = p.inf := rfl
@[simp] theorem State.setPoint_err (a : QReg) (p : Point) : (s.setPoint a p).err = s.err := rfl
@[simp] theorem State.setPoint_errcode (a : QReg) (p : Point) : (s.setPoint a p).errcode = s.errcode := rfl
@[simp] theorem State.setPoint_errcmd (a : QReg) (p : Point) : (s.setPoint a p).errcmd = s.errcmd := rfl
@[simp] theorem State.setPoint_cc (a : QReg) (p : Point) : (s.setPoint a p).cc = s.cc := rfl
@[simp] theorem State.setPoint_buf (a : QReg) (p : Point) : (s.setPoint a p).buf = s.buf := rfl
@[simp] theorem State.setPoint_cfg (a : QReg) (p : Point) : (s.setPoint a p).cfg = s.cfg := rfl
@[simp] theorem State.setPoint_cmd (a : QReg) (p : Point) : (s.setPoint a p).cmd = s.cmd := rfl
@[simp] theorem State.setPoint_busy (a : QReg) (p : Point) : (s.setPoint a p).busy = s.busy := rfl
@[simp] theorem State.setPoint_host (a : QReg) (p : Point) : (s.setPoint a p).host = s.host := rfl
@[simp] theorem State.setPoint_draws (a : QReg) (p : Point) : (s.setPoint a p).draws = s.draws := rfl
@[simp] theorem State.setPoint_replies (a : QReg) (p : Point) : (s.setPoint a p).replies = s.replies := rfl
@[simp] theorem State.setPoint_getR (a : QReg) (p : Point) (b : RReg) : (s.setPoint a p).getR b = s.getR b := rfl
@[simp] theorem State.setPoint_getW (a : QReg) (p : Point) (b : WReg) : (s.setPoint a p).getW b = s.getW b := rfl
@[simp] theorem State.setPoint_bufSize (a : QReg) (p : Point) : (s.setPoint a p).bufSize = s.bufSize := rfl
@[simp] theorem State.setPoint_inRange (a : QReg) (p : Point) (o n : Nat) : (s.setPoint a p).inRange o n = s.inRange o n := rfl
@[simp] theorem State.setPoint_memRead (a : QReg) (p : Point) (o n : Nat) : (s.setPoint a p).memRead o n = s.memRead o n := rfl

/-! ### memWrite -/

@[simp] theorem State.memWrite_r (off : Nat) (bs : List Byte) : (s.memWrite off bs).r = s.r := rfl
@[simp] theorem State.memWrite_w (off : Nat) (bs : List Byte) : (s.memWrite off bs).w = s.w := rfl
@[simp] theorem State.memWrite_q (off : Nat) (bs : List Byte) : (s.memWrite off bs).q = s.q := rfl
@[simp] theorem State.memWrite_ks (off : Nat) (bs : List Byte) : (s.memWrite off bs).ks = s.ks := rfl
@[simp] theorem State.memWrite_kpos (off : Nat) (bs : List Byte) : (s.memWrite off bs).kpos = s.kpos := rfl
@[simp] theorem State.memWrite_kfin (off : Nat) (bs : List Byte) : (s.memWrite off bs).kfin = s.kfin := rfl
@[simp] theorem State.memWrite_rk (off : Nat) (bs : List Byte) : (s.memWrite off bs).rk = s.rk := rfl
@[simp] theorem State.memWrite_kvalid (off : Nat) (bs : List Byte) : (s.memWrite off bs).kvalid = s.kvalid := rfl
@[simp] theorem State.memWrite_ctr (off : Nat) (bs : List Byte) : (s.memWrite off bs).ctr = s.ctr := rfl
@[simp] theorem State.memWrite_pinf (off : Nat) (bs : List Byte) : (s.memWrite off bs).pinf = s.pinf := rfl
@[simp] theorem State.memWrite_err (off : Nat) (bs : List Byte) : (s.memWrite off bs).err = s.err := rfl
@[simp] theorem State.memWrite_errcode (off : Nat) (bs : List Byte) : (s.memWrite off bs).errcode = s.errcode := rfl
@[simp] theorem State.memWrite_errcmd (off : Nat) (bs : List Byte) : (s.memWrite off bs).errcmd = s.errcmd := rfl
@[simp] theorem State.memWrite_cc (off : Nat) (bs : List Byte) : (s.memWrite off bs).cc = s.cc := rfl
@[simp] theorem State.memWrite_buf (off : Nat) (bs : List Byte) : (s.memWrite off bs).buf = Memory.writeBytes s.buf off bs := rfl
@[simp] theorem State.memWrite_cfg (off : Nat) (bs : List Byte) : (s.memWrite off bs).cfg = s.cfg := rfl
@[simp] theorem State.memWrite_cmd (off : Nat) (bs : List Byte) : (s.memWrite off bs).cmd = s.cmd := rfl
@[simp] theorem State.memWrite_busy (off : Nat) (bs : List Byte) : (s.memWrite off bs).busy = s.busy := rfl
@[simp] theorem State.memWrite_host (off : Nat) (bs : List Byte) : (s.memWrite off bs).host = s.host := rfl
@[simp] theorem State.memWrite_draws (off : Nat) (bs : List Byte) : (s.memWrite off bs).draws = s.draws := rfl
@[simp] theorem State.memWrite_replies (off : Nat) (bs : List Byte) : (s.memWrite off bs).replies = s.replies := rfl
@[simp] theorem State.memWrite_getR (off : Nat) (bs : List Byte) (b : RReg) : (s.memWrite off bs).getR b = s.getR b := rfl
@[simp] theorem State.memWrite_getW (off : Nat) (bs : List Byte) (b : WReg) : (s.memWrite off bs).getW b = s.getW b := rfl
@[simp] theorem State.memWrite_getQ (off : Nat) (bs : List Byte) (b : QReg) : (s.memWrite off bs).getQ b = s.getQ b := rfl
@[simp] theorem State.memWrite_bufSize (off : Nat) (bs : List Byte) : (s.memWrite off bs).bufSize = s.bufSize := rfl
@[simp] theorem State.memWrite_inRange (off : Nat) (bs : List Byte) (o n : Nat) : (s.memWrite off bs).inRange o n = s.inRange o n := rfl

/-! ### setSponge -/

@[simp] theorem State.setSponge_r (st : Sponge) : (s.setSponge st).r = s.r := rfl
@[simp] theorem State.setSponge_w (st : Sponge) : (s.setSponge st).w = s.w := rfl
@[simp] theorem State.setSponge_q (st : Sponge) : (s.setSponge st).q = s.q := rfl
@[simp] theorem State.setSponge_ks (st : Sponge) : (s.setSponge st).ks = st.1 := rfl
@[simp] theorem State.setSponge_kpos (st : Sponge) : (s.setSponge st).kpos = st.2 := rfl
@[simp] theorem State.setSponge_kfin (st : Sponge) : (s.setSponge st).kfin = s.kfin := rfl
@[simp] theorem State.setSponge_rk (st : Sponge) : (s.setSponge st).rk = s.rk := rfl
@[simp] theorem State.setSponge_kvalid (st : Sponge) : (s.setSponge st).kvalid = s.kvalid := rfl
@[simp] theorem State.setSponge_ctr (st : Sponge) : (s.setSponge st).ctr = s.ctr := rfl
@[simp] theorem State.setSponge_pinf (st : Sponge) : (s.setSponge st).pinf = s.pinf := rfl
@[simp] theorem State.setSponge_err (st : Sponge) : (s.setSponge st).err = s.err := rfl
@[simp] theorem State.setSponge_errcode (st : Sponge) : (s.setSponge st).errcode = s.errcode := rfl
@[simp] theorem State.setSponge_errcmd (st : Sponge) : (s.setSponge st).errcmd = s.errcmd := rfl
@[simp] theorem State.setSponge_cc (st : Sponge) : (s.setSponge st).cc = s.cc := rfl
@[simp] theorem State.setSponge_buf (st : Sponge) : (s.setSponge st).buf = s.buf := rfl
@[simp] theorem State.setSponge_cfg (st : Sponge) : (s.setSponge st).cfg = s.cfg := rfl
@[simp] theorem State.setSponge_cmd (st : Sponge) : (s.setSponge st).cmd = s.cmd := rfl
@[simp] theorem State.setSponge_busy (st : Sponge) : (s.setSponge st).busy = s.busy := rfl
@[simp] theorem State.setSponge_host (st : Sponge) : (s.setSponge st).host = s.host := rfl
@[simp] theorem State.setSponge_draws (st : Sponge) : (s.setSponge st).draws = s.draws := rfl
@[simp] theorem State.setSponge_replies (st : Sponge) : (s.setSponge st).replies = s.replies := rfl
@[simp] theorem State.setSponge_getR (st : Sponge) (b : RReg) : (s.setSponge st).getR b = s.getR b := rfl
@[simp] theorem State.setSponge_getW (st : Sponge) (b : WReg) : (s.setSponge st).getW b = s.getW b := rfl
@[simp] theorem State.setSponge_getQ (st : Sponge) (b : QReg) : (s.setSponge st).getQ b = s.getQ b := rfl
@[simp] theorem State.setSponge_bufSize (st : Sponge) : (s.setSponge st).bufSize = s.bufSize := rfl
@[simp] theorem State.setSponge_inRange (st : Sponge) (o n : Nat) : (s.setSponge st).inRange o n = s.inRange o n := rfl
@[simp] theorem State.setSponge_memRead (st : Sponge) (o n : Nat) : (s.setSponge st).memRead o n = s.memRead o n := rfl

/-! ### hashed -/

@[simp] theorem State.hashed_r (bs : List Byte) : (s.hashed bs).r = s.r := rfl
@[simp] theorem State.hashed_w (bs : List Byte) : (s.hashed bs).w = s.w := rfl
@[simp] theorem State.hashed_q (bs : List Byte) : (s.hashed bs).q = s.q := rfl
@[simp] theorem State.hashed_ks (bs : List Byte) : (s.hashed bs).ks = hashState bs := rfl
@[simp] theorem State.hashed_kpos (bs : List Byte) : (s.hashed bs).kpos = 0 := rfl
@[simp] theorem State.hashed_kfin (bs : List Byte) : (s.hashed bs).kfin = true := rfl
@[simp] theorem State.hashed_rk (bs : List Byte) : (s.hashed bs).rk = s.rk := rfl
@[simp] theorem State.hashed_kvalid (bs : List Byte) : (s.hashed bs).kvalid = s.kvalid := rfl
@[simp] theorem State.hashed_ctr (bs : List Byte) : (s.hashed bs).ctr = s.ctr := rfl
@[simp] theorem State.hashed_pinf (bs : List Byte) : (s.hashed bs).pinf = s.pinf := rfl
@[simp] theorem State.hashed_err (bs : List Byte) : (s.hashed bs).err = s.err := rfl
@[simp] theorem State.hashed_errcode (bs : List Byte) : (s.hashed bs).errcode = s.errcode := rfl
@[simp] theorem State.hashed_errcmd (bs : List Byte) : (s.hashed bs).errcmd = s.errcmd := rfl
@[simp] theorem State.hashed_cc (bs : List Byte) : (s.hashed bs).cc = s.cc := rfl
@[simp] theorem State.hashed_buf (bs : List Byte) : (s.hashed bs).buf = s.buf := rfl
@[simp] theorem State.hashed_cfg (bs : List Byte) : (s.hashed bs).cfg = s.cfg := rfl
@[simp] theorem State.hashed_cmd (bs : List Byte) : (s.hashed bs).cmd = s.cmd := rfl
@[simp] theorem State.hashed_busy (bs : List Byte) : (s.hashed bs).busy = s.busy := rfl
@[simp] theorem State.hashed_host (bs : List Byte) : (s.hashed bs).host = s.host := rfl
@[simp] theorem State.hashed_draws (bs : List Byte) : (s.hashed bs).draws = s.draws := rfl
@[simp] theorem State.hashed_replies (bs : List Byte) : (s.hashed bs).replies = s.replies := rfl
@[simp] theorem State.hashed_getR (bs : List Byte) (b : RReg) : (s.hashed bs).getR b = s.getR b := rfl
@[simp] theorem State.hashed_getW (bs : List Byte) (b : WReg) : (s.hashed bs).getW b = s.getW b := rfl
@[simp] theorem State.hashed_getQ (bs : List Byte) (b : QReg) : (s.hashed bs).getQ b = s.getQ b := rfl
@[simp] theorem State.hashed_bufSize (bs : List Byte) : (s.hashed bs).bufSize = s.bufSize := rfl
@[simp] theorem State.hashed_inRange (bs : List Byte) (o n : Nat) : (s.hashed bs).inRange o n = s.inRange o n := rfl
@[simp] theorem State.hashed_memRead (bs : List Byte) (o n : Nat) : (s.hashed bs).memRead o n = s.memRead o n := rfl

/-! ### completed -/

@[simp] theorem State.completed_r : (s.completed).r = s.r := rfl
@[simp] theorem State.completed_w : (s.completed).w = s.w := rfl
@[simp] theorem State.completed_q : (s.completed).q = s.q := rfl
@[simp] theorem State.completed_ks : (s.completed).ks = s.ks := rfl
@[simp] theorem State.completed_kpos : (s.completed).kpos = s.kpos := rfl
@[simp] theorem State.completed_kfin : (s.completed).kfin = s.kfin := rfl
@[simp] theorem State.completed_rk : (s.completed).rk = s.rk := rfl
@[simp] theorem State.completed_kvalid : (s.completed).kvalid = s.kvalid := rfl
@[simp] theorem State.completed_ctr : (s.completed).ctr = s.ctr := rfl
@[simp] theorem State.completed_pinf : (s.completed).pinf = s.pinf := rfl
@[simp] theorem State.completed_err : (s.completed).err = s.err := rfl
@[simp] theorem State.completed_errcode : (s.completed).errcode = s.errcode := rfl
@[simp] theorem State.completed_errcmd : (s.completed).errcmd = s.errcmd := rfl
@[simp] theorem State.completed_cc : (s.completed).cc = s.cc + 1 := rfl
@[simp] theorem State.completed_buf : (s.completed).buf = s.buf := rfl
@[simp] theorem State.completed_cfg : (s.completed).cfg = s.cfg := rfl
@[simp] theorem State.completed_cmd : (s.completed).cmd = s.cmd := rfl
@[simp] theorem State.completed_busy : (s.completed).busy = false := rfl
@[simp] theorem State.completed_host : (s.completed).host = s.host := rfl
@[simp] theorem State.completed_draws : (s.completed).draws = s.draws := rfl
@[simp] theorem State.completed_replies : (s.completed).replies = s.replies := rfl
@[simp] theorem State.completed_getR (b : RReg) : (s.completed).getR b = s.getR b := rfl
@[simp] theorem State.completed_getW (b : WReg) : (s.completed).getW b = s.getW b := rfl
@[simp] theorem State.completed_getQ (b : QReg) : (s.completed).getQ b = s.getQ b := rfl
@[simp] theorem State.completed_bufSize : (s.completed).bufSize = s.bufSize := rfl
@[simp] theorem State.completed_inRange (o n : Nat) : (s.completed).inRange o n = s.inRange o n := rfl
@[simp] theorem State.completed_memRead (o n : Nat) : (s.completed).memRead o n = s.memRead o n := rfl

/-! ### takeFault -/

@[simp] theorem State.takeFault_r (k : FaultKind) : (State.takeFault k s).r = s.r := rfl
@[simp] theorem State.takeFault_w (k : FaultKind) : (State.takeFault k s).w = s.w := rfl
@[simp] theorem State.takeFault_q (k : FaultKind) : (State.takeFault k s).q = s.q := rfl
@[simp] theorem State.takeFault_ks (k : FaultKind) : (State.takeFault k s).ks = s.ks := rfl
@[simp] theorem State.takeFault_kpos (k : FaultKind) : (State.takeFault k s).kpos = s.kpos := rfl
@[simp] theorem State.takeFault_kfin (k : FaultKind) : (State.takeFault k s).kfin = s.kfin := rfl
@[simp] theorem State.takeFault_rk (k : FaultKind) : (State.takeFault k s).rk = s.rk := rfl
@[simp] theorem State.takeFault_kvalid (k : FaultKind) : (State.takeFault k s).kvalid = s.kvalid := rfl
@[simp] theorem State.takeFault_ctr (k : FaultKind) : (State.takeFault k s).ctr = s.ctr := rfl
@[simp] theorem State.takeFault_pinf (k : FaultKind) : (State.takeFault k s).pinf = s.pinf := rfl
@[simp] theorem State.takeFault_err (k : FaultKind) : (State.takeFault k s).err = true := rfl
@[simp] theorem State.takeFault_errcode (k : FaultKind) : (State.takeFault k s).errcode = k.code := rfl
@[simp] theorem State.takeFault_errcmd (k : FaultKind) : (State.takeFault k s).errcmd = s.cmd := rfl
@[simp] theorem State.takeFault_cc (k : FaultKind) : (State.takeFault k s).cc = s.cc := rfl
@[simp] theorem State.takeFault_buf (k : FaultKind) : (State.takeFault k s).buf = s.buf := rfl
@[simp] theorem State.takeFault_cfg (k : FaultKind) : (State.takeFault k s).cfg = s.cfg := rfl
@[simp] theorem State.takeFault_cmd (k : FaultKind) : (State.takeFault k s).cmd = s.cmd := rfl
@[simp] theorem State.takeFault_busy (k : FaultKind) : (State.takeFault k s).busy = false := rfl
@[simp] theorem State.takeFault_host (k : FaultKind) : (State.takeFault k s).host = s.host := rfl
@[simp] theorem State.takeFault_draws (k : FaultKind) : (State.takeFault k s).draws = s.draws := rfl
@[simp] theorem State.takeFault_replies (k : FaultKind) : (State.takeFault k s).replies = s.replies := rfl
@[simp] theorem State.takeFault_getR (k : FaultKind) (b : RReg) : (State.takeFault k s).getR b = s.getR b := rfl
@[simp] theorem State.takeFault_getW (k : FaultKind) (b : WReg) : (State.takeFault k s).getW b = s.getW b := rfl
@[simp] theorem State.takeFault_getQ (k : FaultKind) (b : QReg) : (State.takeFault k s).getQ b = s.getQ b := rfl
@[simp] theorem State.takeFault_bufSize (k : FaultKind) : (State.takeFault k s).bufSize = s.bufSize := rfl
@[simp] theorem State.takeFault_inRange (k : FaultKind) (o n : Nat) : (State.takeFault k s).inRange o n = s.inRange o n := rfl
@[simp] theorem State.takeFault_memRead (k : FaultKind) (o n : Nat) : (State.takeFault k s).memRead o n = s.memRead o n := rfl

/-! ### ackFault -/

@[simp] theorem State.ackFault_r : (s.ackFault).r = s.r := rfl
@[simp] theorem State.ackFault_w : (s.ackFault).w = s.w := rfl
@[simp] theorem State.ackFault_q : (s.ackFault).q = s.q := rfl
@[simp] theorem State.ackFault_ks : (s.ackFault).ks = s.ks := rfl
@[simp] theorem State.ackFault_kpos : (s.ackFault).kpos = s.kpos := rfl
@[simp] theorem State.ackFault_kfin : (s.ackFault).kfin = s.kfin := rfl
@[simp] theorem State.ackFault_rk : (s.ackFault).rk = s.rk := rfl
@[simp] theorem State.ackFault_kvalid : (s.ackFault).kvalid = s.kvalid := rfl
@[simp] theorem State.ackFault_ctr : (s.ackFault).ctr = s.ctr := rfl
@[simp] theorem State.ackFault_pinf : (s.ackFault).pinf = s.pinf := rfl
@[simp] theorem State.ackFault_err : (s.ackFault).err = false := rfl
@[simp] theorem State.ackFault_errcode : (s.ackFault).errcode = 0 := rfl
@[simp] theorem State.ackFault_errcmd : (s.ackFault).errcmd = 0 := rfl
@[simp] theorem State.ackFault_cc : (s.ackFault).cc = s.cc := rfl
@[simp] theorem State.ackFault_buf : (s.ackFault).buf = s.buf := rfl
@[simp] theorem State.ackFault_cfg : (s.ackFault).cfg = s.cfg := rfl
@[simp] theorem State.ackFault_cmd : (s.ackFault).cmd = s.cmd := rfl
@[simp] theorem State.ackFault_busy : (s.ackFault).busy = s.busy := rfl
@[simp] theorem State.ackFault_host : (s.ackFault).host = s.host := rfl
@[simp] theorem State.ackFault_draws : (s.ackFault).draws = s.draws := rfl
@[simp] theorem State.ackFault_replies : (s.ackFault).replies = s.replies := rfl
@[simp] theorem State.ackFault_getR (b : RReg) : (s.ackFault).getR b = s.getR b := rfl
@[simp] theorem State.ackFault_getW (b : WReg) : (s.ackFault).getW b = s.getW b := rfl
@[simp] theorem State.ackFault_getQ (b : QReg) : (s.ackFault).getQ b = s.getQ b := rfl
@[simp] theorem State.ackFault_bufSize : (s.ackFault).bufSize = s.bufSize := rfl
@[simp] theorem State.ackFault_inRange (o n : Nat) : (s.ackFault).inRange o n = s.inRange o n := rfl
@[simp] theorem State.ackFault_memRead (o n : Nat) : (s.ackFault).memRead o n = s.memRead o n := rfl

/-! ### answer -/

@[simp] theorem State.answer_r (x : HostReply) : (s.answer x).r = s.r := rfl
@[simp] theorem State.answer_w (x : HostReply) : (s.answer x).w = s.w := rfl
@[simp] theorem State.answer_q (x : HostReply) : (s.answer x).q = s.q := rfl
@[simp] theorem State.answer_ks (x : HostReply) : (s.answer x).ks = s.ks := rfl
@[simp] theorem State.answer_kpos (x : HostReply) : (s.answer x).kpos = s.kpos := rfl
@[simp] theorem State.answer_kfin (x : HostReply) : (s.answer x).kfin = s.kfin := rfl
@[simp] theorem State.answer_rk (x : HostReply) : (s.answer x).rk = s.rk := rfl
@[simp] theorem State.answer_kvalid (x : HostReply) : (s.answer x).kvalid = s.kvalid := rfl
@[simp] theorem State.answer_ctr (x : HostReply) : (s.answer x).ctr = s.ctr := rfl
@[simp] theorem State.answer_pinf (x : HostReply) : (s.answer x).pinf = s.pinf := rfl
@[simp] theorem State.answer_err (x : HostReply) : (s.answer x).err = s.err := rfl
@[simp] theorem State.answer_errcode (x : HostReply) : (s.answer x).errcode = s.errcode := rfl
@[simp] theorem State.answer_errcmd (x : HostReply) : (s.answer x).errcmd = s.errcmd := rfl
@[simp] theorem State.answer_cc (x : HostReply) : (s.answer x).cc = s.cc := rfl
@[simp] theorem State.answer_buf (x : HostReply) : (s.answer x).buf = s.buf := rfl
@[simp] theorem State.answer_cfg (x : HostReply) : (s.answer x).cfg = s.cfg := rfl
@[simp] theorem State.answer_cmd (x : HostReply) : (s.answer x).cmd = s.cmd := rfl
@[simp] theorem State.answer_busy (x : HostReply) : (s.answer x).busy = s.busy := rfl
@[simp] theorem State.answer_host (x : HostReply) : (s.answer x).host = s.host := rfl
@[simp] theorem State.answer_draws (x : HostReply) : (s.answer x).draws = s.draws := rfl
@[simp] theorem State.answer_replies (x : HostReply) : (s.answer x).replies = s.replies ++ [x] := rfl
@[simp] theorem State.answer_getR (x : HostReply) (b : RReg) : (s.answer x).getR b = s.getR b := rfl
@[simp] theorem State.answer_getW (x : HostReply) (b : WReg) : (s.answer x).getW b = s.getW b := rfl
@[simp] theorem State.answer_getQ (x : HostReply) (b : QReg) : (s.answer x).getQ b = s.getQ b := rfl
@[simp] theorem State.answer_bufSize (x : HostReply) : (s.answer x).bufSize = s.bufSize := rfl
@[simp] theorem State.answer_inRange (x : HostReply) (o n : Nat) : (s.answer x).inRange o n = s.inRange o n := rfl
@[simp] theorem State.answer_memRead (x : HostReply) (o n : Nat) : (s.answer x).memRead o n = s.memRead o n := rfl

/-! ### present -/

@[simp] theorem State.present_r (c : Word) : (s.present c).r = s.r := rfl
@[simp] theorem State.present_w (c : Word) : (s.present c).w = s.w := rfl
@[simp] theorem State.present_q (c : Word) : (s.present c).q = s.q := rfl
@[simp] theorem State.present_ks (c : Word) : (s.present c).ks = s.ks := rfl
@[simp] theorem State.present_kpos (c : Word) : (s.present c).kpos = s.kpos := rfl
@[simp] theorem State.present_kfin (c : Word) : (s.present c).kfin = s.kfin := rfl
@[simp] theorem State.present_rk (c : Word) : (s.present c).rk = s.rk := rfl
@[simp] theorem State.present_kvalid (c : Word) : (s.present c).kvalid = s.kvalid := rfl
@[simp] theorem State.present_ctr (c : Word) : (s.present c).ctr = s.ctr := rfl
@[simp] theorem State.present_pinf (c : Word) : (s.present c).pinf = s.pinf := rfl
@[simp] theorem State.present_err (c : Word) : (s.present c).err = s.err := rfl
@[simp] theorem State.present_errcode (c : Word) : (s.present c).errcode = s.errcode := rfl
@[simp] theorem State.present_errcmd (c : Word) : (s.present c).errcmd = s.errcmd := rfl
@[simp] theorem State.present_cc (c : Word) : (s.present c).cc = s.cc := rfl
@[simp] theorem State.present_buf (c : Word) : (s.present c).buf = s.buf := rfl
@[simp] theorem State.present_cfg (c : Word) : (s.present c).cfg = s.cfg := rfl
@[simp] theorem State.present_cmd (c : Word) : (s.present c).cmd = s.cmd := rfl
@[simp] theorem State.present_busy (c : Word) : (s.present c).busy = false := rfl
@[simp] theorem State.present_host (c : Word) : (s.present c).host = .command c :: s.host := rfl
@[simp] theorem State.present_draws (c : Word) : (s.present c).draws = s.draws := rfl
@[simp] theorem State.present_replies (c : Word) : (s.present c).replies = s.replies := rfl
@[simp] theorem State.present_getR (c : Word) (b : RReg) : (s.present c).getR b = s.getR b := rfl
@[simp] theorem State.present_getW (c : Word) (b : WReg) : (s.present c).getW b = s.getW b := rfl
@[simp] theorem State.present_getQ (c : Word) (b : QReg) : (s.present c).getQ b = s.getQ b := rfl
@[simp] theorem State.present_bufSize (c : Word) : (s.present c).bufSize = s.bufSize := rfl
@[simp] theorem State.present_inRange (c : Word) (o n : Nat) : (s.present c).inRange o n = s.inRange o n := rfl
@[simp] theorem State.present_memRead (c : Word) (o n : Nat) : (s.present c).memRead o n = s.memRead o n := rfl

/-! ### resetEngine -/

@[simp] theorem State.resetEngine_r : s.resetEngine.r = State.reset.r := rfl
@[simp] theorem State.resetEngine_w : s.resetEngine.w = State.reset.w := rfl
@[simp] theorem State.resetEngine_q : s.resetEngine.q = State.reset.q := rfl
@[simp] theorem State.resetEngine_ks : s.resetEngine.ks = State.reset.ks := rfl
@[simp] theorem State.resetEngine_kpos : s.resetEngine.kpos = State.reset.kpos := rfl
@[simp] theorem State.resetEngine_kfin : s.resetEngine.kfin = State.reset.kfin := rfl
@[simp] theorem State.resetEngine_rk : s.resetEngine.rk = State.reset.rk := rfl
@[simp] theorem State.resetEngine_kvalid : s.resetEngine.kvalid = State.reset.kvalid := rfl
@[simp] theorem State.resetEngine_ctr : s.resetEngine.ctr = State.reset.ctr := rfl
@[simp] theorem State.resetEngine_pinf : s.resetEngine.pinf = State.reset.pinf := rfl
@[simp] theorem State.resetEngine_err : s.resetEngine.err = State.reset.err := rfl
@[simp] theorem State.resetEngine_errcode : s.resetEngine.errcode = State.reset.errcode := rfl
@[simp] theorem State.resetEngine_errcmd : s.resetEngine.errcmd = State.reset.errcmd := rfl
@[simp] theorem State.resetEngine_cc : s.resetEngine.cc = State.reset.cc := rfl
@[simp] theorem State.resetEngine_buf : s.resetEngine.buf = State.reset.buf := rfl
@[simp] theorem State.resetEngine_cfg : s.resetEngine.cfg = s.cfg := rfl
@[simp] theorem State.resetEngine_cmd : s.resetEngine.cmd = s.cmd := rfl
@[simp] theorem State.resetEngine_busy : s.resetEngine.busy = State.reset.busy := rfl
@[simp] theorem State.resetEngine_host : s.resetEngine.host = s.host := rfl
@[simp] theorem State.resetEngine_draws : s.resetEngine.draws = s.draws := rfl
@[simp] theorem State.resetEngine_replies : s.resetEngine.replies = s.replies := rfl

/-! ### Reading a register after writing one -/

@[simp] theorem State.getR_setR (a b : RReg) (v : Half) :
    (s.setR a v).getR b = if a = b then v.toNat else s.getR b := by
  simp only [State.getR, State.setR_r, Fin.getElem_fin, Vector.getElem_set, Fin.ext_iff]
  split <;> rfl

@[simp] theorem State.getW_setW (a b : WReg) (v : Wide) : (s.setW a v).getW b = if a = b then v else s.getW b := by
  simp only [State.getW, State.setW_w, Fin.getElem_fin, Vector.getElem_set, Fin.ext_iff]

@[simp] theorem State.getQ_setQ (a b : QReg) (p : Point) : (s.setQ a p).getQ b = if a = b then p else s.getQ b := by
  simp only [State.getQ, State.setQ_q, Fin.getElem_fin, Vector.getElem_set, Fin.ext_iff]

@[simp] theorem State.getQ_setPoint (a b : QReg) (p : Point) :
    (s.setPoint a p).getQ b = if a = b then p else s.getQ b := by
  simp only [State.getQ, State.setPoint_q, Fin.getElem_fin, Vector.getElem_set, Fin.ext_iff]

end Sys2Proof.Machine
end

