-- ==== Sys2Proof/Laws/Ops.lean ====
section
/-! SUPPORT. What each shared operation can do, said once: if it answers `next t`, one of these cases holds. Proofs about
a command cite these and do not unfold the checks. -/

namespace Sys2Proof.Machine

theorem next_inj {s t : State} : ((Host.Outcome.next s : Result) = .next t) ↔ s = t := by
  constructor
  · intro h; cases h; rfl
  · rintro rfl; rfl

/-- A completed command: its writes and then the count. -/
theorem complete_next {s t : State} : complete s = .next t ↔ t = s.completed := by
  rw [complete, next_inj, eq_comm]

/-- A fault: the latch. -/
theorem raise_next {k : FaultKind} {s t : State} : raise k s = .next t ↔ t = s.takeFault k := by
  rw [raise, next_inj, eq_comm]

theorem checkRange_next {off n : Nat} {s t : State} {go : Result} :
    checkRange off n s go = .next t ↔
      (off + n ≤ s.bufSize ∧ go = .next t) ∨ (s.bufSize < off + n ∧ t = s.takeFault .bufferRange) := by
  unfold checkRange State.inRange
  by_cases h : off + n ≤ s.bufSize
  · have : ¬ s.bufSize < off + n := by omega
    simp [h, this]
  · have : s.bufSize < off + n := by omega
    simp [h, this, raise_next]

theorem checkLength_next {k : FaultKind} {len want : Nat} {s t : State} {go : Result} :
    checkLength k len want s go = .next t ↔ (len = want ∧ go = .next t) ∨ (len ≠ want ∧ t = s.takeFault k) := by
  unfold checkLength
  by_cases h : len = want <;> simp [h, raise_next]

theorem needKfin_next {want : Bool} {s t : State} {go : Result} :
    needKfin want s go = .next t ↔
      (s.kfin = want ∧ go = .next t) ∨ (s.kfin ≠ want ∧ t = s.takeFault .illegalSequence) := by
  unfold needKfin
  by_cases h : s.kfin = want <;> simp [h, raise_next]

theorem needKey_next {s t : State} {go : Result} :
    needKey s go = .next t ↔
      (s.kvalid = true ∧ go = .next t) ∨ (s.kvalid = false ∧ t = s.takeFault .illegalSequence) := by
  unfold needKey
  by_cases h : s.kvalid = true <;> simp [h, raise_next]

/-- What the entropy loop answers: the answers before the chosen one are all out of range, the chosen one is in range. -/
theorem drawKey_some {ds rest : List Draw} {k : Nat} :
    drawKey ds = some (k, rest) ↔
      ∃ rejected d, ds = rejected ++ d :: rest ∧ (∀ x ∈ rejected, isPrivateKey (drawValue x) = false) ∧
        isPrivateKey (drawValue d) = true ∧ k = drawValue d := by
  induction ds with
  | nil => simp [drawKey]
  | cons d ds ih =>
    rw [drawKey]
    split
    · rename_i hd
      constructor
      · rintro h
        cases h
        exact ⟨[], d, rfl, by simp, hd, rfl⟩
      · rintro ⟨rej, e, h1, h2, h3, rfl⟩
        cases rej with
        | nil => simp at h1; obtain ⟨rfl, rfl⟩ := h1; rfl
        | cons x rej =>
          simp at h1
          obtain ⟨rfl, rfl⟩ := h1
          have := h2 d (by simp)
          simp_all
    · rename_i hd
      rw [ih]
      constructor
      · rintro ⟨rej, e, h1, h2, h3, h4⟩
        refine ⟨d :: rej, e, by simp [h1], ?_, h3, h4⟩
        intro x hx
        rcases List.mem_cons.1 hx with rfl | hx
        · simpa using hd
        · exact h2 x hx
      · rintro ⟨rej, e, h1, h2, h3, rfl⟩
        cases rej with
        | nil => simp at h1; obtain ⟨rfl, rfl⟩ := h1; exact absurd h3 hd
        | cons x rej =>
          simp at h1
          obtain ⟨rfl, rfl⟩ := h1
          exact ⟨rej, e, rfl, fun y hy => h2 y (by simp [hy]), h3, rfl⟩

/-- The entropy loop answers nothing exactly when every answer at hand is out of range. -/
theorem drawKey_none {ds : List Draw} :
    drawKey ds = none ↔ ∀ d ∈ ds, isPrivateKey (drawValue d) = false := by
  induction ds with
  | nil => simp [drawKey]
  | cons d ds ih =>
    rw [drawKey]
    split
    · rename_i h; simp [h]
    · rename_i h; simp [ih, Bool.eq_false_iff.2 h]

theorem isPrivateKey_iff {k : Nat} : isPrivateKey k = true ↔ 1 ≤ k ∧ k < orderN := by simp [isPrivateKey]

end Sys2Proof.Machine
end

