-- ==== Sys2Proof/Laws/Exec.lean ====
section
/-! SUPPORT. What a command can do, said once: the writes of each command that passes its checks, and the inversion of
`exec`. Statements about all commands go by cases on the instruction over these, and unfold no check. -/

namespace Sys2Proof.Machine

/-- The writes of a command that passes its checks, before the count. -/
def effect : Instr → State → State
  | .nop, s => s
  | .clrerr, s => s.ackFault
  | .srst, s => s
  | .li a imm, s => s.setR a imm
  | .ldw a b, s => s.setW a (wideOfBytes (s.memRead (s.getR b) 32))
  | .stw a b, s => s.memWrite (s.getR b) (bytesOfWide (s.getW a))
  | .movw a b, s => s.setW a (s.getW b)
  | .kInit, s => { s with ks := zeroLanes, kpos := 0, kfin := false }
  | .kF1600, s => { s with ks := keccakF s.ks }
  | .kRound imm, s => { s with ks := keccakRound s.ks imm.toNat }
  | .kAbsorb a b, s => s.setSponge (absorb s.sponge (s.memRead (s.getR a) (s.getR b)))
  | .kFinal, s => { s.setSponge (finalize s.sponge) with kfin := true }
  | .kSqueeze a, s => s.setW a (wideOfBytes (digest s.ks))
  | .kHash a b c, s =>
    (s.hashed (s.memRead (s.getR b) (s.getR c))).setW a (wideOfBytes (keccak256 (s.memRead (s.getR b) (s.getR c))))
  | .kLds a, s => { s with ks := lanesOfBytes (s.memRead (s.getR a) 200) }
  | .kSts a, s => s.memWrite (s.getR a) (lanesBytes s.ks)
  | .fpAdd a b c, s => s.setW a (wideOfField (fadd (s.fieldOf b) (s.fieldOf c)))
  | .fpSub a b c, s => s.setW a (wideOfField (fsub (s.fieldOf b) (s.fieldOf c)))
  | .fpMul a b c, s => s.setW a (wideOfField (fmul (s.fieldOf b) (s.fieldOf c)))
  | .fpNeg a b, s => s.setW a (wideOfField (fneg (s.getW b).toNat))
  | .fpInv a b, s => s.setW a (wideOfField (finv (s.getW b).toNat))
  | .pset a b c, s => s.setPoint a (Point.finite (s.fieldOf b) (s.fieldOf c))
  | .pinf a, s => s.setPoint a Point.infinity
  | .pldg a, s => s.setPoint a Point.generator
  | .pget a b c, s => { (s.setW a (s.getQ c).x).setW b (s.getQ c).y with pinf := (s.getQ c).inf }
  | .pmov a b, s => s.setPoint a (s.getQ b)
  | .pneg a b, s => s.setPoint a (Machine.pneg (s.getQ b))
  | .pdbl a b, s => s.setPoint a (Machine.pdbl (s.getQ b))
  | .padd a b c, s => s.setPoint a (Machine.padd (s.getQ b) (s.getQ c))
  | .pmul a b c, s => s.setPoint a (smul (s.getW b).toNat (s.getQ c))
  | .ecPubkey a b c, s =>
    { (s.setQ a (smul (s.getW b).toNat Point.generator)).memWrite (s.getR c)
        (uncompressed (smul (s.getW b).toNat Point.generator)) with pinf := false }
  | .ecAddr a b _, s =>
    (s.hashed (s.memRead (s.getR b) 64)).setW a (wideOfBytes ((keccak256 (s.memRead (s.getR b) 64)).drop 12))
  | .ecKeygen a, s =>
    match drawKey s.draws with
    | some (k, rest) => { s.setW a (BitVec.ofNat 256 k) with draws := rest }
    | none => s
  | .aesKeyexp a _, s => { s with rk := keyExpand (s.blockAt (s.getR a)), kvalid := true }
  | .aesEncb a b _, s => s.memWrite (s.getR a) (encryptBlock s.rk (s.blockAt (s.getR b))).toList
  | .aesSetctr a _, s => { s with ctr := BitVec.ofNat 128 (beNat (s.memRead (s.getR a) 16)) }
  | .aesCtrx a b c, s =>
    { s.memWrite (s.getR a) (ctrStream s.rk s.ctr (s.memRead (s.getR b) (s.getR c))).1 with
      ctr := (ctrStream s.rk s.ctr (s.memRead (s.getR b) (s.getR c))).2 }
  | .aesClr, s => { s with rk := zeroKeys, ctr := 0, kvalid := false }

/-- The command passes its checks (and is not `SRST`, which is no counted command; and `EC.KEYGEN` has an answer in
range at hand). -/
def passes : Instr → State → Prop
  | .srst, _ => False
  | .ldw _ b, s => s.getR b + 32 ≤ s.bufSize
  | .stw _ b, s => s.getR b + 32 ≤ s.bufSize
  | .kRound imm, _ => imm.toNat < 24
  | .kAbsorb a b, s => s.kfin = false ∧ s.getR a + s.getR b ≤ s.bufSize
  | .kFinal, s => s.kfin = false
  | .kSqueeze _, s => s.kfin = true
  | .kHash _ b c, s => s.getR b + s.getR c ≤ s.bufSize
  | .kLds a, s => s.getR a + 200 ≤ s.bufSize
  | .kSts a, s => s.getR a + 200 ≤ s.bufSize
  | .fpInv _ b, s => s.fieldOf b ≠ 0
  | .ecPubkey _ b c, s => s.getR c + 65 ≤ s.bufSize ∧ isPrivateKey (s.getW b).toNat = true
  | .ecAddr _ b c, s => s.getR c = 64 ∧ s.getR b + 64 ≤ s.bufSize
  | .ecKeygen _, s => ∃ k rest, drawKey s.draws = some (k, rest)
  | .aesKeyexp a b, s => s.getR b = 16 ∧ s.getR a + 16 ≤ s.bufSize
  | .aesEncb a b c, s => s.kvalid = true ∧ s.getR c = 16 ∧ s.getR b + 16 ≤ s.bufSize ∧ s.getR a + 16 ≤ s.bufSize
  | .aesSetctr a b, s => s.getR b = 16 ∧ s.getR a + 16 ≤ s.bufSize
  | .aesCtrx a b c, s => s.kvalid = true ∧ s.getR b + s.getR c ≤ s.bufSize ∧ s.getR a + s.getR c ≤ s.bufSize
  | .nop, _ | .clrerr, _ | .li _ _, _ | .movw _ _, _ | .kInit, _ | .kF1600, _ => True
  | .fpAdd _ _ _, _ | .fpSub _ _ _, _ | .fpMul _ _ _, _ | .fpNeg _ _, _ => True
  | .pset _ _ _, _ | .pinf _, _ | .pldg _, _ | .pget _ _ _, _ | .pmov _ _, _ | .pneg _ _, _ | .pdbl _ _, _ => True
  | .padd _ _ _, _ | .pmul _ _ _, _ | .aesClr, _ => True

theorem checkRange_ok {off n : Nat} {s : State} (h : off + n ≤ s.bufSize) (go : Result) : checkRange off n s go = go := by
  simp [checkRange, State.inRange, h]

theorem checkRange_fail {off n : Nat} {s : State} (h : s.bufSize < off + n) (go : Result) :
    checkRange off n s go = .next (s.takeFault .bufferRange) := by
  rw [checkRange, State.inRange, if_neg (by simp; omega), raise]

theorem checkLength_ok {k : FaultKind} {len want : Nat} {s : State} (h : len = want) (go : Result) :
    checkLength k len want s go = go := if_pos h

theorem checkLength_fail {k : FaultKind} {len want : Nat} {s : State} (h : len ≠ want) (go : Result) :
    checkLength k len want s go = .next (s.takeFault k) := if_neg h

theorem needKfin_ok {b : Bool} {s : State} (h : s.kfin = b) (go : Result) : needKfin b s go = go := if_pos h

theorem needKfin_fail {b : Bool} {s : State} (h : s.kfin ≠ b) (go : Result) :
    needKfin b s go = .next (s.takeFault .illegalSequence) := if_neg h

theorem needKey_ok {s : State} (h : s.kvalid = true) (go : Result) : needKey s go = go := if_pos h

theorem needKey_fail {s : State} (h : s.kvalid = false) (go : Result) :
    needKey s go = .next (s.takeFault .illegalSequence) := if_neg (by simp [h])

/-- A command that passes its checks completes with its writes made: the completion of every command but `SRST`. -/
theorem exec_completes {i : Instr} {s : State} (h : passes i s) : exec i s = .next (effect i s).completed := by
  cases i
  case srst => exact h.elim
  case kRound => exact if_pos h
  case fpInv => exact if_neg h
  case ldw | stw | kHash | kLds | kSts => exact checkRange_ok h _
  case kAbsorb => exact (needKfin_ok h.1 _).trans (checkRange_ok h.2 _)
  case kFinal | kSqueeze => exact needKfin_ok h _
  case ecPubkey => exact (checkRange_ok h.1 _).trans (if_pos h.2)
  case ecAddr | aesKeyexp | aesSetctr => exact (checkLength_ok h.1 _).trans (checkRange_ok h.2 _)
  case aesEncb =>
    exact (needKey_ok h.1 _).trans ((checkLength_ok h.2.1 _).trans ((checkRange_ok h.2.2.1 _).trans (checkRange_ok h.2.2.2 _)))
  case aesCtrx => exact (needKey_ok h.1 _).trans ((checkRange_ok h.2.1 _).trans (checkRange_ok h.2.2 _))
  case ecKeygen a =>
    obtain ⟨k, rest, hd⟩ := h
    simp only [exec, execEcKeygen, effect, hd]
    rfl
  all_goals rfl

/-- A command ends in a fault of a kind listed for it (`K.ROUND` with an index no word has, in `IllegalCommand`), or as
`SRST`, or as `EC.KEYGEN` still waiting, or it passes its checks and completes with its writes made. -/
theorem exec_cases {i : Instr} {s t : State} (h : exec i s = .next t) :
    (∃ k, (k ∈ i.faultKinds ∨ (i.wf = false ∧ k = .illegalCommand)) ∧ t = s.takeFault k) ∨
    (i = .srst ∧ t = s.resetEngine) ∨
    ((∃ a, i = .ecKeygen a) ∧ drawKey s.draws = none ∧ t = { s with draws := [], busy := true }) ∨
    (passes i s ∧ t = (effect i s).completed) := by
  have done : passes i s → passes i s ∧ t = (effect i s).completed := fun hp => by
    rw [exec_completes hp, next_inj] at h
    exact ⟨hp, h.symm⟩
  cases i
  case srst => exact .inr (.inl ⟨rfl, (next_inj.1 h).symm⟩)
  case ecKeygen a =>
    simp only [exec, execEcKeygen] at h
    split at h
    · rename_i k rest hd
      exact .inr (.inr (.inr (done ⟨k, rest, hd⟩)))
    · rename_i hd
      exact .inr (.inr (.inl ⟨⟨_, rfl⟩, hd, (next_inj.1 h).symm⟩))
  case kRound imm =>
    simp only [exec, execKRound] at h
    split at h
    · exact .inr (.inr (.inr (done ‹_›)))
    · rename_i hd
      exact .inl ⟨_, .inr ⟨by simpa [Instr.wf] using hd, rfl⟩, raise_next.1 h⟩
  case fpInv a b =>
    simp only [exec, execFpInv] at h
    split at h
    · exact .inl ⟨_, .inl (by simp [Instr.faultKinds]), raise_next.1 h⟩
    · exact .inr (.inr (.inr (done ‹_›)))
  case ecPubkey a b c =>
    simp only [exec, execEcPubkey, checkRange_next] at h
    rcases h with ⟨hr, h⟩ | ⟨hr, h⟩
    · split at h
      · exact .inr (.inr (.inr (done ⟨hr, ‹_›⟩)))
      · exact .inl ⟨_, .inl (by simp [Instr.faultKinds]), raise_next.1 h⟩
    · exact .inl ⟨_, .inl (by simp [Instr.faultKinds]), h⟩
  case kAbsorb =>
    simp only [exec, execKAbsorb, needKfin_next, checkRange_next] at h
    rcases h with ⟨hk, ⟨hr, h⟩ | ⟨hr, h⟩⟩ | ⟨hk, h⟩
    · exact .inr (.inr (.inr (done ⟨hk, hr⟩)))
    all_goals exact .inl ⟨_, .inl (by simp [Instr.faultKinds]), h⟩
  case kFinal | kSqueeze =>
    simp only [exec, execKFinal, execKSqueeze, needKfin_next] at h
    rcases h with ⟨hk, h⟩ | ⟨hk, h⟩
    · exact .inr (.inr (.inr (done hk)))
    · exact .inl ⟨_, .inl (by simp [Instr.faultKinds]), h⟩
  case ldw | stw | kHash | kLds | kSts =>
    simp only [exec, execLdw, execStw, execKHash, execKLds, execKSts, checkRange_next] at h
    rcases h with ⟨hr, h⟩ | ⟨hr, h⟩
    · exact .inr (.inr (.inr (done hr)))
    · exact .inl ⟨_, .inl (by simp [Instr.faultKinds]), h⟩
  case ecAddr | aesKeyexp | aesSetctr =>
    simp only [exec, execEcAddr, execAesKeyexp, execAesSetctr, checkLength_next, checkRange_next] at h
    rcases h with ⟨hl, ⟨hr, h⟩ | ⟨hr, h⟩⟩ | ⟨hl, h⟩
    · exact .inr (.inr (.inr (done ⟨hl, hr⟩)))
    all_goals exact .inl ⟨_, .inl (by simp [Instr.faultKinds]), h⟩
  case aesEncb =>
    simp only [exec, execAesEncb, needKey_next, checkLength_next, checkRange_next] at h
    rcases h with ⟨hk, ⟨hl, ⟨hr, ⟨hr2, h⟩ | ⟨hr2, h⟩⟩ | ⟨hr, h⟩⟩ | ⟨hl, h⟩⟩ | ⟨hk, h⟩
    · exact .inr (.inr (.inr (done ⟨hk, hl, hr, hr2⟩)))
    all_goals exact .inl ⟨_, .inl (by simp [Instr.faultKinds]), h⟩
  case aesCtrx =>
    simp only [exec, execAesCtrx, needKey_next, checkRange_next] at h
    rcases h with ⟨hk, ⟨hr, ⟨hr2, h⟩ | ⟨hr2, h⟩⟩ | ⟨hr, h⟩⟩ | ⟨hk, h⟩
    · exact .inr (.inr (.inr (done ⟨hk, hr, hr2⟩)))
    all_goals exact .inl ⟨_, .inl (by simp [Instr.faultKinds]), h⟩
  all_goals exact .inr (.inr (.inr (done trivial)))

/-- Every command has a next state from every state: none stops the machine. -/
theorem exec_total (i : Instr) (s : State) : ∃ t, exec i s = .next t := by
  have hraise : ∀ k, ∃ t, raise k s = .next t := fun k => ⟨_, rfl⟩
  have hrange : ∀ off n go, (∃ t, go = .next t) → ∃ t, checkRange off n s go = .next t := by
    intro off n go h
    unfold checkRange
    split
    · exact h
    · exact hraise _
  have hlen : ∀ k l m go, (∃ t, go = .next t) → ∃ t, checkLength k l m s go = .next t := by
    intro k l m go h
    unfold checkLength
    split
    · exact h
    · exact hraise _
  have hfin : ∀ b go, (∃ t, go = .next t) → ∃ t, needKfin b s go = .next t := by
    intro b go h
    unfold needKfin
    split
    · exact h
    · exact hraise _
  have hkey : ∀ go, (∃ t, go = .next t) → ∃ t, needKey s go = .next t := by
    intro go h
    unfold needKey
    split
    · exact h
    · exact hraise _
  cases i
  case kRound => simp only [exec, execKRound]; split; exacts [⟨_, rfl⟩, hraise _]
  case fpInv => simp only [exec, execFpInv]; split; exacts [hraise _, ⟨_, rfl⟩]
  case ecKeygen => simp only [exec, execEcKeygen]; split <;> exact ⟨_, rfl⟩
  case ecPubkey => exact hrange _ _ _ (by split; exacts [⟨_, rfl⟩, hraise _])
  case kAbsorb => exact hfin _ _ (hrange _ _ _ ⟨_, rfl⟩)
  case kFinal | kSqueeze => exact hfin _ _ ⟨_, rfl⟩
  case ldw | stw | kHash | kLds | kSts => exact hrange _ _ _ ⟨_, rfl⟩
  case ecAddr | aesKeyexp | aesSetctr => exact hlen _ _ _ _ (hrange _ _ _ ⟨_, rfl⟩)
  case aesEncb => exact hkey _ (hlen _ _ _ _ (hrange _ _ _ (hrange _ _ _ ⟨_, rfl⟩)))
  case aesCtrx => exact hkey _ (hrange _ _ _ (hrange _ _ _ ⟨_, rfl⟩))
  all_goals exact ⟨_, rfl⟩

/-! ### Sequences -/

@[simp] theorem execAll_nil (s : State) : execAll [] s = .next s := rfl

/-- A sequence goes on from the state its first command left. -/
theorem execAll_cons {i : Instr} {is : List Instr} {s t : State} (h : exec i s = .next t) :
    execAll (i :: is) s = execAll is t := by
  rw [execAll, h]

/-- A sequence whose first command passes its checks goes on from the state with its writes made. -/
theorem execAll_passes {i : Instr} {is : List Instr} {s : State} (h : passes i s) :
    execAll (i :: is) s = execAll is (effect i s).completed := execAll_cons (exec_completes h)

end Sys2Proof.Machine
end

