-- ==== Sys2Proof/Laws/Cycle.lean ====
section
/-! SUPPORT. What a step can do, said once: one equation for each kind of next happening, and the inversion. -/

namespace Sys2Proof.Machine

variable {s t : State} {rest : List HostAction} {w : Word} {i : Instr}

/-! ### The command at the port -/

theorem runCommand_discarded (h : s.discards s.cmd = true) : runCommand s = .next { s with busy := false } := by
  rw [runCommand, if_pos h]

theorem runCommand_illegal {e : Illegal} (h : s.discards s.cmd = false) (hd : decode s.cmd = .error e) :
    runCommand s = raise .illegalCommand s := by
  rw [runCommand, if_neg (by simp [h]), hd]

theorem runCommand_decoded (h : s.discards s.cmd = false) (hd : decode s.cmd = .ok i) : runCommand s = exec i s := by
  rw [runCommand, if_neg (by simp [h]), hd]

theorem discards_of_clear (h : s.err = false) (w : Word) : s.discards w = false := by simp [State.discards, h]

theorem discards_of_set (h : s.err = true) : s.discards w = true ↔ w ≠ clrerrWord ∧ w ≠ srstWord := by
  simp [State.discards, h]

/-- What the command cycle can do. -/
theorem runCommand_cases (h : runCommand s = .next t) :
    (s.discards s.cmd = true ∧ t = { s with busy := false }) ∨
    (s.discards s.cmd = false ∧ (∃ e, decode s.cmd = .error e) ∧ t = s.takeFault .illegalCommand) ∨
    (s.discards s.cmd = false ∧ ∃ i, decode s.cmd = .ok i ∧ exec i s = .next t) := by
  cases hd : s.discards s.cmd
  · cases hc : decode s.cmd with
    | error e => rw [runCommand_illegal hd hc, raise_next] at h; exact .inr (.inl ⟨rfl, ⟨_, rfl⟩, h⟩)
    | ok i => rw [runCommand_decoded hd hc] at h; exact .inr (.inr ⟨rfl, i, rfl, h⟩)
  · rw [runCommand_discarded hd, next_inj] at h; exact .inl ⟨rfl, h.symm⟩

/-! ### The step -/

theorem step_idle (hb : s.busy = false) (hh : s.host = []) : step s = .next s := by
  simp only [step, nextStep, hb, hh]

theorem step_act {act : HostAction} (hb : s.busy = false) (hh : s.host = act :: rest) :
    step s = hostAct act { s with host := rest } := by
  simp only [step, nextStep, hb, hh]

theorem step_reset (hh : s.host = .reset :: rest) : step s = .next { s with host := rest }.resetEngine := by
  cases hb : s.busy <;> simp only [step, nextStep, hb, hh, hostAct]

theorem step_waiting (hb : s.busy = true) (hh : ∀ rest, s.host ≠ .reset :: rest) : step s = runCommand s := by
  unfold step nextStep
  split <;> simp_all

/-- What a step can do. -/
theorem step_cases (h : step s = .next t) :
    (s.busy = false ∧ s.host = [] ∧ t = s) ∨
    (∃ rest, s.host = .reset :: rest ∧ t = { s with host := rest }.resetEngine) ∨
    (s.busy = true ∧ runCommand s = .next t) ∨
    (s.busy = false ∧ ∃ w rest, s.host = .command w :: rest ∧ runCommand { s with host := rest, cmd := w } = .next t) ∨
    (s.busy = false ∧ ∃ off bs rest, s.host = .writeBuf off bs :: rest ∧ t = hostWrite off bs { s with host := rest }) ∨
    (s.busy = false ∧ ∃ r rest, ((∃ off len, s.host = .readBuf off len :: rest) ∨ ∃ n, s.host = .readStatus n :: rest) ∧
      t = State.answer { s with host := rest } r) := by
  by_cases hb : s.busy = false
  · cases hh : s.host with
    | nil => rw [step_idle hb hh, next_inj] at h; exact .inl ⟨hb, rfl, h.symm⟩
    | cons act rest =>
      rw [step_act hb hh] at h
      cases act with
      | command w => exact .inr (.inr (.inr (.inl ⟨hb, w, rest, rfl, h⟩)))
      | writeBuf off bs => exact .inr (.inr (.inr (.inr (.inl ⟨hb, off, bs, rest, rfl, (next_inj.1 h).symm⟩))))
      | readBuf off len =>
        exact .inr (.inr (.inr (.inr (.inr ⟨hb, _, rest, .inl ⟨_, _, rfl⟩, (next_inj.1 h).symm⟩))))
      | readStatus n => exact .inr (.inr (.inr (.inr (.inr ⟨hb, _, rest, .inr ⟨_, rfl⟩, (next_inj.1 h).symm⟩))))
      | reset => exact .inr (.inl ⟨rest, rfl, (next_inj.1 h).symm⟩)
  · rw [Bool.not_eq_false] at hb
    by_cases hr : ∃ rest, s.host = .reset :: rest
    · obtain ⟨rest, hr⟩ := hr
      rw [step_reset hr, next_inj] at h
      exact .inr (.inl ⟨rest, hr, h.symm⟩)
    · rw [step_waiting hb (fun rest hh => hr ⟨rest, hh⟩)] at h
      exact .inr (.inr (.inl ⟨hb, h⟩))

end Sys2Proof.Machine
end

