-- ==== Sys2Proof/Laws/Encoding.lean ====
section
/-! SUPPORT. The two word forms of the encoder as numbers, and the fields the decoder reads in them (30_encoding.md rules
R70, R72). -/

namespace Sys2Proof

theorem toNat_append_add {m n : Nat} (x : BitVec m) (y : BitVec n) : (x ++ y).toNat = x.toNat * 2 ^ n + y.toNat := by
  rw [BitVec.toNat_append, ← Nat.shiftLeft_add_eq_or_of_lt y.isLt, Nat.shiftLeft_eq]

/-- A field of a word as a number. -/
theorem toNat_field (w : Word) (lo len : Nat) : (w.extractLsb' lo len).toNat = w.toNat / 2 ^ lo % 2 ^ len := by
  simp [BitVec.extractLsb'_toNat, Nat.shiftRight_eq_div_pow]

/-- The word of formats `Z` to `ABC` as a number (rule R72). -/
theorem toNat_wordABC (op : BitVec 8) (a b c : BitVec 4) :
    (wordABC op a b c).toNat = op.toNat * 2 ^ 24 + a.toNat * 2 ^ 20 + b.toNat * 2 ^ 16 + c.toNat * 2 ^ 12 := by
  simp only [wordABC, toNat_append_add, BitVec.toNat_ofNat]
  omega

/-- The word of formats `AI` and `I` as a number (rule R72). -/
theorem toNat_wordAI (op : BitVec 8) (a : BitVec 4) (imm : Half) :
    (wordAI op a imm).toNat = op.toNat * 2 ^ 24 + a.toNat * 2 ^ 20 + imm.toNat := by
  simp only [wordAI, toNat_append_add, BitVec.toNat_ofNat]
  omega

section ABC

variable (op : BitVec 8) (a b c : BitVec 4)

@[simp] theorem opField_wordABC : opField (wordABC op a b c) = op := by
  apply BitVec.eq_of_toNat_eq
  rw [opField, toNat_field, toNat_wordABC]
  omega

@[simp] theorem aField_wordABC : aField (wordABC op a b c) = a := by
  apply BitVec.eq_of_toNat_eq
  rw [aField, toNat_field, toNat_wordABC]
  omega

@[simp] theorem bField_wordABC : bField (wordABC op a b c) = b := by
  apply BitVec.eq_of_toNat_eq
  rw [bField, toNat_field, toNat_wordABC]
  omega

@[simp] theorem cField_wordABC : cField (wordABC op a b c) = c := by
  apply BitVec.eq_of_toNat_eq
  rw [cField, toNat_field, toNat_wordABC]
  omega

/-- The bits of format `ABC` that must be zero are zero. -/
@[simp] theorem low12_wordABC : (wordABC op a b c).extractLsb' 0 12 = 0#12 := by
  apply BitVec.eq_of_toNat_eq
  rw [toNat_field, toNat_wordABC]
  simp only [BitVec.toNat_ofNat]
  omega

/-- The bits of format `AB` that must be zero are zero. -/
@[simp] theorem low16_wordABC : (wordABC op a b 0#4).extractLsb' 0 16 = 0#16 := by
  apply BitVec.eq_of_toNat_eq
  rw [toNat_field, toNat_wordABC]
  simp only [BitVec.toNat_ofNat]
  omega

/-- The bits of format `A` that must be zero are zero. -/
@[simp] theorem low20_wordABC : (wordABC op a 0#4 0#4).extractLsb' 0 20 = 0#20 := by
  apply BitVec.eq_of_toNat_eq
  rw [toNat_field, toNat_wordABC]
  simp only [BitVec.toNat_ofNat]
  omega

/-- The bits of format `Z` that must be zero are zero. -/
@[simp] theorem low24_wordABC : (wordABC op 0#4 0#4 0#4).extractLsb' 0 24 = 0#24 := by
  apply BitVec.eq_of_toNat_eq
  rw [toNat_field, toNat_wordABC]
  simp only [BitVec.toNat_ofNat]
  omega

end ABC

section AI

variable (op : BitVec 8) (a : BitVec 4) (imm : Half)

@[simp] theorem opField_wordAI : opField (wordAI op a imm) = op := by
  apply BitVec.eq_of_toNat_eq
  rw [opField, toNat_field, toNat_wordAI]
  omega

@[simp] theorem aField_wordAI : aField (wordAI op a imm) = a := by
  apply BitVec.eq_of_toNat_eq
  rw [aField, toNat_field, toNat_wordAI]
  omega

/-- The bits of format `AI` that must be zero are zero. -/
@[simp] theorem bField_wordAI : bField (wordAI op a imm) = 0#4 := by
  apply BitVec.eq_of_toNat_eq
  rw [bField, toNat_field, toNat_wordAI, BitVec.toNat_ofNat]
  omega

@[simp] theorem immField_wordAI : immField (wordAI op a imm) = imm := by
  apply BitVec.eq_of_toNat_eq
  rw [immField, toNat_field, toNat_wordAI]
  omega

/-- The bits of format `I` that must be zero are zero. -/
@[simp] theorem mid8_wordAI : (wordAI op 0#4 imm).extractLsb' 16 8 = 0#8 := by
  apply BitVec.eq_of_toNat_eq
  rw [toNat_field, toNat_wordAI]
  simp only [BitVec.toNat_ofNat]
  omega

end AI

/-- A register number goes through its field (rule R73). -/
@[simp] theorem regOf8_regField (r : Fin 8) : regOf8 (regField r) = .ok r := by
  revert r; decide

@[simp] theorem regOf4_regField (r : Fin 4) : regOf4 (regField r) = .ok r := by
  revert r; decide

theorem regField_toNat {n : Nat} (r : Fin n) (h : n ≤ 16) : (regField r).toNat = r.val := by
  rw [regField, BitVec.toNat_ofNat]
  have := r.isLt
  omega

end Sys2Proof
end

