-- ==== Sys2Proof/Laws/Group.lean ====
section
/-! SUPPORT. The point functions compute in the group of the curve `y² = x³ + 7` over the prime field (42_secp256k1.md rule
R164): what a point register stands for in that group, doubling, addition and the loop of rule R168 there, and the order of
the generator (rule R160). -/

namespace Sys2Proof.Machine

/-! ### The field and the curve -/

/-- The prime field. -/
abbrev FieldP := ZMod primeP

/-- The curve `y² = x³ + 7` over the prime field. -/
def curve : WeierstrassCurve.Affine FieldP := ⟨0, 0, 0, 0, 7⟩

/-- `N − 1` in bits, most significant first, after the first. -/
def orderBits : List Bool := (List.range 255).map fun i => (orderN - 1).testBit (254 - i)

section
variable [Fact primeP.Prime]

theorem cast_eq_iff {a b : Nat} (ha : a < primeP) (hb : b < primeP) : ((a : FieldP) = b) ↔ a = b := by
  rw [ZMod.natCast_eq_natCast_iff, Nat.ModEq, Nat.mod_eq_of_lt ha, Nat.mod_eq_of_lt hb]

theorem cast_fadd (a b : Nat) : ((fadd a b : Nat) : FieldP) = a + b := by simp [fadd]

theorem cast_fmul (a b : Nat) : ((fmul a b : Nat) : FieldP) = a * b := by simp [fmul]

theorem cast_fsub (a b : Nat) : ((fsub a b : Nat) : FieldP) = a - b := by
  rw [← Int.cast_natCast, fsub_int, ZMod.intCast_mod]; simp

theorem cast_finv (a : Nat) : ((finv a : Nat) : FieldP) = (a : FieldP)⁻¹ := by
  by_cases h : (a : FieldP) = 0
  · rw [finv_eq, ZMod.natCast_mod, Nat.cast_pow, ZMod.natCast_mod, h, inv_zero, zero_pow (by decide)]
  · rw [finv_eq, ZMod.natCast_mod, Nat.cast_pow, ZMod.natCast_mod]
    refine eq_inv_of_mul_eq_one_left ?_
    rw [← pow_succ, show primeP - 2 + 1 = primeP - 1 from rfl, ZMod.pow_card_sub_one_eq_one h]

/-- The point register `p` holds the point `A` of the curve's group. -/
def Stands (p : Point) (A : curve.Point) : Prop :=
  (p = Point.infinity ∧ A = 0) ∨
    ∃ (x y : Nat) (h : curve.Nonsingular (x : FieldP) (y : FieldP)),
      x < primeP ∧ y < primeP ∧ p = Point.finite x y ∧ A = .some (x : FieldP) (y : FieldP) h

theorem stands_infinity : Stands Point.infinity 0 := .inl ⟨rfl, rfl⟩

theorem curve_negY (x y : FieldP) : curve.negY x y = -y := by simp [WeierstrassCurve.Affine.negY, curve]

/-- The last lines of rules R166 and R167 give the coordinates of the sum. -/
theorem stands_chordPoint {lam x1 y1 x2 : Nat} {L : FieldP} (hL : ((lam : Nat) : FieldP) = L)
    {h : curve.Nonsingular (curve.addX x1 x2 L) (curve.addY x1 x2 y1 L)} :
    Stands (chordPoint lam x1 y1 x2) (.some _ _ h) := by
  have e1 : ((fsub (fsub (fmul lam lam) x1) x2 : Nat) : FieldP) = curve.addX x1 x2 L := by
    rw [cast_fsub, cast_fsub, cast_fmul, hL]
    simp [WeierstrassCurve.Affine.addX, curve]; ring
  have e2 : ((fsub (fmul lam (fsub x1 (fsub (fsub (fmul lam lam) x1) x2))) y1 : Nat) : FieldP) =
      curve.addY x1 x2 y1 L := by
    rw [cast_fsub, cast_fmul, cast_fsub, e1, hL, WeierstrassCurve.Affine.addY, curve_negY,
      WeierstrassCurve.Affine.negAddY]
    ring
  refine .inr ⟨_, _, ?_, fsub_lt _ _, fsub_lt _ _, rfl, ?_⟩
  · rw [e1, e2]; exact h
  · rw [WeierstrassCurve.Affine.Point.some.injEq]; exact ⟨e1.symm, e2.symm⟩

theorem two_ne : (2 : FieldP) ≠ 0 := by
  have h := (cast_eq_iff (a := 2) (b := 0) (by decide) (by decide)).not.2 (by decide)
  simpa using h

/-- `pdbl` is doubling in the group (rule R166). -/
theorem stands_pdbl {p : Point} {A : curve.Point} (h : Stands p A) : Stands (pdbl p) (A + A) := by
  obtain ⟨rfl, rfl⟩ | ⟨x, y, hn, hx, hy, rfl, rfl⟩ := h
  · rw [add_zero]; exact stands_infinity
  · have ex := toNat_ofNat_of_lt hx
    have ey := toNat_ofNat_of_lt hy
    by_cases h0 : y = 0
    · subst h0
      rw [WeierstrassCurve.Affine.Point.add_self_of_Y_eq (by rw [curve_negY]; simp)]
      exact stands_infinity
    · have hc : (y : FieldP) ≠ 0 := by
        have := (cast_eq_iff hy primeP_pos).not.2 h0; simpa using this
      have hne : (y : FieldP) ≠ curve.negY x y := by
        rw [curve_negY]; intro e
        exact hc ((mul_eq_zero.1 (show (2 : FieldP) * y = 0 by linear_combination e)).resolve_left two_ne)
      have hb : ¬ (BitVec.ofNat 256 y = 0) := fun e => h0 (by rw [← ey, e]; rfl)
      rw [WeierstrassCurve.Affine.Point.add_self_of_Y_ne hne]
      unfold pdbl
      rw [if_neg (by simp [Point.finite]), if_neg (by exact hb)]
      simp only [Point.finite, ex, ey]
      refine stands_chordPoint ?_
      rw [WeierstrassCurve.Affine.slope_of_Y_ne rfl hne, cast_fmul, cast_fmul, cast_fmul, cast_finv, cast_fmul, curve_negY,
        div_eq_mul_inv]
      have e : (y : FieldP) - -y = 2 * y := by ring
      rw [e]
      simp only [curve]
      push_cast
      ring

/-- `padd` is addition in the group (rule R167). -/
theorem stands_padd {p q : Point} {A B : curve.Point} (hp : Stands p A) (hq : Stands q B) :
    Stands (padd p q) (A + B) := by
  obtain ⟨rfl, rfl⟩ | ⟨x, y, hn, hx, hy, rfl, rfl⟩ := hp
  · rw [zero_add]; exact hq
  obtain ⟨rfl, rfl⟩ | ⟨x', y', hn', hx', hy', rfl, rfl⟩ := id hq
  · rw [add_zero]; exact .inr ⟨x, y, hn, hx, hy, rfl, rfl⟩
  have ex := toNat_ofNat_of_lt hx
  have ey := toNat_ofNat_of_lt hy
  have ex' := toNat_ofNat_of_lt hx'
  have ey' := toNat_ofNat_of_lt hy'
  have inj : ∀ {a b : Nat}, a < primeP → b < primeP → (BitVec.ofNat 256 a = BitVec.ofNat 256 b ↔ a = b) := fun ha hb =>
    ⟨fun e => by rw [← toNat_ofNat_of_lt ha, e, toNat_ofNat_of_lt hb], fun e => by rw [e]⟩
  unfold padd
  rw [if_neg (by simp [Point.finite]), if_neg (by simp [Point.finite])]
  simp only [Point.finite, inj hx hx', ne_eq, inj hy hy', ex, ey, ex', ey']
  by_cases h1 : x = x'
  · subst h1
    rw [if_pos rfl]
    by_cases h2 : y = y'
    · subst h2
      rw [if_neg (by simp)]
      exact stands_pdbl (.inr ⟨x, y, hn, hx, hy, rfl, rfl⟩)
    · rw [if_pos h2]
      have e1 := ((curve.nonsingular_iff _ _).1 hn).1
      have e2 := ((curve.nonsingular_iff _ _).1 hn').1
      rw [WeierstrassCurve.Affine.equation_iff] at e1 e2
      have hz : ((y : FieldP) - y') * (y + y') = 0 := by
        simp [curve] at e1 e2; linear_combination e1 - e2
      have hy2 : (y : FieldP) = curve.negY x y' := by
        rw [curve_negY]
        rcases mul_eq_zero.1 hz with h | h
        · exact absurd ((cast_eq_iff hy hy').1 (sub_eq_zero.1 h)) h2
        · linear_combination h
      rw [WeierstrassCurve.Affine.Point.add_of_Y_eq rfl hy2]
      exact stands_infinity
  · rw [if_neg h1]
    have hne := (cast_eq_iff hx hx').not.2 h1
    rw [WeierstrassCurve.Affine.Point.add_of_X_ne hne]
    refine stands_chordPoint ?_
    rw [WeierstrassCurve.Affine.slope_of_X_ne hne, cast_fmul, cast_finv, cast_fsub, cast_fsub, ← div_eq_mul_inv,
      ← neg_sub (y : FieldP), ← neg_sub (x : FieldP), neg_div_neg_eq]

/-- A register stands for one point only, and the other way round. -/
theorem stands_inj {p q : Point} {A : curve.Point} (hp : Stands p A) (hq : Stands q A) : p = q := by
  obtain ⟨rfl, rfl⟩ | ⟨x, y, hn, hx, hy, rfl, rfl⟩ := hp
  · obtain ⟨rfl, -⟩ | ⟨x', y', hn', hx', hy', rfl, h⟩ := hq
    · rfl
    · exact absurd h.symm (WeierstrassCurve.Affine.Point.some_ne_zero _)
  · obtain ⟨rfl, h⟩ | ⟨x', y', hn', hx', hy', rfl, h⟩ := hq
    · exact absurd h (WeierstrassCurve.Affine.Point.some_ne_zero _)
    · rw [WeierstrassCurve.Affine.Point.some.injEq, cast_eq_iff hx hx', cast_eq_iff hy hy'] at h
      rw [h.1, h.2]

theorem stands_infinity_iff {p : Point} {A : curve.Point} (h : Stands p A) : p = Point.infinity ↔ A = 0 := by
  obtain ⟨rfl, rfl⟩ | ⟨x, y, hn, hx, hy, rfl, rfl⟩ := h
  · simp
  · exact ⟨fun e => by simp [Point.finite, Point.infinity] at e,
      fun e => absurd e (WeierstrassCurve.Affine.Point.some_ne_zero _)⟩

/-- The loop of rule R168 adds the multiple. -/
theorem stands_smulLoop {fuel k : Nat} {r a : Point} {B A : curve.Point} (hk : k < 2 ^ fuel) (hr : Stands r B)
    (ha : Stands a A) : Stands (smulLoop fuel k r a) (B + k • A) := by
  induction fuel generalizing k r a B A with
  | zero =>
    obtain rfl : k = 0 := by simpa using hk
    simpa [smulLoop] using hr
  | succ fuel ih =>
    rw [smulLoop]
    split
    · subst_vars; simpa using hr
    · have h2 : k / 2 < 2 ^ fuel := by rw [pow_succ] at hk; omega
      have e : k • A = (k % 2) • A + (k / 2) • (A + A) := by
        rw [← two_nsmul, ← mul_nsmul, ← add_nsmul]; congr 1; omega
      rw [e, ← add_assoc]
      refine ih h2 ?_ (stands_pdbl ha)
      split
      · rename_i h; rw [h, one_nsmul]; exact stands_padd hr ha
      · have : k % 2 = 0 := by omega
        rw [this, zero_nsmul, add_zero]; exact hr

theorem stands_smul {k : Nat} {p : Point} {A : curve.Point} (h : Stands p A) : Stands (smul k p) ((k % orderN) • A) := by
  have := stands_smulLoop (k := k % orderN) (fuel := 256)
    ((Nat.mod_lt _ (by decide)).trans (by decide)) stands_infinity h
  rwa [zero_add] at this

/-- The point registers that hold a point of the curve. -/
theorem stands_of_onCurve {x y : Nat} (hx : x < primeP) (hy : y < primeP) (h : y * y % primeP = (x * x * x + 7) % primeP) :
    ∃ A, Stands (Point.finite x y) A := by
  have e : (y : FieldP) ^ 2 = (x : FieldP) ^ 3 + 7 := by
    have := (ZMod.natCast_eq_natCast_iff (y * y) (x * x * x + 7) primeP).2 h
    push_cast at this
    linear_combination this
  have hd : curve.Δ ≠ 0 := by
    have : ((6 ^ 3 * 2 * 7 ^ 2 : Nat) : FieldP) ≠ 0 := by
      have := (cast_eq_iff (a := 6 ^ 3 * 2 * 7 ^ 2) (b := 0) (by decide) (by decide)).not.2 (by decide)
      simpa using this
    intro h0
    apply this
    simp only [WeierstrassCurve.Δ, WeierstrassCurve.b₂, WeierstrassCurve.b₄, WeierstrassCurve.b₆, WeierstrassCurve.b₈,
      curve] at h0
    push_cast
    linear_combination -h0
  refine ⟨.some _ _ ((WeierstrassCurve.Affine.equation_iff_nonsingular_of_Δ_ne_zero hd).1 ?_),
    .inr ⟨x, y, _, hx, hy, rfl, rfl⟩⟩
  rw [WeierstrassCurve.Affine.equation_iff]
  simp [curve]
  exact e

/-! ### The order of the generator, with one division-free pass (Jacobian coordinates: `(X/Z², Y/Z³)`) -/

/-- The group's generator. -/
theorem stands_generator : ∃ A, Stands Point.generator A := by
  have h := stands_of_onCurve (x := genX.toNat) (y := genY.toNat) (by decide) (by decide) (by decide)
  have e : Point.finite genX.toNat genY.toNat = Point.generator := by decide
  rwa [e] at h

/-- Three numbers stand for `A`, if the third is not 0 modulo `P`. -/
def JacStands (t : Nat × Nat × Nat) (A : curve.Point) : Prop :=
  (t.2.2 : FieldP) ≠ 0 → ∃ h, A = .some ((t.1 : FieldP) / t.2.2 ^ 2) ((t.2.1 : FieldP) / t.2.2 ^ 3) h

/-- Doubling. -/
def jacDbl (t : Nat × Nat × Nat) : Nat × Nat × Nat :=
  let (x, y, z) := t
  let yy := fmul y y
  let s := fmul 4 (fmul x yy)
  let m := fmul 3 (fmul x x)
  let x' := fsub (fmul m m) (fmul 2 s)
  (x', fsub (fmul m (fsub s x')) (fmul 8 (fmul yy yy)), fmul 2 (fmul y z))

/-- Addition of the affine point `(u, v)`. -/
def jacAdd (u v : Nat) (t : Nat × Nat × Nat) : Nat × Nat × Nat :=
  let (x, y, z) := t
  let zz := fmul z z
  let h := fsub (fmul u zz) x
  let r := fsub (fmul v (fmul z zz)) y
  let hh := fmul h h
  let w := fmul x hh
  let x' := fsub (fsub (fmul r r) (fmul h hh)) (fmul 2 w)
  (x', fsub (fmul r (fsub w x')) (fmul y (fmul h hh)), fmul z h)

omit [Fact primeP.Prime] in
theorem some_of_eq {A : curve.Point} {a b c d : FieldP} {h : curve.Nonsingular a b} (hA : A = .some a b h) (e1 : a = c)
    (e2 : b = d) : ∃ h, A = .some c d h := by
  subst e1 e2; exact ⟨h, hA⟩

theorem jacStands_dbl {t : Nat × Nat × Nat} {A : curve.Point} (ht : JacStands t A) : JacStands (jacDbl t) (A + A) := by
  obtain ⟨x, y, z⟩ := t
  intro hz'
  simp only [jacDbl, cast_fmul, cast_fsub, Nat.cast_ofNat] at hz' ⊢
  have hz : (z : FieldP) ≠ 0 := fun h => hz' (by rw [h]; ring)
  have hy : (y : FieldP) ≠ 0 := fun h => hz' (by rw [h]; ring)
  obtain ⟨h, rfl⟩ := ht hz
  simp only at h ⊢
  have h2 := two_ne
  have hne : (y : FieldP) / z ^ 3 ≠ curve.negY (x / z ^ 2) (y / z ^ 3) := by
    rw [curve_negY]; intro e
    have : (2 : FieldP) * (y / z ^ 3) = 0 := by linear_combination e
    simp [h2, hy, hz] at this
  have hd : (y : FieldP) / z ^ 3 + y / z ^ 3 ≠ 0 := fun e => hne (by rw [curve_negY]; linear_combination e)
  refine some_of_eq (WeierstrassCurve.Affine.Point.add_self_of_Y_ne hne) ?_ ?_
  all_goals
    rw [WeierstrassCurve.Affine.slope_of_Y_ne rfl hne]
    simp only [WeierstrassCurve.Affine.addY, WeierstrassCurve.Affine.negAddY, curve_negY, WeierstrassCurve.Affine.addX]
    simp only [curve]
    have : (y : FieldP) / z ^ 3 - -(y / z ^ 3) = 2 * y / z ^ 3 := by ring
    rw [this]
    field_simp
    ring

theorem jacStands_add {u v : Nat} {t : Nat × Nat × Nat} {A : curve.Point} (hn : curve.Nonsingular (u : FieldP) (v : FieldP))
    (ht : JacStands t A) : JacStands (jacAdd u v t) (A + .some (u : FieldP) (v : FieldP) hn) := by
  obtain ⟨x, y, z⟩ := t
  intro hz'
  simp only [jacAdd, cast_fmul, cast_fsub, Nat.cast_ofNat] at hz' ⊢
  have hz : (z : FieldP) ≠ 0 := fun h => hz' (by rw [h]; ring)
  have hh : (u : FieldP) * (z * z) - x ≠ 0 := fun h => hz' (by rw [h]; ring)
  obtain ⟨h, rfl⟩ := ht hz
  simp only at h ⊢
  have hne : (x : FieldP) / z ^ 2 ≠ u := fun e => hh (by rw [← e]; field_simp; ring)
  have hd : (x : FieldP) / z ^ 2 - u ≠ 0 := sub_ne_zero.2 hne
  refine some_of_eq (WeierstrassCurve.Affine.Point.add_of_X_ne hne) ?_ ?_
  all_goals
    rw [WeierstrassCurve.Affine.slope_of_X_ne hne]
    simp only [WeierstrassCurve.Affine.addY, WeierstrassCurve.Affine.negAddY, curve_negY, WeierstrassCurve.Affine.addX]
    simp only [curve]
    have : ((y : FieldP) / z ^ 3 - v) / (x / z ^ 2 - u) = (v * (z * (z * z)) - y) / (z * (u * (z * z) - x)) := by
      rw [div_eq_div_iff hd (mul_ne_zero hz hh)]
      field_simp
      ring
    rw [this]
    clear this hd hne ht h
    obtain ⟨H, hx⟩ : ∃ H : FieldP, (x : FieldP) = u * (z * z) - H := ⟨u * (z * z) - x, by ring⟩
    rw [hx, sub_sub_cancel] at hh
    rw [hx, sub_sub_cancel]
    field_simp
    ring

/-- The bits of a multiple, most significant first, after the first. -/
def jacMul (u v : Nat) (bits : List Bool) : Nat × Nat × Nat :=
  bits.foldl (fun t b => if b then jacAdd u v (jacDbl t) else jacDbl t) (u, v, 1)

/-- The number the bits stand for. -/
def bitsNat (bits : List Bool) : Nat := bits.foldl (fun k b => 2 * k + b.toNat) 1

theorem jacStands_mul {u v : Nat} (hn : curve.Nonsingular (u : FieldP) (v : FieldP)) (bits : List Bool) :
    JacStands (jacMul u v bits) (bitsNat bits • (.some (u : FieldP) (v : FieldP) hn : curve.Point)) := by
  unfold jacMul bitsNat
  have start : JacStands (u, v, 1) (1 • (.some (u : FieldP) (v : FieldP) hn : curve.Point)) := fun _ => by
    rw [one_nsmul]; exact some_of_eq rfl (by simp) (by simp)
  generalize (u, v, 1) = t at start ⊢
  generalize 1 = k at start ⊢
  induction bits generalizing t k with
  | nil => exact start
  | cons b bits ih =>
    refine ih _ _ ?_
    have e : (2 * k + b.toNat) • (.some (u : FieldP) (v : FieldP) hn : curve.Point) =
        (k • .some (u : FieldP) (v : FieldP) hn + k • .some (u : FieldP) (v : FieldP) hn) +
          b.toNat • .some (u : FieldP) (v : FieldP) hn := by
      rw [add_nsmul, two_mul, add_nsmul]
    rw [e]
    cases b
    · simpa using jacStands_dbl start
    · simpa using jacStands_add hn (jacStands_dbl start)

omit [Fact primeP.Prime] in
theorem orderBits_nat : bitsNat orderBits = orderN - 1 := by decide +kernel

omit [Fact primeP.Prime] in
/-- The pass over `N − 1` ends at the generator's negative. -/
theorem orderBits_mul :
    (fun t : Nat × Nat × Nat => t.2.2 % primeP ≠ 0 ∧ t.1 % primeP = fmul genX.toNat (fmul t.2.2 t.2.2) ∧
      t.2.1 % primeP = fneg (fmul genY.toNat (fmul t.2.2 (fmul t.2.2 t.2.2)))) (jacMul genX.toNat genY.toNat orderBits) := by
  decide +kernel

theorem cast_fneg (a : Nat) : ((fneg a : Nat) : FieldP) = -a := by
  rw [← Int.cast_natCast, fneg_int, ZMod.intCast_mod]; simp

/-- `N` times the generator is the point at infinity. -/
theorem orderN_nsmul_generator {A : curve.Point} (h : Stands Point.generator A) : orderN • A = 0 := by
  obtain ⟨h, -⟩ | ⟨x, y, hn, hx, hy, hp, rfl⟩ := h
  · exact absurd h (by decide)
  obtain ⟨hgx, hgy⟩ : genX.toNat = x ∧ genY.toNat = y := by
    rw [Point.generator, Point.finite, Point.mk.injEq] at hp
    exact ⟨by rw [hp.1, toNat_ofNat_of_lt hx], by rw [hp.2.1, toNat_ofNat_of_lt hy]⟩
  subst hgx hgy
  obtain ⟨h1, h2, h3⟩ := orderBits_mul
  have hj := jacStands_mul hn orderBits
  rw [orderBits_nat] at hj
  generalize jacMul genX.toNat genY.toNat orderBits = t at h1 h2 h3 hj
  obtain ⟨a, b, c⟩ := t
  simp only at h1 h2 h3
  have hc : (c : FieldP) ≠ 0 := by
    rw [Ne, ZMod.natCast_eq_zero_iff]; exact fun hd => h1 (Nat.mod_eq_zero_of_dvd hd)
  obtain ⟨hm, e⟩ := hj hc
  have ha : (a : FieldP) = genX.toNat * (c * c) := by
    rw [← ZMod.natCast_mod a primeP, h2, cast_fmul, cast_fmul]
  have hb : (b : FieldP) = -(genY.toNat * (c * (c * c))) := by
    rw [← ZMod.natCast_mod b primeP, h3, cast_fneg, cast_fmul, cast_fmul, cast_fmul]
  have hneg : (orderN - 1) • (.some _ _ hn : curve.Point) = -.some _ _ hn := by
    rw [e, WeierstrassCurve.Affine.Point.neg_some, WeierstrassCurve.Affine.Point.some.injEq, curve_negY]
    simp only
    rw [ha, hb]
    exact ⟨by field_simp, by field_simp⟩
  rw [show orderN = orderN - 1 + 1 from rfl, add_nsmul, one_nsmul, hneg, neg_add_cancel]

/-- The multiples of the generator that are the point at infinity are those by multiples of `N`. -/
theorem nsmul_generator_eq_zero_iff {A : curve.Point} (h : Stands Point.generator A) (k : Nat) :
    k • A = 0 ↔ orderN ∣ k := by
  have : Fact orderN.Prime := ⟨orderN_prime⟩
  have hne : A ≠ 0 := fun e => absurd ((stands_infinity_iff h).2 e) (by decide)
  rw [← addOrderOf_dvd_iff_nsmul_eq_zero, addOrderOf_eq_prime (orderN_nsmul_generator h) hne]

/-! ### Multiples of points on the curve -/

/-- Every canonical point on the curve stands for a point of the group. -/
theorem exists_stands {p : Point} (hc : p.canonical = true) (h : p.onCurve) : ∃ A, Stands p A := by
  obtain ⟨x, y, inf⟩ := p
  simp only [Point.canonical, Bool.and_eq_true, decide_eq_true_eq, Bool.or_eq_true, Bool.not_eq_true', beq_iff_eq] at hc
  obtain ⟨⟨hx, hy⟩, hi⟩ := hc
  cases inf with
  | true =>
    obtain ⟨rfl, rfl⟩ : x = 0 ∧ y = 0 := by simpa using hi
    exact ⟨0, stands_infinity⟩
  | false =>
    have := stands_of_onCurve hx hy (by simpa [Point.onCurve] using h)
    simpa [Point.finite] using this

theorem stands_multiple {p : Point} {A : curve.Point} (h : Stands p A) (k : Nat) : Stands (multiple k p) (k • A) := by
  induction k with
  | zero => simpa [multiple] using stands_infinity
  | succ k ih =>
    rw [multiple, Function.iterate_succ_apply', add_nsmul, one_nsmul]
    exact stands_padd ih h

end

/-- Double-and-add gives the `k`-fold sum, the scalar reduced modulo `N` first (rule R168). -/
theorem smul_eq_multiple {p : Point} (hc : p.canonical = true) (h : p.onCurve) (k : Nat) :
    smul k p = multiple (k % orderN) p := by
  have : Fact primeP.Prime := ⟨primeP_prime⟩
  obtain ⟨A, hA⟩ := exists_stands hc h
  exact stands_inj (stands_smul hA) (stands_multiple hA _)

theorem generator_onCurve : Point.generator.onCurve := .inr (by decide)

/-- The `k`-fold sum of the generator is the point at infinity exactly for the multiples of `N` (rule R160). -/
theorem multiple_generator_eq_infinity_iff (k : Nat) : multiple k Point.generator = Point.infinity ↔ orderN ∣ k := by
  have : Fact primeP.Prime := ⟨primeP_prime⟩
  obtain ⟨A, hA⟩ := stands_generator
  rw [stands_infinity_iff (stands_multiple hA k), nsmul_generator_eq_zero_iff hA]

end Sys2Proof.Machine
end

