-- ==== Sys2Proof/Laws/PerInstr.lean ====
section
/-! SUPPORT. What is said of every instruction as syntax, one lemma per constructor. The family EncodingMatchesTable
holds the encoder, which is written from the formats of 30_encoding.md rule R72, against the masks and matches of
spec/opcode_table.json: "a word is the command when `(cmd & mask) = match`" (rule R75). -/

namespace Sys2Proof.Laws.EncodingMatchesTable

/-- The table's mask of the command: the opcode and every must-be-zero bit. -/
def tableMask : Instr → Word
  | .nop => 0xFFFFFFFF
  | .clrerr => 0xFFFFFFFF
  | .srst => 0xFFFFFFFF
  | .li _ _ => 0xFF0F0000
  | .ldw _ _ => 0xFF00FFFF
  | .stw _ _ => 0xFF00FFFF
  | .movw _ _ => 0xFF00FFFF
  | .kInit => 0xFFFFFFFF
  | .kF1600 => 0xFFFFFFFF
  | .kRound _ => 0xFFFF0000
  | .kAbsorb _ _ => 0xFF00FFFF
  | .kFinal => 0xFFFFFFFF
  | .kSqueeze _ => 0xFF0FFFFF
  | .kHash _ _ _ => 0xFF000FFF
  | .kLds _ => 0xFF0FFFFF
  | .kSts _ => 0xFF0FFFFF
  | .fpAdd _ _ _ => 0xFF000FFF
  | .fpSub _ _ _ => 0xFF000FFF
  | .fpMul _ _ _ => 0xFF000FFF
  | .fpNeg _ _ => 0xFF00FFFF
  | .fpInv _ _ => 0xFF00FFFF
  | .pset _ _ _ => 0xFF000FFF
  | .pinf _ => 0xFF0FFFFF
  | .pldg _ => 0xFF0FFFFF
  | .pget _ _ _ => 0xFF000FFF
  | .pmov _ _ => 0xFF00FFFF
  | .pneg _ _ => 0xFF00FFFF
  | .pdbl _ _ => 0xFF00FFFF
  | .padd _ _ _ => 0xFF000FFF
  | .pmul _ _ _ => 0xFF000FFF
  | .ecPubkey _ _ _ => 0xFF000FFF
  | .ecAddr _ _ _ => 0xFF000FFF
  | .ecKeygen _ => 0xFF0FFFFF
  | .aesKeyexp _ _ => 0xFF00FFFF
  | .aesEncb _ _ _ => 0xFF000FFF
  | .aesSetctr _ _ => 0xFF00FFFF
  | .aesCtrx _ _ _ => 0xFF000FFF
  | .aesClr => 0xFFFFFFFF

/-- The table's match of the command. -/
def tableMatch : Instr → Word
  | .nop => 0x00000000
  | .clrerr => 0x01000000
  | .srst => 0x02000000
  | .li _ _ => 0x03000000
  | .ldw _ _ => 0x04000000
  | .stw _ _ => 0x05000000
  | .movw _ _ => 0x06000000
  | .kInit => 0x10000000
  | .kF1600 => 0x11000000
  | .kRound _ => 0x12000000
  | .kAbsorb _ _ => 0x13000000
  | .kFinal => 0x14000000
  | .kSqueeze _ => 0x15000000
  | .kHash _ _ _ => 0x16000000
  | .kLds _ => 0x17000000
  | .kSts _ => 0x18000000
  | .fpAdd _ _ _ => 0x20000000
  | .fpSub _ _ _ => 0x21000000
  | .fpMul _ _ _ => 0x22000000
  | .fpNeg _ _ => 0x23000000
  | .fpInv _ _ => 0x24000000
  | .pset _ _ _ => 0x28000000
  | .pinf _ => 0x29000000
  | .pldg _ => 0x2A000000
  | .pget _ _ _ => 0x2B000000
  | .pmov _ _ => 0x2C000000
  | .pneg _ _ => 0x2D000000
  | .pdbl _ _ => 0x2E000000
  | .padd _ _ _ => 0x2F000000
  | .pmul _ _ _ => 0x30000000
  | .ecPubkey _ _ _ => 0x38000000
  | .ecAddr _ _ _ => 0x39000000
  | .ecKeygen _ => 0x3A000000
  | .aesKeyexp _ _ => 0x40000000
  | .aesEncb _ _ _ => 0x41000000
  | .aesSetctr _ _ => 0x42000000
  | .aesCtrx _ _ _ => 0x43000000
  | .aesClr => 0x44000000

/-- The word of the instruction is one the table's row takes. -/
def Statement (i : Instr) : Prop := encode i &&& tableMask i = tableMatch i

/-! ### The masks of the six formats on the encoder's word forms -/

theorem and_maskZ (op : BitVec 8) : wordABC op 0 0 0 &&& 0xFFFFFFFF = wordABC op 0 0 0 :=
  BitVec.and_allOnes

/-- The mask of a word cut into the fields of formats `Z` to `ABC`. -/
theorem and_wordABC (op : BitVec 8) (a b c a' b' c' : BitVec 4) (z : BitVec 12) :
    wordABC op a b c &&& (BitVec.allOnes 8 ++ a' ++ b' ++ c' ++ z) = wordABC op (a &&& a') (b &&& b') (c &&& c') := by
  change ((op ++ a ++ b ++ c ++ 0#12 : BitVec (8 + 4 + 4 + 4 + 12)) &&& (BitVec.allOnes 8 ++ a' ++ b' ++ c' ++ z)) = _
  rw [BitVec.and_append, BitVec.and_append, BitVec.and_append, BitVec.and_append, BitVec.and_allOnes, BitVec.zero_and]
  rfl

/-- The mask of a word cut into the fields of formats `AI` and `I`, the immediate masked out. -/
theorem and_wordAI (op : BitVec 8) (a a' b' : BitVec 4) (imm : Half) :
    wordAI op a imm &&& (BitVec.allOnes 8 ++ a' ++ b' ++ 0#16) = wordABC op (a &&& a') 0 0 := by
  change ((op ++ a ++ 0#4 ++ imm : BitVec (8 + 4 + 4 + 16)) &&& (BitVec.allOnes 8 ++ a' ++ b' ++ 0#16)) = _
  rw [BitVec.and_append, BitVec.and_append, BitVec.and_append, BitVec.and_allOnes, BitVec.zero_and, BitVec.and_zero]
  apply BitVec.eq_of_toNat_eq
  rw [toNat_wordABC]
  simp only [toNat_append_add, BitVec.toNat_ofNat, show BitVec.toNat (0 : BitVec 4) = 0 from rfl]
  omega

theorem and_maskABC (op : BitVec 8) (a b c : BitVec 4) : wordABC op a b c &&& 0xFF000FFF = wordABC op 0 0 0 := by
  have h := and_wordABC op a b c 0#4 0#4 0#4 (BitVec.allOnes 12)
  simp only [BitVec.and_zero] at h
  exact h

theorem and_maskAB (op : BitVec 8) (a b : BitVec 4) : wordABC op a b 0 &&& 0xFF00FFFF = wordABC op 0 0 0 := by
  have h := and_wordABC op a b 0#4 0#4 0#4 (BitVec.allOnes 4) (BitVec.allOnes 12)
  simp only [BitVec.and_zero, BitVec.zero_and] at h
  exact h

theorem and_maskA (op : BitVec 8) (a : BitVec 4) : wordABC op a 0 0 &&& 0xFF0FFFFF = wordABC op 0 0 0 := by
  have h := and_wordABC op a 0#4 0#4 0#4 (BitVec.allOnes 4) (BitVec.allOnes 4) (BitVec.allOnes 12)
  simp only [BitVec.and_zero, BitVec.zero_and] at h
  exact h

theorem and_maskAI (op : BitVec 8) (a : BitVec 4) (imm : Half) : wordAI op a imm &&& 0xFF0F0000 = wordABC op 0 0 0 := by
  have h := and_wordAI op a 0#4 (BitVec.allOnes 4) imm
  simp only [BitVec.and_zero] at h
  exact h

theorem and_maskI (op : BitVec 8) (imm : Half) : wordAI op 0 imm &&& 0xFFFF0000 = wordABC op 0 0 0 := by
  have h := and_wordAI op 0#4 (BitVec.allOnes 4) (BitVec.allOnes 4) imm
  simp only [BitVec.zero_and] at h
  exact h

/-! ### One lemma per constructor -/

theorem nop : Statement .nop := and_maskZ _
theorem clrerr : Statement .clrerr := and_maskZ _
theorem srst : Statement .srst := and_maskZ _
theorem li (a : RReg) (imm : Half) : Statement (.li a imm) := and_maskAI _ _ _
theorem ldw (a : WReg) (b : RReg) : Statement (.ldw a b) := and_maskAB _ _ _
theorem stw (a : WReg) (b : RReg) : Statement (.stw a b) := and_maskAB _ _ _
theorem movw (a : WReg) (b : WReg) : Statement (.movw a b) := and_maskAB _ _ _
theorem kInit : Statement .kInit := and_maskZ _
theorem kF1600 : Statement .kF1600 := and_maskZ _
theorem kRound (imm : Half) : Statement (.kRound imm) := and_maskI _ _
theorem kAbsorb (a : RReg) (b : RReg) : Statement (.kAbsorb a b) := and_maskAB _ _ _
theorem kFinal : Statement .kFinal := and_maskZ _
theorem kSqueeze (a : WReg) : Statement (.kSqueeze a) := and_maskA _ _
theorem kHash (a : WReg) (b : RReg) (c : RReg) : Statement (.kHash a b c) := and_maskABC _ _ _ _
theorem kLds (a : RReg) : Statement (.kLds a) := and_maskA _ _
theorem kSts (a : RReg) : Statement (.kSts a) := and_maskA _ _
theorem fpAdd (a : WReg) (b : WReg) (c : WReg) : Statement (.fpAdd a b c) := and_maskABC _ _ _ _
theorem fpSub (a : WReg) (b : WReg) (c : WReg) : Statement (.fpSub a b c) := and_maskABC _ _ _ _
theorem fpMul (a : WReg) (b : WReg) (c : WReg) : Statement (.fpMul a b c) := and_maskABC _ _ _ _
theorem fpNeg (a : WReg) (b : WReg) : Statement (.fpNeg a b) := and_maskAB _ _ _
theorem fpInv (a : WReg) (b : WReg) : Statement (.fpInv a b) := and_maskAB _ _ _
theorem pset (a : QReg) (b : WReg) (c : WReg) : Statement (.pset a b c) := and_maskABC _ _ _ _
theorem pinf (a : QReg) : Statement (.pinf a) := and_maskA _ _
theorem pldg (a : QReg) : Statement (.pldg a) := and_maskA _ _
theorem pget (a : WReg) (b : WReg) (c : QReg) : Statement (.pget a b c) := and_maskABC _ _ _ _
theorem pmov (a : QReg) (b : QReg) : Statement (.pmov a b) := and_maskAB _ _ _
theorem pneg (a : QReg) (b : QReg) : Statement (.pneg a b) := and_maskAB _ _ _
theorem pdbl (a : QReg) (b : QReg) : Statement (.pdbl a b) := and_maskAB _ _ _
theorem padd (a : QReg) (b : QReg) (c : QReg) : Statement (.padd a b c) := and_maskABC _ _ _ _
theorem pmul (a : QReg) (b : WReg) (c : QReg) : Statement (.pmul a b c) := and_maskABC _ _ _ _
theorem ecPubkey (a : QReg) (b : WReg) (c : RReg) : Statement (.ecPubkey a b c) := and_maskABC _ _ _ _
theorem ecAddr (a : WReg) (b : RReg) (c : RReg) : Statement (.ecAddr a b c) := and_maskABC _ _ _ _
theorem ecKeygen (a : WReg) : Statement (.ecKeygen a) := and_maskA _ _
theorem aesKeyexp (a : RReg) (b : RReg) : Statement (.aesKeyexp a b) := and_maskAB _ _ _
theorem aesEncb (a : RReg) (b : RReg) (c : RReg) : Statement (.aesEncb a b c) := and_maskABC _ _ _ _
theorem aesSetctr (a : RReg) (b : RReg) : Statement (.aesSetctr a b) := and_maskAB _ _ _
theorem aesCtrx (a : RReg) (b : RReg) (c : RReg) : Statement (.aesCtrx a b c) := and_maskABC _ _ _ _
theorem aesClr : Statement .aesClr := and_maskZ _

end Sys2Proof.Laws.EncodingMatchesTable
end

