-- ==== Sys2Proof/Tests/Slice0.lean ====
section
/-! SUPPORT. The model's own tests. Expected values come from the vectors of 95_test_vectors.md (cited as `V<n>`) and
from the encodings of 30_encoding.md; the last part holds, for every obligation with hypotheses, states and operands that
meet them. -/

namespace Sys2Proof.Tests

open Sys2Proof.Machine

-- One theorem after another: a thread for each of these kernel evaluations would reserve too much memory.
set_option Elab.async false

/-! ### Helpers -/

/-- The state after the step that runs one word of the opcode table. -/
def runWord (s : State) (w : Nat) : State :=
  match step (s.withFetchWord 32 w) with
  | .next t => t
  | .fault _ => s
  | .refused _ => s

/-- Reset, with values in some `R` and `W` registers. -/
def withRegs (rs : List (Fin 8 × Nat)) (ws : List (Fin 8 × Nat)) : State :=
  let s := rs.foldl (fun s p => s.setR p.1 (BitVec.ofNat 16 p.2)) State.reset
  ws.foldl (fun s p => s.setW p.1 (BitVec.ofNat 256 p.2)) s

/-- Bytes put into `BUF`: the `n` bytes of a numeral read left to right. -/
def withBytes (off n v : Nat) (s : State) : State := s.memWrite off (beBytes n v)

/-- A point put into a point register. -/
def withPoint (a : QReg) (p : Point) (s : State) : State := s.setQ a p

/-- A state with the latch set. -/
def faulted : State := { State.reset with err := true, errcode := 0x03, errcmd := 0x04000000 }

/-- A state with the host's actions given. -/
def withHost (acts : List HostAction) (s : State) : State := { s with host := acts }

/-- The key `K1` of V55 in `BUF[0..15]`. -/
def k1 : Nat := 0x000102030405060708090a0b0c0d0e0f

/-- A state with an expanded key: the zero key's. -/
def keyed (s : State) : State := { s with rk := keyExpand (Vector.replicate 16 0), kvalid := true }

/-- An answer of the entropy source: the 32 bytes of a number. -/
def draw (v : Nat) : Draw := vecOf 32 (byteAt (beBytes 32 v))

/-! ### WellFormed -/

/-- The one check of WellFormed refuses the first index it must refuse, and the last; it takes the two ends of the
legal range. -/
theorem test_wellformed_round_index :
    (Instr.kRound 24).wf = false ∧ (Instr.kRound 65535).wf = false ∧ (Instr.kRound 0).wf = true ∧
      (Instr.kRound 23).wf = true := by decide

/-! ### Decoding: words written out field by field from 30_encoding.md rules R72 and R75 (op, a, b, c or imm16, mbz) -/

theorem test_decode_system : ∀ p ∈ ([
    (0b00000000_0000_0000_0000_000000000000, .nop),
    (0b00000001_0000_0000_0000_000000000000, .clrerr),
    (0b00000010_0000_0000_0000_000000000000, .srst),
    (0b00000011_0101_0000_1000_000000000001, .li 5 0x8001),
    (0b00000100_0110_0001_0000_000000000000, .ldw 6 1),
    (0b00000101_0010_0111_0000_000000000000, .stw 2 7),
    (0b00000110_0100_0011_0000_000000000000, .movw 4 3)] : List (Word × Instr)),
    decode p.1 = .ok p.2 ∧ encode p.2 = p.1 := by decide

theorem test_decode_keccak : ∀ p ∈ ([
    (0b00010000_0000_0000_0000_000000000000, .kInit),
    (0b00010001_0000_0000_0000_000000000000, .kF1600),
    (0b00010010_0000_0000_0000_000000010111, .kRound 23),
    (0b00010011_0001_0110_0000_000000000000, .kAbsorb 1 6),
    (0b00010100_0000_0000_0000_000000000000, .kFinal),
    (0b00010101_0111_0000_0000_000000000000, .kSqueeze 7),
    (0b00010110_0001_0010_0100_000000000000, .kHash 1 2 4),
    (0b00010111_0011_0000_0000_000000000000, .kLds 3),
    (0b00011000_0101_0000_0000_000000000000, .kSts 5)] : List (Word × Instr)),
    decode p.1 = .ok p.2 ∧ encode p.2 = p.1 := by decide

theorem test_decode_field : ∀ p ∈ ([
    (0b00100000_0001_0010_0011_000000000000, .fpAdd 1 2 3),
    (0b00100001_0100_0101_0110_000000000000, .fpSub 4 5 6),
    (0b00100010_0111_0000_0001_000000000000, .fpMul 7 0 1),
    (0b00100011_0010_0100_0000_000000000000, .fpNeg 2 4),
    (0b00100100_0001_0111_0000_000000000000, .fpInv 1 7)] : List (Word × Instr)),
    decode p.1 = .ok p.2 ∧ encode p.2 = p.1 := by decide

theorem test_decode_points : ∀ p ∈ ([
    (0b00101000_0011_0110_0101_000000000000, .pset 3 6 5),
    (0b00101001_0010_0000_0000_000000000000, .pinf 2),
    (0b00101010_0001_0000_0000_000000000000, .pldg 1),
    (0b00101011_0111_0100_0011_000000000000, .pget 7 4 3),
    (0b00101100_0001_0010_0000_000000000000, .pmov 1 2),
    (0b00101101_0011_0000_0000_000000000000, .pneg 3 0),
    (0b00101110_0000_0001_0000_000000000000, .pdbl 0 1),
    (0b00101111_0001_0010_0011_000000000000, .padd 1 2 3),
    (0b00110000_0010_0111_0001_000000000000, .pmul 2 7 1)] : List (Word × Instr)),
    decode p.1 = .ok p.2 ∧ encode p.2 = p.1 := by decide

theorem test_decode_keys : ∀ p ∈ ([
    (0b00111000_0011_0111_0101_000000000000, .ecPubkey 3 7 5),
    (0b00111001_0110_0001_0100_000000000000, .ecAddr 6 1 4),
    (0b00111010_0011_0000_0000_000000000000, .ecKeygen 3)] : List (Word × Instr)),
    decode p.1 = .ok p.2 ∧ encode p.2 = p.1 := by decide

theorem test_decode_cipher : ∀ p ∈ ([
    (0b01000000_0010_0101_0000_000000000000, .aesKeyexp 2 5),
    (0b01000001_0010_0001_0111_000000000000, .aesEncb 2 1 7),
    (0b01000010_0110_0011_0000_000000000000, .aesSetctr 6 3),
    (0b01000011_0011_0010_0100_000000000000, .aesCtrx 3 2 4),
    (0b01000100_0000_0000_0000_000000000000, .aesClr)] : List (Word × Instr)),
    decode p.1 = .ok p.2 ∧ encode p.2 = p.1 := by decide

/-- Illegal words by cause: an opcode of each gap of rule R76, an mbz bit of each format, a register number just outside
each file in each field, the first illegal round index (V29, V83, V90, V91). -/
theorem test_decode_refusals :
    ([0x07000000, 0x0F000000, 0x19000000, 0x1F000000, 0x25000000, 0x27000000, 0x31000000, 0x37000000, 0x3B000000,
        0x3F000000, 0x45000000, 0xFFFFFFFF] : List Word).map decode = List.replicate 12 (.error .unknownOpcode) ∧
    ([0x00000001, 0x00800000, 0x15080000, 0x04008000, 0x22201001, 0x03010000, 0x12010000] : List Word).map decode =
      List.replicate 7 (.error .mustBeZero) ∧
    ([0x03800000, 0x04080000, 0x20008000, 0x29400000, 0x2C040000, 0x2F004000, 0x2F401000] : List Word).map decode =
      List.replicate 7 (.error .registerNumber) ∧
    ([0x12000018, 0x1200FFFF] : List Word).map decode = List.replicate 2 (.error .roundIndex) := ⟨rfl, rfl, rfl, rfl⟩

/-! ### One step of each command -/

theorem test_nop : (runWord { State.reset with cc := 5 } 0x00000000) = { State.reset with cc := 6 } := by decide

theorem test_clrerr : runWord faulted 0x01000000 = { State.reset with cc := 1, cmd := 0x01000000 } := by decide

theorem test_srst_from_a_faulted_state :
    runWord { faulted with cc := 9, buf := [(7, 1)], kfin := true } 0x02000000 = { State.reset with cmd := 0x02000000 } := by
  decide

/-- V11. -/
theorem test_li : (runWord State.reset 0x0370FFFF).r[7] = 65535 ∧ (runWord State.reset 0x03100088).r[1] = 136 := by decide

/-- V12. -/
theorem test_ldw_big_endian : (runWord (withBytes 0 32 0x0102 State.reset) 0x04000000).w[0] = 0x0102 := by decide +kernel

/-- V15. -/
theorem test_ldw_range :
    (runWord (withRegs [(0, 4064)] []) 0x04000000).err = false ∧
    (let t := runWord (withRegs [(0, 4065)] []) 0x04000000
     t.err = true ∧ t.errcode = 0x03 ∧ t.errcmd = 0x04000000 ∧ t.cc = 0) := by decide +kernel

/-- V12: the first byte is the most significant; `BUF[1]` holds `0x00` and takes no entry. -/
theorem test_stw_big_endian :
    (runWord (withRegs [] [(0, 0x0100000000000000000000000000000000000000000000000000000000000020)]) 0x05000000).buf =
      [(0, 0x01), (31, 0x20)] := by decide +kernel

/-- V13. -/
theorem test_movw : (runWord (withRegs [] [(1, 7)]) 0x06010000).w = (withRegs [] [(0, 7), (1, 7)]).w := by decide

theorem test_kInit :
    (let t := runWord { State.reset with ks := Vector.replicate 25 3, kpos := 9, kfin := true } 0x10000000
     t.ks = Vector.replicate 25 0 ∧ t.kpos = 0 ∧ t.kfin = false) := by decide +kernel

/-- V27, the first and the last lane, and the phase untouched. -/
theorem test_kF1600 :
    (let t := runWord { State.reset with kpos := 7, kfin := true } 0x11000000
     nth t.ks 0 = 0xf1258f7940e1dde7 ∧ nth t.ks 24 = 0xeaf1ff7b5ceca249 ∧ t.kpos = 7 ∧ t.kfin = true) := by
  decide +kernel

/-- V26: the second round, from the state V25 gives. -/
theorem test_kRound :
    (let t := runWord { State.reset with ks := vecOf 25 fun i => if i = 0 then 1 else 0 } 0x12000001
     nth t.ks 0 = 0x8083 ∧ nth t.ks 4 = 0x0000100000008000 ∧ nth t.ks 22 = 0x0000010000000004 ∧ nth t.ks 24 = 4) := by
  decide +kernel

/-- V29. -/
theorem test_kRound_index :
    (let t := runWord State.reset 0x12000018
     t.errcode = 0x01 ∧ t.errcmd = 0x12000018 ∧ t.cc = 0) := by decide

/-- V51. -/
theorem test_kAbsorb :
    (let t := runWord (withBytes 0 3 0x616263 (withRegs [(1, 3)] [])) 0x13010000
     nth t.ks 0 = 0x0000000000636261 ∧ t.kpos = 3) := by decide +kernel

/-- V52: the phase is checked first, also for length 0. -/
theorem test_kAbsorb_phase :
    (let t := runWord { State.reset with kfin := true } 0x13000000
     t.errcode = 0x02 ∧ t.errcmd = 0x13000000) := by decide

/-- V51: the final permutation for "abc". -/
theorem test_kFinal :
    (let t := runWord { State.reset with ks := vecOf 25 (fun i => if i = 0 then 0x636261 else 0), kpos := 3 } 0x14000000
     nth t.ks 0 = 0x4fa945ea7a65034e ∧ nth t.ks 3 = 0x456c2da18ff544ec ∧ t.kpos = 0 ∧ t.kfin = true) := by
  decide +kernel

/-- V51 and V41: digest byte 0 is the low byte of lane 0 and the high byte of the register. -/
theorem test_kSqueeze :
    (runWord { State.reset with kfin := true, ks := vecOf 25 fun i =>
      [0x4fa945ea7a65034e, 0x67d6c826a87bd4c7, 0x36a0643ae3e6d1c0, 0x456c2da18ff544ec].getD i 0 } 0x15000000).w[0] =
      0x4e03657aea45a94fc7d47ba826c8d667c0d1e6e33a64a036ec44f58fa12d6c45 := by decide +kernel

/-- V52. -/
theorem test_kSqueeze_phase :
    (let t := runWord State.reset 0x15000000
     t.errcode = 0x02 ∧ t.errcmd = 0x15000000 ∧ t.cc = 0) := by decide

/-- V1, with the offset of V53: the empty message at the end of the buffer. -/
theorem test_kHash_empty :
    (let t := runWord (withRegs [(0, 4096)] []) 0x16001000
     t.w[0] = 0xc5d2460186f7233c927e7db2dcc703c0e500b653ca82273b7bfad8045d85a470 ∧ t.kfin = true ∧ t.kpos = 0) := by
  decide +kernel

/-- V28. -/
theorem test_kLds : nth (runWord (withBytes 0 8 0x0102030405060708 State.reset) 0x17000000).ks 0 = 0x0807060504030201 := by
  decide +kernel

/-- V28, lane 0; and the last byte of lane 24. -/
theorem test_kSts :
    (let t := runWord { State.reset with ks := vecOf 25 fun i =>
        if i = 0 then 0xf1258f7940e1dde7 else if i = 24 then 0xea00000000000000 else 0 } 0x18000000
     t.memRead 0 9 = beBytes 9 0xe7dde140798f25f100 ∧ Memory.read t.buf 199 = 0xea) := by decide +kernel

/-- V60a: the operands are reduced first. -/
theorem test_fpAdd : (runWord (withRegs [] [(1, 2 ^ 256 - 1), (2, 2 ^ 256 - 1)]) 0x20012000).w[0] = 0x2000007a0 := by
  decide +kernel

/-- V60b. -/
theorem test_fpSub :
    (runWord (withRegs [] [(1, 0), (2, 2 ^ 256 - 1)]) 0x21012000).w[0] =
      0xfffffffffffffffffffffffffffffffffffffffffffffffffffffffdfffff85f := by decide +kernel

/-- V60c. -/
theorem test_fpMul :
    (runWord (withRegs [] [(1, genX.toNat), (2, genY.toNat)]) 0x22012000).w[0] =
      0xfd3dc529c6eb60fb9d166034cf3c1a5a72324aa9dfd3428a56d7e1ce0179fd9b := by decide +kernel

/-- V60d: `−0` is 0. -/
theorem test_fpNeg :
    (runWord State.reset 0x23010000).w[0] = 0 ∧
    (runWord (withRegs [] [(1, genX.toNat)]) 0x23010000).w[0] =
      0x8641998106234453aa5f9d6a3178f4f8fd640324d231d726a60d7ea3e907e497 := by decide +kernel

/-- V60e. -/
theorem test_fpInv :
    (runWord (withRegs [] [(1, genX.toNat)]) 0x24010000).w[0] =
      0x237afdf1d2938d86870aaeb8ad77626a67b8e794abfb076be61d003687ca9ef6 := by decide +kernel

/-- V60e: `P` is 0 modulo `P`. -/
theorem test_fpInv_zero :
    (let t := runWord (withRegs [] [(0, primeP), (1, 5)]) 0x24100000
     t.errcode = 0x12 ∧ t.errcmd = 0x24100000 ∧ t.w[1] = 5 ∧ t.cc = 0) := by decide +kernel

/-- V81. -/
theorem test_pset :
    (runWord (withRegs [] [(0, primeP + 5), (1, 2 ^ 256 - 1)]) 0x28001000).q[0] = Point.finite 5 0x1000003d0 := by
  decide +kernel

theorem test_pinf :
    (let t := runWord (withPoint 2 Point.generator State.reset) 0x29200000
     t.q[2] = Point.infinity ∧ t.pinf = true) := by decide +kernel

/-- V70. -/
theorem test_pldg :
    (let t := runWord { State.reset with pinf := true } 0x2A000000
     t.q[0].x = 0x79be667ef9dcbbac55a06295ce870b07029bfcdb2dce28d959f2815b16f81798 ∧
     t.q[0].y = 0x483ada7726a3c4655da4fbfc0e1108a8fd17b448a68554199c47d08ffb10d4b8 ∧ t.pinf = false) := by decide +kernel

/-- V82: with both destinations the same register, `y` stays; the flag is the point's. -/
theorem test_pget :
    (runWord (withPoint 0 Point.generator State.reset) 0x2B110000).w[1] = genY ∧
      (runWord State.reset 0x2B010000).pinf = true := by decide +kernel

theorem test_pmov :
    (let t := runWord (withPoint 1 Point.generator State.reset) 0x2C210000
     t.q[2] = Point.generator ∧ t.q[1] = Point.generator ∧ t.q[0] = Point.infinity) := by decide +kernel

/-- V76; V80: `−(5, 0)` is `(5, 0)`. -/
theorem test_pneg :
    (runWord (withPoint 1 Point.generator State.reset) 0x2D010000).q[0] =
      ⟨genX, 0xb7c52588d95c3b9aa25b0403f1eef75702e84bb7597aabe663b82f6f04ef2777, false⟩ ∧
    (runWord (withPoint 1 (Point.finite 5 0) State.reset) 0x2D010000).q[0] = Point.finite 5 0 := by decide +kernel

/-- V71. -/
theorem test_pdbl :
    (runWord (withPoint 1 Point.generator State.reset) 0x2E010000).q[0] =
      ⟨0xc6047f9441ed7d6d3045406e95c07cd85c778e4b8cef3ca7abac09b95c709ee5,
       0x1ae168fea63dc339a3c58419466ceaeef7f632653266d0e1236431a950cfe52a, false⟩ := by decide +kernel

/-- V80: a point with `y = 0` is its own inverse. -/
theorem test_pdbl_order_two :
    (let t := runWord (withPoint 1 (Point.finite 5 0) State.reset) 0x2E010000
     t.q[0] = Point.infinity ∧ t.pinf = true) := by decide +kernel

/-- V80: `(1, 2) + (3, 4)`, slope 1. -/
theorem test_padd :
    (runWord (withPoint 1 (Point.finite 1 2) (withPoint 2 (Point.finite 3 4) State.reset)) 0x2F012000).q[0] =
      Point.finite (primeP - 3) 2 := by decide +kernel

/-- V80: equal abscissae, different ordinates; V79: infinity is neutral on either side. -/
theorem test_padd_infinity :
    (runWord (withPoint 1 (Point.finite 5 1) (withPoint 2 (Point.finite 5 2) State.reset)) 0x2F012000).q[0] =
      Point.infinity ∧
    (runWord (withPoint 1 Point.generator State.reset) 0x2F012000).q[0] = Point.generator ∧
    (runWord (withPoint 1 Point.generator State.reset) 0x2F021000).q[0] = Point.generator := by decide +kernel

/-- V75: `7G`. -/
theorem test_pmul :
    (runWord (withPoint 0 Point.generator (withRegs [] [(0, 7)])) 0x30100000).q[1] =
      ⟨0x5cbdf0646e5db4eaa398f365f2ea7a0e3d419b7e0330e39ce92bddedcac4f9bc,
       0x6aebca40ba255960a3178d6d861a54dba813d0b813fde7b5a5082628087264da, false⟩ := by decide +kernel

/-- V2, V79: the scalar is reduced modulo `N`. -/
theorem test_pmul_order :
    (runWord (withPoint 0 Point.generator (withRegs [] [(0, orderN)])) 0x30100000).q[1] = Point.infinity ∧
    (runWord (withPoint 0 Point.generator (withRegs [] [(0, orderN + 1)])) 0x30100000).q[1] = Point.generator := by
  decide +kernel

/-- V31: the public key of 2. -/
theorem test_ecPubkey :
    (let t := runWord (withRegs [(1, 4031)] [(0, 2)]) 0x38001000
     Memory.read t.buf 4031 = 0x04 ∧
     t.memRead 4032 32 = beBytes 32 0xc6047f9441ed7d6d3045406e95c07cd85c778e4b8cef3ca7abac09b95c709ee5 ∧
     t.memRead 4064 32 = beBytes 32 0x1ae168fea63dc339a3c58419466ceaeef7f632653266d0e1236431a950cfe52a ∧
     t.pinf = false ∧ t.cc = 1) := by decide +kernel

/-- V36: the range is checked before the key. -/
theorem test_ecPubkey_faults :
    (runWord (withRegs [(1, 64)] []) 0x38001000).errcode = 0x10 ∧
    (runWord (withRegs [(1, 64)] [(0, orderN)]) 0x38001000).errcode = 0x10 ∧
    (runWord (withRegs [(1, 4032)] []) 0x38001000).errcode = 0x03 := by decide +kernel

/-- V30: the address of private key 1. -/
theorem test_ecAddr :
    (runWord (withBytes 0 64 (genX.toNat * 2 ^ 256 + genY.toNat) (withRegs [(1, 64)] [])) 0x39001000).w[0] =
      0x7e5f4552091a69125d5dfcb7b8c2659029395bdf := by decide +kernel

/-- V37. -/
theorem test_ecAddr_length :
    (runWord (withRegs [(1, 63)] []) 0x39001000).errcode = 0x11 ∧
    (runWord (withRegs [(1, 65)] []) 0x39001000).errcode = 0x11 := by decide

/-- V35: three answers out of range, the fourth is taken, the fifth is left. -/
theorem test_ecKeygen :
    (let t := runWord { State.reset with draws := [draw 0, draw orderN, draw (2 ^ 256 - 1), draw (orderN - 1), draw 7] }
        0x3A300000
     t.w[3] = 0xfffffffffffffffffffffffffffffffebaaedce6af48a03bbfd25e8cd0364140 ∧ t.draws = [draw 7] ∧ t.cc = 1 ∧
     t.busy = false) := by decide +kernel

/-- With no answer in range the command stays at the port and is not counted. -/
theorem test_ecKeygen_waits :
    (let t := runWord { State.reset with draws := [draw 0] } 0x3A300000
     t.busy = true ∧ t.cc = 0 ∧ t.err = false) := by decide +kernel

/-- V55: the last round key of `K1`. -/
theorem test_aesKeyexp :
    (let t := runWord (withBytes 0 16 k1 (withRegs [(1, 16)] [])) 0x40010000
     (keyAt t.rk 10).toList = beBytes 16 0x13111d7fe3944a17f307a78b4d2b30c5 ∧ t.kvalid = true) := by decide +kernel

/-- V67. -/
theorem test_aesKeyexp_length : (runWord (withRegs [(1, 15)] []) 0x40010000).errcode = 0x20 := by decide

/-- V61: in place, under the zero key. -/
theorem test_aesEncb :
    (runWord (keyed (withRegs [(1, 16)] [])) 0x41001000).memRead 0 16 = beBytes 16 0x66e94bd4ef8a2c3b884cfa59ca342b2e := by
  decide +kernel

/-- V67: the phase before the length. -/
theorem test_aesEncb_faults :
    (runWord (withRegs [(1, 15)] []) 0x41001000).errcode = 0x02 ∧
    (runWord (keyed (withRegs [(2, 17)] [])) 0x41002000).errcode = 0x21 := by decide +kernel

/-- V64's counter, big-endian, without a key. -/
theorem test_aesSetctr :
    (runWord (withBytes 15 1 0xff (withBytes 0 1 0x80 (withRegs [(1, 16)] []))) 0x42010000).ctr =
      0x800000000000000000000000000000ff := by decide +kernel

/-- V67. -/
theorem test_aesSetctr_length : (runWord (withRegs [(1, 15)] []) 0x42010000).errcode = 0x22 := by decide

/-- V61 (`E(0)` under the zero key) as keystream: 3 bytes of it, and the counter wraps from its last value (V63). -/
theorem test_aesCtrx :
    (runWord (keyed (withRegs [(2, 3)] [])) 0x43002000).memRead 0 4 = beBytes 4 0x66e94b00 ∧
    (runWord { keyed (withRegs [(2, 1)] []) with ctr := BitVec.allOnes 128 } 0x43002000).ctr = 0 := by decide +kernel

/-- V65: length 0. -/
theorem test_aesCtrx_empty :
    (let t := runWord { keyed State.reset with ctr := 5 } 0x43000000
     t.ctr = 5 ∧ t.cc = 1 ∧ t.buf = []) := by decide +kernel

theorem test_aesClr :
    (let t := runWord { keyed State.reset with ctr := 5 } 0x44000000
     t.rk = zeroKeys ∧ t.ctr = 0 ∧ t.kvalid = false) := by decide +kernel

/-- V92: while `ERR = 1` an illegal `CLRERR` and a `NOP` are discarded. -/
theorem test_discard :
    runWord faulted 0x01000001 = { faulted with cmd := 0x01000001 } ∧ runWord faulted 0 = faulted := by decide

/-! ### Witnesses: what the hypotheses of each obligation ask for is met, clause by clause, at the ends of its ranges -/

theorem witness_EncodeThenDecodeReturnsTheCommand :
    WellFormed (.kRound 23) ∧ WellFormed (.kRound 0) ∧ WellFormed (.li 7 65535) ∧ WellFormed (.padd 3 3 3) := by decide

theorem witness_LegalWordIsTheEncodingOfItsCommand : decode 0x12000017 = .ok (.kRound 23) := by decide

/-- A host about to present a word to an engine with a clear latch. -/
def presents (w : Word) : State := withHost [.command w] State.reset

/-- One word for each of (a) to (d) of rule R74. -/
theorem witness_IllegalWordsAreThoseTheTableForbids :
    (∀ w ∈ ([0x07000000, 0x00000001, 0x04800000, 0x29400000, 0x12000018] : List Word), illegalByTable w) ∧
    (presents 0x07000000).err = false ∧ (presents 0x07000000).busy = false ∧
    (presents 0x07000000).host = .command 0x07000000 :: [] := by
  refine ⟨?_, by decide, by decide, rfl⟩
  simp only [List.forall_mem_cons]
  refine ⟨.inl (by decide), .inr ⟨⟨0x00, .Z, []⟩, by decide⟩, .inr ⟨⟨0x04, .AB, [8, 8]⟩, by decide⟩,
    .inr ⟨⟨0x29, .A, [4]⟩, by decide⟩, .inr ⟨⟨0x12, .I, []⟩, by decide⟩, by simp⟩

theorem witness_WorkedEncodings :
    (presents 0x2F401000).err = false ∧ (presents 0x2F401000).busy = false ∧
      (presents 0x2F401000).host = .command 0x2F401000 :: [] := ⟨rfl, rfl, rfl⟩

/-- A clear latch; a set latch with `CLRERR`, with `SRST`; a word of the opcode table. -/
theorem witness_StepRunsTheDecodedCommand :
    ((presents 0x03100088).busy = false ∧ (presents 0x03100088).host = .command 0x03100088 :: [] ∧
      (presents 0x03100088).err = false ∧ decode 0x03100088 = .ok (.li 1 136)) ∧
    (let s := withHost [.command 0x01000000] faulted
     s.busy = false ∧ s.host = .command 0x01000000 :: [] ∧ s.err = true ∧ decode 0x01000000 = .ok .clrerr) ∧
    (let s := withHost [.command 0x02000000] faulted
     s.busy = false ∧ s.host = .command 0x02000000 :: [] ∧ s.err = true ∧ decode 0x02000000 = .ok .srst) ∧
    State.reset.err = false ∧ decodeTableWord 32 0x12000017 = some (.kRound 23) := by decide

theorem witness_DiscardedCommandChangesNothing :
    (let s := withHost [.command 0x01000001] faulted
     s.busy = false ∧ s.host = .command 0x01000001 :: [] ∧ s.err = true) ∧
    (0x01000001 : Word) ≠ 0x01000000 ∧ (0x01000001 : Word) ≠ 0x02000000 := by decide

theorem reset_points : State.reset.pointsCanonical := by unfold State.pointsCanonical; decide +kernel

/-- The invariant holds of a state with the latch set, whatever the host does next. -/
theorem inv_faulted (acts : List HostAction) : Inv (withHost acts faulted) :=
  ⟨rfl, rfl, reset_points, ⟨.bufferRange, rfl⟩, rfl, fun h => nomatch h⟩

/-- Both outcomes: a discarded word leaves the latch, `CLRERR` zeroes it. -/
theorem witness_FaultLatchHoldsUntilAcknowledged :
    (let s := withHost [.command 0x00000000] faulted
     Inv s ∧ s.err = true ∧ step s = .next faulted) ∧
    (let s := withHost [.command 0x01000000] faulted
     Inv s ∧ s.err = true ∧ step s = .next { State.reset with cmd := 0x01000000, cc := 1 }) :=
  ⟨⟨inv_faulted _, rfl, rfl⟩, inv_faulted _, rfl, rfl⟩

/-- `EC.KEYGEN` at the port without an answer. -/
def waiting : State := { State.reset with cmd := 0x3A300000, busy := true }

theorem witness_OnlyResetOvertakesAWaitingCommand :
    ((withHost [.reset] waiting).busy = true ∧ (withHost [.reset] waiting).host = .reset :: []) ∧
    (let s := withHost [.readStatus 0, .reset] waiting
     s.busy = true ∧ s.err = false ∧ (∀ rest, s.host ≠ .reset :: rest) ∧ decode s.cmd = .ok (.ecKeygen 3)) ∧
    State.reset.busy = false ∧ State.reset.host = [] :=
  ⟨⟨rfl, rfl⟩, ⟨rfl, rfl, fun rest h => by simp [withHost] at h, by decide⟩, rfl, rfl⟩

theorem witness_StatusWordsAreAsTabled :
    (withHost [.readStatus 4] State.reset).busy = false ∧
    (withHost [.readStatus 4] State.reset).host = .readStatus 4 :: [] ∧ (4 : Nat) ≤ 4 ∧ (5 : Nat) ≤ 5 := by decide

/-- Each port action in range up to the last byte, and one byte further. -/
theorem witness_BufferPortReadsAndWrites :
    (let s := withHost [.writeBuf 4094 [1, 2]] State.reset
     s.busy = false ∧ s.host = .writeBuf 4094 [1, 2] :: [] ∧ Memory.wf s.buf = true ∧ 4094 + 2 ≤ s.bufSize) ∧
    (let s := withHost [.writeBuf 4095 [1, 2]] State.reset
     s.busy = false ∧ s.host = .writeBuf 4095 [1, 2] :: [] ∧ s.bufSize < 4095 + 2) ∧
    (let s := withHost [.readBuf 4096 0] State.reset
     s.busy = false ∧ s.host = .readBuf 4096 0 :: [] ∧ 4096 + 0 ≤ s.bufSize) ∧
    (let s := withHost [.readBuf 4097 0] State.reset
     s.busy = false ∧ s.host = .readBuf 4097 0 :: [] ∧ s.bufSize < 4097 + 0) := by decide

/-- An out-of-range read of the buffer port reads zero bytes (20_memory.md rule R58), whatever the part in range holds. -/
theorem test_port_read_out_of_range :
    step (withHost [.readBuf 4095 2] { State.reset with buf := [(4095, 0xff)] }) =
      .next { State.reset with buf := [(4095, 0xff)], replies := [.bytes [0x00, 0x00]] } := rfl

/-- A state with data, a key and a waiting command. -/
def keyedWaiting : State := { keyed waiting with buf := [(4095, 0xff)] }

theorem keyed_consistent : keyedWaiting.keyConsistent := by
  show keyExpand (Vector.replicate 16 0) = keyExpand (keyAt (keyExpand (Vector.replicate 16 0)) 0)
  decide +kernel

/-- The invariant holds of a state with data, a key and a waiting command, and that state has a next one. -/
theorem witness_EveryStepKeepsInv :
    Inv keyedWaiting ∧ step keyedWaiting = .next keyedWaiting :=
  ⟨⟨rfl, by decide, reset_points, ⟨rfl, rfl⟩, keyed_consistent, fun _ => ⟨rfl, 3, by decide⟩⟩, rfl⟩

/-- A command that no list of writers names beside the counter, and one that some name. -/
theorem witness_StateIsWrittenOnlyByItsListedCommands :
    (exec .nop State.reset = .next { State.reset with cc := 1 } ∧ Instr.nop.mayWriteR = false ∧
      Instr.nop.mayWriteW = false ∧ Instr.nop.mayWriteQ = false ∧ Instr.nop.mayWritePinf = false ∧
      Instr.nop.mayWriteKs = false ∧ Instr.nop.mayWriteKpos = false ∧ Instr.nop.mayWriteKfin = false ∧
      Instr.nop.mayWriteKeys = false ∧ Instr.nop.mayWriteCtr = false ∧ Instr.nop.mayWriteBuf = false) ∧
    exec .kInit { State.reset with kfin := true } = .next { State.reset with cc := 1 } := by
  refine ⟨⟨rfl, ?_⟩, rfl⟩; decide

theorem witness_OnlyListedFaultsAreRaised : WellFormed (.kRound 23) ∧ WellFormed (.fpInv 0 0) := by decide

/-- Each clause, the ranges one byte too long and the lengths one off, first by state, then by operands. -/
theorem witness_FirstFailingCheckDecidesTheFault :
    (let s := { State.reset with kfin := true }
     s.kfin = true) ∧
    (let s := withRegs [(0, 4000), (1, 97)] []
     s.kfin = false ∧ s.bufSize < s.getR 0 + s.getR 1) ∧
    ((withRegs [(2, 63)] []).getR 2 ≠ 64 ∧ (withRegs [(2, 65)] []).getR 2 ≠ 64) ∧
    (let s := withRegs [(1, 4033), (2, 64)] []
     s.getR 2 = 64 ∧ s.bufSize < s.getR 1 + 64) ∧
    (let s := withRegs [(2, 4032)] []
     s.bufSize < s.getR 2 + 65) ∧
    (let s := withRegs [(2, 4031)] [(1, orderN)]
     s.getR 2 + 65 ≤ s.bufSize ∧ (s.getW 0).toNat = 0 ∧ orderN ≤ (s.getW 1).toNat) ∧
    (withRegs [(1, 15)] []).getR 1 ≠ 16 ∧
    (let s := withRegs [(0, 4081), (1, 16)] []
     s.getR 1 = 16 ∧ s.bufSize < s.getR 0 + 16) ∧
    State.reset.kvalid = false ∧
    (let s := { withRegs [(2, 17)] [] with kvalid := true }
     s.kvalid = true ∧ s.getR 2 ≠ 16) ∧
    (let s := { withRegs [(0, 4081), (2, 16)] [] with kvalid := true }
     s.kvalid = true ∧ s.getR 2 = 16 ∧ s.getR 1 + 16 ≤ s.bufSize ∧ s.bufSize < s.getR 0 + 16) ∧
    (let s := { withRegs [(1, 4081), (2, 16)] [] with kvalid := true }
     s.kvalid = true ∧ s.getR 2 = 16 ∧ s.bufSize < s.getR 1 + 16) ∧
    (let s := { withRegs [(0, 4097)] [] with kvalid := true }
     s.kvalid = true ∧ s.bufSize < s.getR 0 + s.getR 2) := by decide +kernel

theorem witness_SingleCheckFaults :
    (let s := withRegs [(0, 4065)] []
     s.bufSize < s.getR 0 + 32) ∧
    (let s := withRegs [(0, 4097)] []
     s.bufSize < s.getR 0 + s.getR 1) ∧
    (let s := withRegs [(0, 3897)] []
     s.bufSize < s.getR 0 + 200) ∧
    ({ State.reset with kfin := true }).kfin = true ∧ State.reset.kfin = false ∧
    (let s := withRegs [] [(1, primeP)]
     (s.getW 0).toNat = 0 ∧ (s.getW 1).toNat = primeP) := by decide +kernel

/-- All four outcomes, and `CLRERR` from a set latch; the count wraps. -/
theorem witness_CcCountsCompletedCommands :
    exec .srst { State.reset with cc := 7 } = .next State.reset ∧
    exec .clrerr faulted = .next { State.reset with cc := 1 } ∧
    exec .nop { State.reset with cc := 0xFFFFFFFF } = .next State.reset ∧
    exec (.kSqueeze 0) State.reset = .next (State.reset.takeFault .illegalSequence) ∧
    exec (.ecKeygen 0) State.reset = .next { State.reset with busy := true } := ⟨rfl, rfl, rfl, rfl, rfl⟩

theorem witness_CcAndPinfAreNeverRead : exec .nop State.reset = .next { State.reset with cc := 1 } := rfl

/-- With an answer out of range, and with none. -/
theorem witness_OnlyKeygenWaits :
    exec (.ecKeygen 0) { State.reset with draws := [draw 0] } = .next { State.reset with busy := true } ∧
    exec (.ecKeygen 0) State.reset = .next { State.reset with busy := true } :=
  ⟨rfl, rfl⟩

theorem witness_ResetLeavesTheTabledValues : (withHost [.reset, .reset] faulted).host = .reset :: [.reset] := rfl

/-- The last 32 bytes of `BUF`. -/
theorem witness_LdwReadsBigEndian : (withRegs [(0, 4064)] []).getR 0 + 32 ≤ (withRegs [(0, 4064)] []).bufSize := by
  decide +kernel

theorem witness_StwStoresBigEndian :
    Memory.wf (withRegs [(0, 4064)] []).buf = true ∧
      (withRegs [(0, 4064)] []).getR 0 + 32 ≤ (withRegs [(0, 4064)] []).bufSize := by decide +kernel

theorem witness_StwAndLdwUndoEachOther :
    (let s := withBytes 4064 32 7 (withRegs [(0, 4064)] [])
     Memory.wf s.buf = true ∧ s.getR 0 + 32 ≤ s.bufSize) := by decide +kernel

/-- The bounds on positions and indices: lanes, coordinates, table entries, bytes, rounds. -/
theorem witness_bounds_of_tables_and_steps :
    (23 : Nat) < 24 ∧ (6 : Nat) < 7 ∧ (63 : Nat) < 64 ∧ (∀ j, j < 7 → (64 - 2 : Nat) ≠ 2 ^ j - 1) ∧ (24 : Nat) < 25 ∧
      (4 : Nat) < 5 ∧ (15 : Nat) < 16 ∧ (3 : Nat) < 4 ∧ (10 : Nat) < 11 ∧ (199 : Nat) < 200 ∧
      (4 : Nat) ≤ 43 ∧ (43 : Nat) < 44 ∧ (0 : Nat) < 24 ∧ (1 : Nat) ≤ 9 ∧ (9 : Nat) < 10 := by decide

theorem witness_InitPermuteAndRound : (23 : Half).toNat < 24 ∧ (0 : Half).toNat < 24 := by decide

/-- A range up to the end of `BUF`; within the block, with the last byte of the block left free; and across its end. -/
theorem witness_AbsorbTakesTheBytes :
    (let s := { withRegs [(0, 4061), (1, 35)] [] with kpos := 100 }
     s.kfin = false ∧ s.getR 0 + s.getR 1 ≤ s.bufSize ∧ s.kpos.val + s.getR 1 < 136) ∧
    (let s := { withRegs [(0, 4060), (1, 36)] [] with kpos := 100 }
     s.kfin = false ∧ s.getR 0 + s.getR 1 ≤ s.bufSize ∧ s.kpos.val + s.getR 1 = 136) := by decide +kernel

/-- V49's two pieces. -/
theorem witness_AbsorbingInPiecesIsAbsorbingAtOnce :
    (let s := withRegs [(0, 3960), (1, 100), (2, 4060), (3, 36), (4, 136)] []
     s.kfin = false ∧ s.getR 2 = s.getR 0 + s.getR 1 ∧ s.getR 4 = s.getR 1 + s.getR 3 ∧
       s.getR 0 + s.getR 4 ≤ s.bufSize) := by decide +kernel

theorem witness_FullBlocksAreXoredAndPermuted :
    ∀ blk ∈ [List.replicate 136 (0xa3 : Byte), List.replicate 136 0], blk.length = 136 := by simp

/-- Both padding bytes apart, on neighbouring bytes, and on one byte. -/
theorem witness_FinalPadsAndPermutes :
    State.reset.kfin = false ∧ ({ State.reset with kpos := 134 }).kfin = false ∧
      ({ State.reset with kpos := 135 }).kfin = false := by decide

theorem witness_SqueezeReadsTheDigest : ({ State.reset with kfin := true }).kfin = true := rfl

theorem witness_HashIsTheFourCommandSequence :
    (let s := { withRegs [(1, 4096)] [] with kfin := true }
     s.getR 1 + s.getR 2 ≤ s.bufSize) := by decide +kernel

theorem witness_LdsAndStsMoveTheStateBytes :
    (let s := withRegs [(0, 3896)] []
     s.getR 0 + 200 ≤ s.bufSize ∧ Memory.wf s.buf = true) := by decide +kernel

/-- 0 and `P` on one side; 1, `P − 1` and `P + 1` on the other. -/
theorem witness_InverseIsTheUniqueInverse :
    (let s := withRegs [] [(1, primeP), (2, 1), (3, primeP - 1), (4, primeP + 1)]
     (s.getW 0).toNat % primeP = 0 ∧ (s.getW 1).toNat % primeP = 0 ∧ (s.getW 2).toNat % primeP ≠ 0 ∧
       (s.getW 3).toNat % primeP ≠ 0 ∧ (s.getW 4).toNat % primeP ≠ 0 ∧
       ((s.getW 2).toNat * 1 % primeP = 1 ∧ 1 ≤ 1 ∧ 1 < primeP)) := by decide +kernel

theorem witness_PointMovesWriteRegisterAndFlag :
    (State.reset.getQ 0).inf = true ∧ ((withPoint 0 Point.generator State.reset).getQ 0).inf = false := by decide +kernel

/-- Infinity, a point with `y = 0`, an ordinary point. -/
theorem witness_DoublingFollowsTheTangent :
    ((State.reset.getQ 0).canonical = true ∧ (State.reset.getQ 0).inf = true) ∧
    (let s := withPoint 0 (Point.finite 5 0) State.reset
     (s.getQ 0).canonical = true ∧ (s.getQ 0).inf = false ∧ (s.getQ 0).y = 0) ∧
    (let s := withPoint 0 (Point.finite (primeP - 1) 1) State.reset
     (s.getQ 0).canonical = true ∧ (s.getQ 0).inf = false ∧ (s.getQ 0).y ≠ 0) := by decide +kernel

/-- The smallest and the largest number that is no multiple of `N` below `N`. -/
theorem witness_CurveConstantsHaveTheStatedProperties :
    (1 ≤ 1 ∧ 1 < orderN) ∧ 1 ≤ orderN - 1 ∧ orderN - 1 < orderN := by decide +kernel

/-- Registers 0 to 3 hold infinity, `(5, 1)`, `(5, 2)`, `(6, 2)`: every case of the addition but the equal points; those
in the second state, whose registers 0 and 2 both hold the generator. -/
theorem witness_AddingFollowsTheChord :
    (let s := withPoint 1 (Point.finite 5 1) (withPoint 2 (Point.finite 5 2)
       (withPoint 3 (Point.finite 6 2) State.reset))
     (∀ a : QReg, (s.getQ a).canonical = true) ∧ (s.getQ 0).inf = true ∧ (s.getQ 1).inf = false ∧
       (s.getQ 2).inf = false ∧ (s.getQ 3).inf = false ∧ ((s.getQ 1).x = (s.getQ 2).x ∧ (s.getQ 1).y ≠ (s.getQ 2).y) ∧
       (s.getQ 1).x ≠ (s.getQ 3).x) ∧
    (let s := withPoint 0 Point.generator (withPoint 2 Point.generator State.reset)
     (s.getQ 0).canonical = true ∧ (s.getQ 2).canonical = true ∧ (s.getQ 0).inf = false ∧ s.getQ 0 = s.getQ 2) := by
  decide +kernel

/-- The scalars 0 and `N`; and the two kinds of point on the curve, the generator and infinity. -/
theorem witness_PmulAddsTheSelectedDoublings :
    (let s := withRegs [] [(1, orderN)]
     (s.getW 0).toNat % orderN = 0 ∧ (s.getW 1).toNat % orderN = 0) ∧
    let s := withPoint 1 Point.generator State.reset
    ((s.getQ 0).canonical = true ∧ (s.getQ 0).onCurve) ∧ (s.getQ 1).canonical = true ∧ (s.getQ 1).onCurve :=
  ⟨by decide +kernel, ⟨rfl, .inl rfl⟩, by decide +kernel, .inr (by decide +kernel)⟩

/-- The smallest and the largest key, the output up to the end of `BUF`. -/
theorem witness_PubkeyStoresTheUncompressedPoint :
    (let s := withRegs [(2, 4031)] [(0, 1), (1, orderN - 1)]
     Memory.wf s.buf = true ∧ s.getR 2 + 65 ≤ s.bufSize ∧ (1 ≤ (s.getW 0).toNat ∧ (s.getW 0).toNat < orderN) ∧
       1 ≤ (s.getW 1).toNat ∧ (s.getW 1).toNat < orderN) := by decide +kernel

theorem witness_AddrIsTheLowPartOfTheHash :
    (let s := withRegs [(1, 4032), (2, 64)] []
     s.getR 2 = 64 ∧ s.getR 1 + 64 ≤ s.bufSize) := by decide +kernel

theorem not_accepted (d : Draw) (h : isPrivateKey (beNat d.toList) = false) : ¬ drawAccepted d :=
  fun ⟨hl, hu⟩ => by simp [isPrivateKey, hl, hu] at h

/-- The ends of the range, just outside and just inside (V35); and no answer in range, or none. -/
theorem witness_KeygenTakesTheFirstDrawInRange :
    ((∀ e ∈ [draw 0, draw orderN, draw (2 ^ 256 - 1)], ¬ drawAccepted e) ∧ drawAccepted (draw 1) ∧
      drawAccepted (draw (orderN - 1)) ∧
      ({ State.reset with draws := [draw 0, draw orderN, draw (2 ^ 256 - 1)] ++ draw 1 :: [draw 7] }).draws =
        [draw 0, draw orderN, draw (2 ^ 256 - 1)] ++ draw 1 :: [draw 7]) ∧
    (∀ e ∈ ({ State.reset with draws := [draw 0] }).draws, ¬ drawAccepted e) ∧
    ∀ e ∈ State.reset.draws, ¬ drawAccepted e := by
  simp only [List.forall_mem_cons, List.not_mem_nil, false_imp_iff, implies_true, and_true, State.reset]
  exact ⟨⟨⟨not_accepted _ (by decide +kernel), not_accepted _ (by decide +kernel), not_accepted _ (by decide +kernel)⟩,
    ⟨by decide +kernel, by decide +kernel⟩, by decide +kernel, by decide +kernel⟩, not_accepted _ (by decide +kernel)⟩

theorem witness_AddressIsAFunctionOfTheKey :
    (let s := withRegs [(2, 4031)] [(0, orderN - 1)]
     (0 : RReg) ≠ 1 ∧ Memory.wf s.buf = true ∧ s.getR 2 + 65 ≤ s.bufSize ∧ 1 ≤ (s.getW 0).toNat ∧
       (s.getW 0).toNat < orderN) := by decide +kernel

theorem witness_AesTablesAreTheGeneratedOnes : (1 : Byte) ≠ 0 ∧ subByte 3 = subByte 3 := by decide

theorem witness_XtimeDoublesAndReduces : (0x57 : Byte).getLsbD 7 = false ∧ (0x80 : Byte).getLsbD 7 = true := by decide

theorem witness_KeyexpFollowsTheSchedule :
    (let s := withRegs [(0, 4080), (1, 16)] []
     s.getR 1 = 16 ∧ s.getR 0 + 16 ≤ s.bufSize) := by decide +kernel

/-- Source and destination up to the end of `BUF`, overlapping in part. -/
theorem witness_EncbRunsTheTenRounds :
    (let s := { withRegs [(0, 4080), (1, 4075), (2, 16)] [] with kvalid := true }
     Memory.wf s.buf = true ∧ s.kvalid = true ∧ s.getR 2 = 16 ∧ s.getR 1 + 16 ≤ s.bufSize ∧
       s.getR 0 + 16 ≤ s.bufSize) := by decide +kernel

theorem witness_SetctrAndClr :
    (let s := withRegs [(0, 4080), (1, 16)] []
     s.getR 1 = 16 ∧ s.getR 0 + 16 ≤ s.bufSize) := by decide +kernel

/-- V66's overlapping ranges, moved to the end of `BUF`; the block of a counter value meets the last hypothesis, for
the first byte and for the last. -/
theorem witness_CtrxXorsTheKeystream :
    (let s := { withRegs [(2, 4064), (3, 4072), (4, 24)] [] with kvalid := true, ctr := BitVec.allOnes 128 }
     Memory.wf s.buf = true ∧ s.kvalid = true ∧ s.getR 2 + s.getR 4 ≤ s.bufSize ∧ s.getR 3 + s.getR 4 ≤ s.bufSize ∧
     (0 < s.getR 4 ∧ ∀ i, i < 16 →
       nth (counterBlock s.ctr) i = (s.ctr + BitVec.ofNat 128 (0 / 16)).extractLsb' (8 * (15 - i)) 8) ∧
     23 < s.getR 4 ∧ ∀ i, i < 16 →
       nth (counterBlock 0) i = (s.ctr + BitVec.ofNat 128 (23 / 16)).extractLsb' (8 * (15 - i)) 8) := by decide +kernel

theorem witness_CtrxTwiceInPlaceRestoresTheData :
    (let s := { withBytes 4072 24 k1 (withRegs [(0, 4072), (1, 24)] []) with kvalid := true }
     Memory.wf s.buf = true ∧ s.kvalid = true ∧ s.getR 0 + s.getR 1 ≤ s.bufSize) := by decide +kernel

/-- A stream of `m + n` bytes from `src` to `dst`, split after `m`. -/
def splitState (dst src m n : Nat) : State :=
  { withRegs [(0, dst), (1, src), (2, m), (3, dst + m), (4, src + m), (5, n), (6, m + n)] [] with kvalid := true }

/-- The hypotheses on such a stream. -/
def SplitHyps (s : State) : Prop :=
  (Memory.wf s.buf = true ∧ s.kvalid = true ∧ s.getR 2 % 16 = 0 ∧ s.getR 3 = s.getR 0 + s.getR 2 ∧
    s.getR 4 = s.getR 1 + s.getR 2 ∧ s.getR 6 = s.getR 2 + s.getR 5 ∧ s.getR 0 + s.getR 6 ≤ s.bufSize ∧
    s.getR 1 + s.getR 6 ≤ s.bufSize) ∧
  ∀ x, s.getR 0 ≤ x → x < s.getR 3 → x < s.getR 4 ∨ s.getR 1 + s.getR 6 ≤ x

theorem split_clear {s : State} (h : s.getR 3 ≤ s.getR 4 ∨ s.getR 1 + s.getR 6 ≤ s.getR 0) :
    ∀ x, s.getR 0 ≤ x → x < s.getR 3 → x < s.getR 4 ∨ s.getR 1 + s.getR 6 ≤ x := by omega

/-- In place up to the end of `BUF`, with a last part that is no multiple of 16; the destination one byte below the
source; the destination right after the source; a first part of no bytes. -/
theorem witness_StreamSplitsAtBlockBoundaries :
    SplitHyps (splitState 4060 4060 32 4) ∧ SplitHyps (splitState 99 100 16 16) ∧ SplitHyps (splitState 52 0 32 20) ∧
      SplitHyps (splitState 0 5 0 20) ∧
      (List.replicate 32 (0 : Byte)).length % 16 = 0 ∧ ([] : List Byte).length % 16 = 0 :=
  ⟨⟨by decide +kernel, split_clear (by decide +kernel)⟩, ⟨by decide +kernel, split_clear (by decide +kernel)⟩,
    ⟨by decide +kernel, split_clear (by decide +kernel)⟩, ⟨by decide +kernel, split_clear (by decide +kernel)⟩,
    by decide, by decide⟩

end Sys2Proof.Tests
end

/-! The state as a whole (10_state.md): which command writes what, the counter and the latch, the flags no command reads,
reset, the status words, and the invariant every step keeps. -/

namespace Sys2Proof.Machine

/-! ### What the writes of a command leave unchanged -/

section Effect

variable {i : Instr}

/-- `EC.KEYGEN` writes its register and uses up answers of the entropy source, nothing else. -/
theorem effect_ecKeygen (a : WReg) (s : State) : ∃ w ds, effect (.ecKeygen a) s = { s with w := w, draws := ds } := by
  rw [effect]
  split
  · exact ⟨_, _, rfl⟩
  · exact ⟨_, _, rfl⟩

theorem effect_r (h : i.mayWriteR = false) (s : State) : (effect i s).r = s.r := by
  cases i
  case li => cases h
  case ecKeygen a => obtain ⟨w, ds, e⟩ := effect_ecKeygen a s; rw [e]
  all_goals simp [effect]

theorem effect_w (h : i.mayWriteW = false) (s : State) : (effect i s).w = s.w := by
  cases i
  case ldw | movw | kSqueeze | kHash | fpAdd | fpSub | fpMul | fpNeg | fpInv | pget | ecAddr | ecKeygen => cases h
  all_goals simp [effect]

theorem effect_q (h : i.mayWriteQ = false) (s : State) : (effect i s).q = s.q := by
  cases i
  case pset | pinf | pldg | pmov | pneg | pdbl | padd | pmul | ecPubkey => cases h
  case ecKeygen a => obtain ⟨w, ds, e⟩ := effect_ecKeygen a s; rw [e]
  all_goals simp [effect]

theorem effect_pinf (h : i.mayWritePinf = false) (s : State) : (effect i s).pinf = s.pinf := by
  cases i
  case pset | pinf | pldg | pmov | pneg | pdbl | padd | pmul | ecPubkey | pget => cases h
  case ecKeygen a => obtain ⟨w, ds, e⟩ := effect_ecKeygen a s; rw [e]
  all_goals simp [effect]

theorem effect_ks (h : i.mayWriteKs = false) (s : State) : (effect i s).ks = s.ks := by
  cases i
  case kInit | kF1600 | kRound | kAbsorb | kFinal | kHash | kLds | ecAddr => cases h
  case ecKeygen a => obtain ⟨w, ds, e⟩ := effect_ecKeygen a s; rw [e]
  all_goals simp [effect]

theorem effect_kpos (h : i.mayWriteKpos = false) (s : State) : (effect i s).kpos = s.kpos := by
  cases i
  case kInit | kAbsorb | kFinal | kHash | ecAddr => cases h
  case ecKeygen a => obtain ⟨w, ds, e⟩ := effect_ecKeygen a s; rw [e]
  all_goals simp [effect]

theorem effect_kfin (h : i.mayWriteKfin = false) (s : State) : (effect i s).kfin = s.kfin := by
  cases i
  case kInit | kFinal | kHash | ecAddr => cases h
  case ecKeygen a => obtain ⟨w, ds, e⟩ := effect_ecKeygen a s; rw [e]
  all_goals simp [effect]

theorem effect_keys (h : i.mayWriteKeys = false) (s : State) :
    (effect i s).rk = s.rk ∧ (effect i s).kvalid = s.kvalid := by
  cases i
  case aesKeyexp | aesClr => cases h
  case ecKeygen a => obtain ⟨w, ds, e⟩ := effect_ecKeygen a s; rw [e]; exact ⟨rfl, rfl⟩
  all_goals simp [effect]

theorem effect_ctr (h : i.mayWriteCtr = false) (s : State) : (effect i s).ctr = s.ctr := by
  cases i
  case aesSetctr | aesCtrx | aesClr => cases h
  case ecKeygen a => obtain ⟨w, ds, e⟩ := effect_ecKeygen a s; rw [e]
  all_goals simp [effect]

theorem effect_buf (h : i.mayWriteBuf = false) (s : State) : (effect i s).buf = s.buf := by
  cases i
  case stw | kSts | ecPubkey | aesEncb | aesCtrx => cases h
  case ecKeygen a => obtain ⟨w, ds, e⟩ := effect_ecKeygen a s; rw [e]
  all_goals simp [effect]

theorem effect_draws (h : ∀ a, i ≠ .ecKeygen a) (s : State) : (effect i s).draws = s.draws := by
  cases i
  case ecKeygen a => exact absurd rfl (h a)
  all_goals simp [effect]

/-- No command writes the fields of what stands outside the engine, and none writes `CC` before its end. -/
theorem effect_outside (i : Instr) (s : State) :
    (effect i s).cfg = s.cfg ∧ (effect i s).cmd = s.cmd ∧ (effect i s).host = s.host ∧
      (effect i s).replies = s.replies ∧ (effect i s).cc = s.cc := by
  cases i
  case ecKeygen a => obtain ⟨w, ds, e⟩ := effect_ecKeygen a s; rw [e]; exact ⟨rfl, rfl, rfl, rfl, rfl⟩
  all_goals simp [effect]

/-- Only `CLRERR` writes the latch of a command that passes its checks. -/
theorem effect_latch (h : i ≠ .clrerr) (s : State) :
    (effect i s).err = s.err ∧ (effect i s).errcode = s.errcode ∧ (effect i s).errcmd = s.errcmd := by
  cases i
  case clrerr => exact absurd rfl h
  case ecKeygen a => obtain ⟨w, ds, e⟩ := effect_ecKeygen a s; rw [e]; exact ⟨rfl, rfl, rfl⟩
  all_goals simp [effect]

end Effect

/-! ### Who writes what -/

/-- Settles O14: a fault writes the latch alone, a waiting `EC.KEYGEN` uses up answers alone, `SRST` is named by every
list, and a command that passes its checks has the writes of `effect`. -/
theorem stateIsWrittenOnlyByItsListedCommands : Obligations.StateIsWrittenOnlyByItsListedCommands := by
  intro i s t h
  rcases exec_cases h with ⟨k, -, rfl⟩ | ⟨rfl, rfl⟩ | ⟨⟨a, rfl⟩, -, rfl⟩ | ⟨-, rfl⟩
  · simp
  · exact ⟨nofun, nofun, nofun, nofun, nofun, nofun, nofun, nofun, nofun, nofun, fun _ => rfl, rfl, rfl, rfl, rfl⟩
  · simp
  · obtain ⟨hcfg, hcmd, hhost, hreplies, -⟩ := effect_outside i s
    exact ⟨(effect_r · s), (effect_w · s), (effect_q · s), (effect_pinf · s), (effect_ks · s), (effect_kpos · s),
      (effect_kfin · s), (effect_keys · s), (effect_ctr · s), (effect_buf · s), (effect_draws · s), hcfg, hcmd, hhost,
      hreplies⟩

/-! ### The counter -/

/-- `CC` after a command that completes, as a number (rule R32). -/
theorem toNat_cc_completed (i : Instr) (s : State) :
    (effect i s).completed.cc.toNat = (s.cc.toNat + 1) % 2 ^ 32 := by
  obtain ⟨-, -, -, -, hcc⟩ := effect_outside i s
  rw [State.completed_cc, hcc, BitVec.toNat_add]
  rfl

/-- Settles O18, by the four ways a command can end. -/
theorem ccCountsCompletedCommands : Obligations.CcCountsCompletedCommands := by
  intro i s t h
  rcases exec_cases h with ⟨k, -, rfl⟩ | ⟨hi, rfl⟩ | ⟨hi, -, rfl⟩ | ⟨hp, rfl⟩
  · exact .inr (.inr (.inl ⟨rfl, k, rfl⟩))
  · exact .inl ⟨hi, rfl⟩
  · exact .inr (.inr (.inr ⟨rfl, rfl, hi⟩))
  · refine .inr (.inl ⟨?_, toNat_cc_completed i s, rfl, ?_⟩)
    · rintro rfl
      exact hp
    · by_cases hi : i = .clrerr
      · subst hi
        exact .inl ⟨rfl, rfl⟩
      · exact .inr (effect_latch hi s)

/-! ### What no command reads -/

/-- The state with other values of `CC` and the `PINF` flag. -/
def State.withCcPinf (s : State) (n : Word) (f : Bool) : State := { s with cc := n, pinf := f }

@[simp] theorem State.withCcPinf_draws (s : State) (n : Word) (f : Bool) : (s.withCcPinf n f).draws = s.draws := rfl

/-- The second outcome is the first but for `CC` and the `PINF` flag. -/
def SameButCcPinf (o o' : Result) : Prop := ∀ t, o = .next t → ∃ m g, o' = .next (t.withCcPinf m g)

section CcPinf

variable {s : State} {n : Word} {f : Bool} {go go' : Result}

theorem sameButCcPinf_next (t : State) (m : Word) (g : Bool) : SameButCcPinf (.next t) (.next (t.withCcPinf m g)) := by
  rintro _ ⟨⟩
  exact ⟨m, g, rfl⟩

theorem sameButCcPinf_raise (k : FaultKind) : SameButCcPinf (raise k s) (raise k (s.withCcPinf n f)) :=
  sameButCcPinf_next (s.takeFault k) n f

/-- A completion whose writes are the same but for `CC` and the `PINF` flag. -/
theorem sameButCcPinf_complete (t : State) (m : Word) (g : Bool) :
    SameButCcPinf (complete t) (complete (t.withCcPinf m g)) :=
  sameButCcPinf_next t.completed (m + 1) g

/-- A store. Its bytes are a variable here, so that no comparison of the two states evaluates them. -/
theorem sameButCcPinf_store (off : Nat) (bs : List Byte) :
    SameButCcPinf (complete (s.memWrite off bs)) (complete ((s.withCcPinf n f).memWrite off bs)) :=
  sameButCcPinf_complete (s.memWrite off bs) n f

/-- A store of a command that writes a point register and clears the `PINF` flag. -/
theorem sameButCcPinf_storePoint (a : QReg) (p : Point) (off : Nat) (bs : List Byte) :
    SameButCcPinf (complete { (s.setQ a p).memWrite off bs with pinf := false })
      (complete { ((s.withCcPinf n f).setQ a p).memWrite off bs with pinf := false }) :=
  sameButCcPinf_complete { (s.setQ a p).memWrite off bs with pinf := false } n false

theorem sameButCcPinf_checkRange (off len : Nat) (h : SameButCcPinf go go') :
    SameButCcPinf (checkRange off len s go) (checkRange off len (s.withCcPinf n f) go') := by
  by_cases hr : off + len ≤ s.bufSize
  · rwa [checkRange_ok hr, checkRange_ok (s := s.withCcPinf n f) hr]
  · rw [checkRange_fail (by omega), checkRange_fail (s := s.withCcPinf n f) (Nat.lt_of_not_le hr)]
    exact sameButCcPinf_raise _

theorem sameButCcPinf_checkLength (k : FaultKind) (len want : Nat) (h : SameButCcPinf go go') :
    SameButCcPinf (checkLength k len want s go) (checkLength k len want (s.withCcPinf n f) go') := by
  by_cases hl : len = want
  · rwa [checkLength_ok hl, checkLength_ok hl]
  · rw [checkLength_fail hl, checkLength_fail hl]
    exact sameButCcPinf_raise _

theorem sameButCcPinf_needKfin (b : Bool) (h : SameButCcPinf go go') :
    SameButCcPinf (needKfin b s go) (needKfin b (s.withCcPinf n f) go') := by
  by_cases hk : s.kfin = b
  · rwa [needKfin_ok hk, needKfin_ok (s := s.withCcPinf n f) hk]
  · rw [needKfin_fail hk, needKfin_fail (s := s.withCcPinf n f) hk]
    exact sameButCcPinf_raise _

theorem sameButCcPinf_needKey (h : SameButCcPinf go go') :
    SameButCcPinf (needKey s go) (needKey (s.withCcPinf n f) go') := by
  by_cases hk : s.kvalid = true
  · rwa [needKey_ok hk, needKey_ok (s := s.withCcPinf n f) hk]
  · rw [needKey_fail (by simpa using hk), needKey_fail (s := s.withCcPinf n f) (Bool.eq_false_iff.2 hk)]
    exact sameButCcPinf_raise _

theorem sameButCcPinf_ite (p : Prop) [Decidable p] {o o' : Result} (h : SameButCcPinf go go')
    (h' : SameButCcPinf o o') : SameButCcPinf (if p then go else o) (if p then go' else o') := by
  split
  · exact h
  · exact h'

end CcPinf

/-- No check and no write of a command depends on `CC` or the `PINF` flag. -/
theorem exec_withCcPinf (i : Instr) (s : State) (n : Word) (f : Bool) :
    SameButCcPinf (exec i s) (exec i (s.withCcPinf n f)) := by
  cases i
  case srst => exact sameButCcPinf_next s.resetEngine 0 false
  case kRound => exact sameButCcPinf_ite _ (sameButCcPinf_complete _ n f) (sameButCcPinf_raise _)
  case fpInv => exact sameButCcPinf_ite _ (sameButCcPinf_raise _) (sameButCcPinf_complete _ n f)
  case ecKeygen a =>
    simp only [exec, execEcKeygen, State.withCcPinf_draws]
    split
    · exact sameButCcPinf_complete _ n f
    · exact sameButCcPinf_next _ n f
  case ecPubkey =>
    exact sameButCcPinf_checkRange _ _ (sameButCcPinf_ite _ (sameButCcPinf_storePoint _ _ _ _) (sameButCcPinf_raise _))
  case kAbsorb => exact sameButCcPinf_needKfin _ (sameButCcPinf_checkRange _ _ (sameButCcPinf_complete _ n f))
  case kFinal | kSqueeze => exact sameButCcPinf_needKfin _ (sameButCcPinf_complete _ n f)
  case stw | kSts => exact sameButCcPinf_checkRange _ _ (sameButCcPinf_store _ _)
  case ldw | kHash | kLds => exact sameButCcPinf_checkRange _ _ (sameButCcPinf_complete _ n f)
  case ecAddr | aesKeyexp | aesSetctr =>
    exact sameButCcPinf_checkLength _ _ _ (sameButCcPinf_checkRange _ _ (sameButCcPinf_complete _ n f))
  case aesEncb =>
    exact sameButCcPinf_needKey (sameButCcPinf_checkLength _ _ _
      (sameButCcPinf_checkRange _ _ (sameButCcPinf_checkRange _ _ (sameButCcPinf_store _ _))))
  case aesCtrx =>
    exact sameButCcPinf_needKey
      (sameButCcPinf_checkRange _ _ (sameButCcPinf_checkRange _ _ (sameButCcPinf_complete _ n f)))
  all_goals exact sameButCcPinf_complete _ n _

/-- Settles O19, by the check-by-check comparison of the two runs. -/
theorem ccAndPinfAreNeverRead : Obligations.CcAndPinfAreNeverRead :=
  fun i s _ n f h => exec_withCcPinf i s n f _ h

/-! ### Reset -/

@[simp] theorem keyAt_zeroKeys (r : Nat) : keyAt zeroKeys r = Vector.replicate 16 0 := by
  rw [keyAt, zeroKeys, Vector.toList_replicate, List.getD_eq_getElem?_getD,
    List.getElem?_getD_replicate_default_eq]

/-- The point registers after reset (rule R36). -/
theorem getQ_reset (a : QReg) : State.reset.getQ a = Point.infinity := by
  simp [State.getQ, State.reset, Point.infinity]

/-- `State.reset` is the table of rule R36. -/
theorem atReset_reset : AtReset State.reset := by
  refine ⟨fun i hi => nth_replicate 0 i hi, rfl, rfl, ?_, ?_, getQ_reset, rfl, ?_, rfl, rfl, rfl, rfl, rfl, rfl,
    fun _ => rfl⟩
  · intro a
    simp [State.getR, State.reset]
  · intro a
    simp [State.getW, State.reset]
  · intro r _ j hj
    show nth (keyAt zeroKeys r) j = 0
    rw [keyAt_zeroKeys, nth_replicate 0 j hj]

/-- The reset table speaks of the engine's own fields only, which take the values of `State.reset`. -/
theorem atReset_resetEngine (s : State) : AtReset s.resetEngine := atReset_reset

/-- Settles O21: `SRST` and the reset input both leave `resetEngine` of the state they find. -/
theorem resetLeavesTheTabledValues : Obligations.ResetLeavesTheTabledValues :=
  ⟨atReset_reset, fun s => ⟨_, rfl, atReset_resetEngine s⟩, fun _ _ h => ⟨_, step_reset h, atReset_resetEngine _⟩⟩

/-! ### The status words -/

/-- The buffer port stores in range, or does nothing (20_memory.md rule R58). -/
theorem hostWrite_cases (off : Nat) (bs : List Byte) (s : State) :
    hostWrite off bs s = s ∨ (off + bs.length ≤ s.bufSize ∧ hostWrite off bs s = s.memWrite off bs) := by
  unfold hostWrite
  split
  · exact .inr ⟨by simpa [State.inRange] using ‹s.inRange off bs.length = true›, rfl⟩
  · exact .inl rfl

theorem bit_le_one (b : Bool) : bit b ≤ 1 := by cases b <;> decide

/-- The four flags stand at the four lowest bits of `STATUS`. -/
theorem statusBits_low (s : State) :
    s.statusBits.getLsbD 0 = s.err ∧ s.statusBits.getLsbD 1 = s.kfin ∧ s.statusBits.getLsbD 2 = s.kvalid ∧
      s.statusBits.getLsbD 3 = s.pinf := by
  rw [State.statusBits]
  generalize s.err = e, s.kfin = k, s.kvalid = v, s.pinf = p
  revert e k v p
  decide

/-- The flags make a number below 16, so the bits above them are zero. -/
theorem statusBits_high (s : State) {j : Nat} (hj : 4 ≤ j) : s.statusBits.getLsbD j = false := by
  have herr := bit_le_one s.err
  have hkfin := bit_le_one s.kfin
  have hkvalid := bit_le_one s.kvalid
  have hpinf := bit_le_one s.pinf
  have hpow : 2 ^ 4 ≤ 2 ^ j := Nat.pow_le_pow_right (by decide) hj
  rw [State.statusBits, BitVec.getLsbD_ofNat, Nat.testBit_lt_two_pow (by omega), Bool.and_false]

theorem statusWord_memWrite (s : State) (off : Nat) (bs : List Byte) (n : Nat) :
    (s.memWrite off bs).statusWord n = s.statusWord n := rfl

/-- Settles O9, word by word; the buffer port writes `BUF` alone, which no status word shows. -/
theorem statusWordsAreAsTabled : Obligations.StatusWordsAreAsTabled := by
  intro s
  refine ⟨?_, ?_, rfl, rfl, ?_, ?_, fun n rest hb hh => step_act hb hh, fun off bs n => ?_⟩
  · obtain ⟨herr, hkfin, hkvalid, hpinf⟩ := statusBits_low s
    exact ⟨herr, hkfin, hkvalid, hpinf, fun _ hj => statusBits_high s hj⟩
  · show (s.errcode.setWidth 32).toNat = s.errcode.toNat
    rw [BitVec.toNat_setWidth_of_le (by decide)]
  · show (BitVec.ofNat 32 s.kpos.val).toNat = s.kpos.val
    rw [BitVec.toNat_ofNat, Nat.mod_eq_of_lt (s.kpos.isLt.trans (by decide))]
  · intro n hn
    obtain ⟨k, rfl⟩ := Nat.exists_eq_add_of_le' hn
    rfl
  · rcases hostWrite_cases off bs s with h | ⟨-, h⟩
    · rw [h]
    · rw [h, statusWord_memWrite]

/-! ### The invariant, clause by clause -/

/-- What a command that passes its checks does to `BUF`: nothing, or one store in range (20_memory.md rule R51). -/
theorem effect_buf_cases {i : Instr} {s : State} (h : passes i s) :
    (effect i s).buf = s.buf ∨
      ∃ off bs, off + bs.length ≤ s.bufSize ∧ (effect i s).buf = Memory.writeBytes s.buf off bs := by
  cases hw : i.mayWriteBuf
  · exact .inl (effect_buf hw s)
  · cases i
    case srst => exact .inl rfl
    case stw a b => exact .inr ⟨s.getR b, bytesOfWide (s.getW a), by rwa [length_bytesOfWide], by simp [effect]⟩
    case kSts a => exact .inr ⟨s.getR a, lanesBytes s.ks, by rwa [length_lanesBytes], by simp [effect]⟩
    case ecPubkey a b c =>
      obtain ⟨hr, -⟩ := h
      exact .inr ⟨s.getR c, uncompressed (smul (s.getW b).toNat Point.generator), by rwa [length_uncompressed],
        by simp [effect]⟩
    case aesEncb a b c =>
      obtain ⟨-, -, -, hr⟩ := h
      exact .inr ⟨s.getR a, (encryptBlock s.rk (s.blockAt (s.getR b))).toList, by rwa [Vector.length_toList],
        by simp [effect]⟩
    case aesCtrx a b c =>
      obtain ⟨-, -, hr⟩ := h
      exact .inr ⟨s.getR a, (ctrStream s.rk s.ctr (s.memRead (s.getR b) (s.getR c))).1,
        by rwa [length_ctrStream, State.length_memRead], by simp [effect]⟩
    all_goals cases hw

/-- What a command does to the point registers: nothing, or one canonical point is written (rule R24). -/
theorem effect_q_cases {s : State} (i : Instr) (h : s.pointsCanonical) :
    (effect i s).q = s.q ∨ ∃ (a : QReg) (p : Point), p.canonical = true ∧ (effect i s).q = s.q.set a p := by
  cases hw : i.mayWriteQ
  · exact .inl (effect_q hw s)
  · cases i
    case srst => exact .inl rfl
    case pset a b c =>
      exact .inr ⟨a, _, finite_canonical (Nat.mod_lt _ primeP_pos) (Nat.mod_lt _ primeP_pos), rfl⟩
    case pinf a => exact .inr ⟨a, _, infinity_canonical, rfl⟩
    case pldg a => exact .inr ⟨a, _, generator_canonical, rfl⟩
    case pmov a b => exact .inr ⟨a, _, h b, rfl⟩
    case pneg a b => exact .inr ⟨a, _, pneg_canonical (h b), rfl⟩
    case pdbl a b => exact .inr ⟨a, _, pdbl_canonical _, rfl⟩
    case padd a b c => exact .inr ⟨a, _, padd_canonical (h b) (h c), rfl⟩
    case pmul a b c => exact .inr ⟨a, _, smul_canonical _ (h c), rfl⟩
    case ecPubkey a b c => exact .inr ⟨a, _, smul_canonical _ generator_canonical, rfl⟩
    all_goals cases hw

theorem effect_bufSize (i : Instr) (s : State) : (effect i s).bufSize = s.bufSize := by
  obtain ⟨hcfg, -⟩ := effect_outside i s
  rw [State.bufSize, State.bufSize, hcfg]

theorem effect_wf {i : Instr} {s : State} (hp : passes i s) (h : Memory.wf s.buf = true) :
    Memory.wf (effect i s).buf = true := by
  rcases effect_buf_cases hp with e | ⟨off, bs, -, e⟩
  · rwa [e]
  · rw [e]
    exact Memory.writeBytes_wf h off bs

theorem effect_within {i : Instr} {s : State} (hp : passes i s) (h : Memory.within s.buf s.bufSize = true) :
    Memory.within (effect i s).buf (effect i s).bufSize = true := by
  rw [effect_bufSize]
  rcases effect_buf_cases hp with e | ⟨off, bs, hr, e⟩
  · rwa [e]
  · rw [e]
    exact Memory.writeBytes_within h bs hr

theorem effect_pointsCanonical {s : State} (i : Instr) (h : s.pointsCanonical) : (effect i s).pointsCanonical := by
  intro b
  rcases effect_q_cases i h with e | ⟨a, p, hp, e⟩
  · rw [State.getQ, e]
    exact h b
  · have hb : (effect i s).getQ b = (s.setQ a p).getQ b := by rw [State.getQ, e]; rfl
    rw [hb, State.getQ_setQ]
    split
    · exact hp
    · exact h b

theorem effect_latchConsistent {s : State} (i : Instr) (h : s.latchConsistent) : (effect i s).latchConsistent := by
  by_cases hi : i = .clrerr
  · subst hi
    exact ⟨rfl, rfl⟩
  · obtain ⟨herr, hcode, hcmd⟩ := effect_latch hi s
    rwa [State.latchConsistent, herr, hcode, hcmd]

theorem effect_keyConsistent {s : State} (i : Instr) (h : s.keyConsistent) : (effect i s).keyConsistent := by
  cases hw : i.mayWriteKeys
  · obtain ⟨hrk, hkvalid⟩ := effect_keys hw s
    rwa [State.keyConsistent, hrk, hkvalid]
  · cases i
    case srst => exact h
    case aesKeyexp a b => exact congrArg keyExpand (keyAt_keyExpand_zero _).symm
    case aesClr => exact rfl
    all_goals cases hw

/-! ### The invariant -/

theorem inv_resetEngine (s : State) : Inv s.resetEngine :=
  ⟨rfl, rfl, fun a => (congrArg Point.canonical (getQ_reset a)).trans infinity_canonical, ⟨rfl, rfl⟩, rfl, nofun⟩

/-- Settles O12: the state of reset is what a reset leaves of it. -/
theorem invHoldsAtReset : Obligations.InvHoldsAtReset := inv_resetEngine State.reset

/-- A fault writes the latch with the code of a kind and frees the command port. -/
theorem inv_takeFault {s : State} (k : FaultKind) (h : Inv s) : Inv (s.takeFault k) := by
  obtain ⟨hwf, hwithin, hpoints, -, hkeys, -⟩ := h
  exact ⟨hwf, hwithin, hpoints, ⟨k, rfl⟩, hkeys, nofun⟩

theorem inv_completed_effect {i : Instr} {s : State} (hp : passes i s) (h : Inv s) : Inv (effect i s).completed := by
  obtain ⟨hwf, hwithin, hpoints, hlatch, hkeys, -⟩ := h
  exact ⟨effect_wf hp hwf, effect_within hp hwithin, effect_pointsCanonical i hpoints, effect_latchConsistent i hlatch,
    effect_keyConsistent i hkeys, nofun⟩

/-- A store in range keeps the invariant. -/
theorem inv_memWrite {s : State} {off : Nat} {bs : List Byte} (hr : off + bs.length ≤ s.bufSize) (h : Inv s) :
    Inv (s.memWrite off bs) := by
  obtain ⟨hwf, hwithin, hrest⟩ := h
  exact ⟨Memory.writeBytes_wf hwf off bs, Memory.writeBytes_within hwithin bs hr, hrest⟩

theorem inv_hostWrite {s : State} (off : Nat) (bs : List Byte) (h : Inv s) : Inv (hostWrite off bs s) := by
  rcases hostWrite_cases off bs s with e | ⟨hr, e⟩
  · rwa [e]
  · rw [e]
    exact inv_memWrite hr h

/-- While the latch is set, only the two acknowledging words are not discarded (60_exceptions.md rule R286). -/
theorem acknowledges_of_not_discarded {s : State} {w : Word} (he : s.err = true) (hd : s.discards w = false) :
    (w = clrerrWord ∧ decode w = .ok .clrerr) ∨ (w = srstWord ∧ decode w = .ok .srst) := by
  by_cases hc : w = clrerrWord
  · exact .inl ⟨hc, by rw [hc]; rfl⟩
  · by_cases hs : w = srstWord
    · exact .inr ⟨hs, by rw [hs]; rfl⟩
    · rw [(discards_of_set he).2 ⟨hc, hs⟩] at hd
      cases hd

/-- A command keeps the invariant; that a waiting `EC.KEYGEN` keeps it rests on the word at the port and a clear latch. -/
theorem inv_exec {i : Instr} {s t : State} (h : Inv s) (hd : s.discards s.cmd = false) (hi : decode s.cmd = .ok i)
    (ht : exec i s = .next t) : Inv t := by
  rcases exec_cases ht with ⟨k, -, rfl⟩ | ⟨-, rfl⟩ | ⟨⟨a, rfl⟩, -, rfl⟩ | ⟨hp, rfl⟩
  · exact inv_takeFault k h
  · exact inv_resetEngine s
  · have herr : s.err = false := by
      cases he : s.err
      · rfl
      · rcases acknowledges_of_not_discarded he hd with ⟨-, hw⟩ | ⟨-, hw⟩ <;> rw [hw] at hi <;> cases hi
    obtain ⟨hwf, hwithin, hpoints, hlatch, hkeys, -⟩ := h
    exact ⟨hwf, hwithin, hpoints, hlatch, hkeys, fun _ => ⟨herr, a, hi⟩⟩
  · exact inv_completed_effect hp h

theorem inv_runCommand {s t : State} (h : Inv s) (ht : runCommand s = .next t) : Inv t := by
  rcases runCommand_cases ht with ⟨-, rfl⟩ | ⟨-, -, rfl⟩ | ⟨hd, i, hi, hexec⟩
  · obtain ⟨hwf, hwithin, hpoints, hlatch, hkeys, -⟩ := h
    exact ⟨hwf, hwithin, hpoints, hlatch, hkeys, nofun⟩
  · exact inv_takeFault _ h
  · exact inv_exec h hd hi hexec

/-- A new word at a free command port keeps the invariant: nothing waits there. -/
theorem inv_newCommand {s : State} (hb : s.busy = false) (h : Inv s) (rest : List HostAction) (w : Word) :
    Inv { s with host := rest, cmd := w } := by
  obtain ⟨hwf, hwithin, hpoints, hlatch, hkeys, -⟩ := h
  exact ⟨hwf, hwithin, hpoints, hlatch, hkeys, fun hbusy => absurd (hb.symm.trans hbusy) (by decide)⟩

/-- Settles O13, by what a step can do. -/
theorem everyStepKeepsInv : Obligations.EveryStepKeepsInv := by
  intro s t h ht
  rcases step_cases ht with ⟨-, -, rfl⟩ | ⟨rest, -, rfl⟩ | ⟨-, hrun⟩ | ⟨hb, w, rest, -, hrun⟩ |
    ⟨-, off, bs, rest, -, rfl⟩ | ⟨-, r, rest, -, rfl⟩
  · exact h
  · exact inv_resetEngine _
  · exact inv_runCommand h hrun
  · exact inv_runCommand (inv_newCommand hb h rest w) hrun
  · exact inv_hostWrite off bs (s := { s with host := rest }) h
  · exact h

/-! ### The latch -/

/-- The command cycle under a set latch: the latch stays, or the word acknowledged it (rules R286, R287). -/
theorem runCommand_latch {s t : State} (he : s.err = true) (h : runCommand s = .next t) :
    (t.err = true ∧ t.errcode = s.errcode ∧ t.errcmd = s.errcmd) ∨
      ((t.err = false ∧ t.errcode = 0 ∧ t.errcmd = 0) ∧ (s.cmd = clrerrWord ∨ s.cmd = srstWord)) := by
  rcases runCommand_cases h with ⟨-, rfl⟩ | ⟨hd, ⟨e, hdec⟩, -⟩ | ⟨hd, i, hdec, hexec⟩
  · exact .inl ⟨he, rfl, rfl⟩
  · rcases acknowledges_of_not_discarded he hd with ⟨-, hw⟩ | ⟨-, hw⟩ <;> rw [hw] at hdec <;> cases hdec
  · rcases acknowledges_of_not_discarded he hd with ⟨hc, hw⟩ | ⟨hs, hw⟩ <;> rw [hw] at hdec <;> cases hdec
    · obtain rfl := complete_next.1 hexec
      exact .inr ⟨⟨rfl, rfl, rfl⟩, .inl hc⟩
    · obtain rfl := next_inj.1 hexec
      exact .inr ⟨⟨rfl, rfl, rfl⟩, .inr hs⟩

theorem hostWrite_latch (off : Nat) (bs : List Byte) (s : State) :
    (hostWrite off bs s).err = s.err ∧ (hostWrite off bs s).errcode = s.errcode ∧
      (hostWrite off bs s).errcmd = s.errcmd := by
  rcases hostWrite_cases off bs s with e | ⟨-, e⟩ <;> rw [e] <;> exact ⟨rfl, rfl, rfl⟩

/-- Settles O7, by what a step can do; the invariant rules out a command that waits at the port under a set latch. -/
theorem faultLatchHoldsUntilAcknowledged : Obligations.FaultLatchHoldsUntilAcknowledged := by
  intro s t hinv he ht
  obtain ⟨-, -, -, -, -, hport⟩ := hinv
  rcases step_cases ht with ⟨-, -, rfl⟩ | ⟨rest, hh, rfl⟩ | ⟨hb, -⟩ | ⟨-, w, rest, hh, hrun⟩ |
    ⟨-, off, bs, rest, -, rfl⟩ | ⟨-, r, rest, -, rfl⟩
  · exact .inl ⟨he, rfl, rfl⟩
  · exact .inr ⟨rfl, rfl, rfl, rest, .inr (.inr hh)⟩
  · obtain ⟨hclear, -⟩ := hport hb
    rw [he] at hclear
    cases hclear
  · rcases runCommand_latch (s := { s with host := rest, cmd := w }) he hrun with hkept | ⟨⟨herr, hcode, hcmd⟩, rfl | rfl⟩
    · exact .inl hkept
    · exact .inr ⟨herr, hcode, hcmd, rest, .inl hh⟩
    · exact .inr ⟨herr, hcode, hcmd, rest, .inr (.inl hh)⟩
  · obtain ⟨herr, hcode, hcmd⟩ := hostWrite_latch off bs { s with host := rest }
    exact .inl ⟨herr.trans he, hcode, hcmd⟩
  · exact .inl ⟨he, rfl, rfl⟩

end Sys2Proof.Machine

/-! The command port between two steps and the buffer port (20_memory.md rules R51, R58, R60): which of the next happenings
comes first, and what an access of the host does in range and out of range. -/

namespace Sys2Proof.Machine

/-! ### The command at the port -/

/-- A waiting command whose word decodes goes on as that command, unless the host resets (rule R295, assumption 4). -/
theorem step_waiting_decoded {s : State} {i : Instr} (hb : s.busy = true) (he : s.err = false)
    (hh : ∀ rest, s.host ≠ .reset :: rest) (hd : decode s.cmd = .ok i) : step s = exec i s := by
  rw [step_waiting hb hh, runCommand_decoded (discards_of_clear he _) hd]

/-- Settles O8: each clause is one of the cases of the step. -/
theorem onlyResetOvertakesAWaitingCommand : Obligations.OnlyResetOvertakesAWaitingCommand :=
  fun _ => ⟨fun _ _ hh => step_reset hh, fun _ hb he hh hd => step_waiting_decoded hb he hh hd, step_idle⟩

/-! ### The buffer port -/

section BufferPort

variable {s : State} {rest : List HostAction} {off len : Nat} {bs : List Byte}

theorem inRange_iff : s.inRange off len = true ↔ off + len ≤ s.bufSize := decide_eq_true_iff

theorem hostWrite_inRange (h : off + bs.length ≤ s.bufSize) : hostWrite off bs s = s.memWrite off bs :=
  if_pos (inRange_iff.2 h)

theorem hostWrite_outOfRange (h : s.bufSize < off + bs.length) : hostWrite off bs s = s :=
  if_neg fun hr => Nat.not_le.2 h (inRange_iff.1 hr)

theorem hostReadReply_inRange (h : off + len ≤ s.bufSize) : hostReadReply off len s = s.memRead off len :=
  if_pos (inRange_iff.2 h)

theorem hostReadReply_outOfRange (h : s.bufSize < off + len) : hostReadReply off len s = List.replicate len 0 :=
  if_neg fun hr => Nat.not_le.2 h (inRange_iff.1 hr)

theorem step_writeBuf (hb : s.busy = false) (hh : s.host = .writeBuf off bs :: rest) :
    step s = .next (hostWrite off bs { s with host := rest }) := step_act hb hh

theorem step_readBuf (hb : s.busy = false) (hh : s.host = .readBuf off len :: rest) :
    step s = .next (State.answer { s with host := rest } (.bytes (hostReadReply off len { s with host := rest }))) :=
  step_act hb hh

end BufferPort

/-- Settles O10, access by access; what a store in range leaves is `Memory.stored_writeBytes`. -/
theorem bufferPortReadsAndWrites : Obligations.BufferPortReadsAndWrites := by
  intro s rest hb
  refine ⟨fun off bs hh => ⟨fun hwf hr => ?_, fun hr => ?_⟩, fun off len hh => ⟨fun hr => ?_, fun hr => ?_⟩⟩
  · have hstep : step s = .next (State.memWrite { s with host := rest } off bs) := by
      rw [step_writeBuf hb hh, hostWrite_inRange (s := { s with host := rest }) hr]
    exact ⟨Memory.writeBytes s.buf off bs, hstep, Memory.stored_writeBytes hwf off bs⟩
  · rw [step_writeBuf hb hh, hostWrite_outOfRange (s := { s with host := rest }) hr]
  · rw [step_readBuf hb hh, hostReadReply_inRange (s := { s with host := rest }) hr]
    rfl
  · rw [step_readBuf hb hh, hostReadReply_outOfRange (s := { s with host := rest }) hr]
    rfl

end Sys2Proof.Machine

/-! The encoding (30_encoding.md): each format of the decoder against the word forms of the encoder and against its rows
of the opcode table, the decoder as a whole, and the command cycle for the word the host presents. -/

namespace Sys2Proof.Machine

/-! ### Register fields (rule R73) -/

/-- A reader of a 4-bit field that takes the numbers of a file of `n` registers and no other. -/
def ReadsFile {n : Nat} (f : BitVec 4 → Except Illegal (Fin n)) : Prop := ∀ v r, f v = .ok r ↔ v.toNat = r.val

theorem readsFile_regOf8 : ReadsFile regOf8 := by
  intro v r
  unfold regOf8
  split
  · simp [Fin.ext_iff]
  · simp only [reduceCtorEq, false_iff]
    omega

theorem readsFile_regOf4 : ReadsFile regOf4 := by
  intro v r
  unfold regOf4
  split
  · simp [Fin.ext_iff]
  · simp only [reduceCtorEq, false_iff]
    omega

section ReadsFile

variable {n : Nat} {f : BitVec 4 → Except Illegal (Fin n)}

/-- The number a field was read as, put back into its field. -/
theorem ReadsFile.regField_eq (hf : ReadsFile f) {v : BitVec 4} {r : Fin n} (h : f v = .ok r) : regField r = v := by
  rw [regField, ← (hf v r).1 h, BitVec.ofNat_toNat, BitVec.setWidth_eq]

theorem ReadsFile.exists_ok_iff (hf : ReadsFile f) (v : BitVec 4) : (∃ r, f v = .ok r) ↔ v.toNat < n :=
  ⟨fun ⟨r, h⟩ => (hf v r).1 h ▸ r.isLt, fun h => ⟨⟨v.toNat, h⟩, (hf v _).2 rfl⟩⟩

end ReadsFile

/-! ### When a format reads a command (rules R72, R78) -/

theorem bind_eq_ok_iff {α β : Type} {x : Except Illegal α} {f : α → Except Illegal β} {b : β} :
    x >>= f = .ok b ↔ ∃ a, x = .ok a ∧ f a = .ok b := by
  cases x with
  | error e => exact ⟨nofun, nofun⟩
  | ok a => exact ⟨fun h => ⟨a, rfl, h⟩, fun ⟨_, h, h'⟩ => by cases h; exact h'⟩

theorem guard_eq_ok_iff {p : Prop} [Decidable p] {e : Illegal} {x : Except Illegal Instr} {i : Instr} :
    (if p then x else .error e) = .ok i ↔ p ∧ x = .ok i := by
  by_cases hp : p <;> simp [hp]

section Forms

variable {w : Word} {i : Instr} {α β γ : Type} {fa : BitVec 4 → Except Illegal α} {fb : BitVec 4 → Except Illegal β}
  {fc : BitVec 4 → Except Illegal γ}

theorem formZ_ok_iff {k : Instr} : formZ w k = .ok i ↔ w.extractLsb' 0 24 = 0#24 ∧ k = i := by
  rw [formZ, guard_eq_ok_iff, Except.ok.injEq]

theorem formA_ok_iff {k : α → Instr} :
    formA w fa k = .ok i ↔ w.extractLsb' 0 20 = 0#20 ∧ ∃ a, fa (aField w) = .ok a ∧ k a = i := by
  simp only [formA, guard_eq_ok_iff, bind_eq_ok_iff, Except.ok.injEq]

theorem formAB_ok_iff {k : α → β → Instr} :
    formAB w fa fb k = .ok i ↔
      w.extractLsb' 0 16 = 0#16 ∧ ∃ a, fa (aField w) = .ok a ∧ ∃ b, fb (bField w) = .ok b ∧ k a b = i := by
  simp only [formAB, guard_eq_ok_iff, bind_eq_ok_iff, Except.ok.injEq]

theorem formABC_ok_iff {k : α → β → γ → Instr} :
    formABC w fa fb fc k = .ok i ↔
      w.extractLsb' 0 12 = 0#12 ∧ ∃ a, fa (aField w) = .ok a ∧ ∃ b, fb (bField w) = .ok b ∧
        ∃ c, fc (cField w) = .ok c ∧ k a b c = i := by
  simp only [formABC, guard_eq_ok_iff, bind_eq_ok_iff, Except.ok.injEq]

theorem formAI_ok_iff {k : α → Half → Instr} :
    formAI w fa k = .ok i ↔ bField w = 0#4 ∧ ∃ a, fa (aField w) = .ok a ∧ k a (immField w) = i := by
  simp only [formAI, guard_eq_ok_iff, bind_eq_ok_iff, Except.ok.injEq]

theorem formI_ok_iff {k : Half → Instr} :
    formI w k = .ok i ↔ w.extractLsb' 16 8 = 0#8 ∧ (immField w).toNat < 24 ∧ k (immField w) = i := by
  simp only [formI, guard_eq_ok_iff, Except.ok.injEq]

end Forms

/-! ### Decoding the encoder's words -/

/-- Settles O1: the word of a command has its opcode, its register numbers and its immediate in the fields the decoder
reads, and zero in the bits its format marks. -/
theorem encodeThenDecodeReturnsTheCommand : Obligations.EncodeThenDecodeReturnsTheCommand := by
  intro i hi
  cases i
  case nop | clrerr | srst | kInit | kF1600 | kFinal | aesClr => rfl
  case kSqueeze | kLds | kSts | pinf | pldg | ecKeygen =>
    simp [encode, decode, formA_ok_iff]
  case ldw | stw | movw | kAbsorb | fpNeg | fpInv | pmov | pneg | pdbl | aesKeyexp | aesSetctr =>
    simp [encode, decode, formAB_ok_iff]
  case kHash | fpAdd | fpSub | fpMul | pset | pget | padd | pmul | ecPubkey | ecAddr | aesEncb | aesCtrx =>
    simp [encode, decode, formABC_ok_iff]
  case li => simp [encode, decode, formAI_ok_iff]
  case kRound imm =>
    have himm : imm.toNat < 24 := of_decide_eq_true hi
    simp [encode, decode, formI_ok_iff, himm]

/-! ### A word from its fields (rules R70, R72) -/

section Fields

variable {w : Word}

theorem eq_wordABC (h : w.extractLsb' 0 12 = 0#12) : w = wordABC (opField w) (aField w) (bField w) (cField w) := by
  have hlow := congrArg BitVec.toNat h
  apply BitVec.eq_of_toNat_eq
  simp only [toNat_wordABC, opField, aField, bField, cField, toNat_field, BitVec.toNat_ofNat] at hlow ⊢
  omega

/-- Bits that lie among bits that are zero are zero. -/
theorem extractLsb'_eq_zero_of_within {lo len lo' len' : Nat} (h : w.extractLsb' lo len = 0#len) (hlo : lo ≤ lo')
    (hhi : lo' + len' ≤ lo + len) : w.extractLsb' lo' len' = 0#len' := by
  apply BitVec.eq_of_getLsbD_eq
  intro j hj
  have hbit := congrArg (BitVec.getLsbD · (lo' - lo + j)) h
  have hindex : lo + (lo' - lo + j) = lo' + j := by omega
  have hlen : lo' - lo + j < len := by omega
  simpa [hindex, hlen, hj] using hbit

/-- The bits of format `AB` that must be zero are field `c` and those of format `ABC`. -/
theorem low16_eq_zero (h : w.extractLsb' 0 16 = 0#16) : w.extractLsb' 0 12 = 0#12 ∧ cField w = 0#4 :=
  ⟨extractLsb'_eq_zero_of_within h (by decide) (by decide), extractLsb'_eq_zero_of_within h (by decide) (by decide)⟩

/-- The bits of format `A` that must be zero are field `b` and those of format `AB`. -/
theorem low20_eq_zero (h : w.extractLsb' 0 20 = 0#20) : w.extractLsb' 0 16 = 0#16 ∧ bField w = 0#4 :=
  ⟨extractLsb'_eq_zero_of_within h (by decide) (by decide), extractLsb'_eq_zero_of_within h (by decide) (by decide)⟩

/-- The bits of format `Z` that must be zero are field `a` and those of format `A`. -/
theorem low24_eq_zero (h : w.extractLsb' 0 24 = 0#24) : w.extractLsb' 0 20 = 0#20 ∧ aField w = 0#4 :=
  ⟨extractLsb'_eq_zero_of_within h (by decide) (by decide), extractLsb'_eq_zero_of_within h (by decide) (by decide)⟩

/-- The bits of format `I` that must be zero are the fields `a` and `b`. -/
theorem mid8_eq_zero (h : w.extractLsb' 16 8 = 0#8) : aField w = 0#4 ∧ bField w = 0#4 :=
  ⟨extractLsb'_eq_zero_of_within h (by decide) (by decide), extractLsb'_eq_zero_of_within h (by decide) (by decide)⟩

theorem eq_wordAB (h : w.extractLsb' 0 16 = 0#16) : w = wordABC (opField w) (aField w) (bField w) 0 := by
  obtain ⟨hlow, hc⟩ := low16_eq_zero h
  exact (eq_wordABC hlow).trans (by rw [hc]; rfl)

theorem eq_wordA (h : w.extractLsb' 0 20 = 0#20) : w = wordABC (opField w) (aField w) 0 0 := by
  obtain ⟨hlow, hb⟩ := low20_eq_zero h
  exact (eq_wordAB hlow).trans (by rw [hb]; rfl)

theorem eq_wordZ (h : w.extractLsb' 0 24 = 0#24) : w = wordABC (opField w) 0 0 0 := by
  obtain ⟨hlow, ha⟩ := low24_eq_zero h
  exact (eq_wordA hlow).trans (by rw [ha]; rfl)

theorem eq_wordAI (h : bField w = 0#4) : w = wordAI (opField w) (aField w) (immField w) := by
  have hb := congrArg BitVec.toNat h
  apply BitVec.eq_of_toNat_eq
  simp only [toNat_wordAI, opField, aField, bField, immField, toNat_field, BitVec.toNat_ofNat] at hb ⊢
  omega

theorem eq_wordI (h : w.extractLsb' 16 8 = 0#8) : w = wordAI (opField w) 0 (immField w) := by
  obtain ⟨ha, hb⟩ := mid8_eq_zero h
  exact (eq_wordAI hb).trans (by rw [ha]; rfl)

end Fields

/-! ### The rows of the opcode table (rules R74, R75) -/

/-- Masking keeps no bit of a word exactly when the bits under the mask are zero. -/
theorem and_mask_eq_zero_iff (w : Word) (lo len : Nat) :
    w &&& ((BitVec.allOnes len).setWidth 32 <<< lo) = 0#32 ↔ w.extractLsb' lo len = 0#len := by
  constructor <;> intro h <;> apply BitVec.eq_of_getLsbD_eq <;> intro j hj
  · have hbit := congrArg (BitVec.getLsbD · (lo + j)) h
    simp only [BitVec.getLsbD_and, BitVec.getLsbD_shiftLeft, BitVec.getLsbD_setWidth, BitVec.getLsbD_allOnes,
      BitVec.getLsbD_extractLsb', BitVec.getLsbD_zero] at hbit ⊢
    grind
  · have hbit := congrArg (BitVec.getLsbD · (j - lo)) h
    simp only [BitVec.getLsbD_and, BitVec.getLsbD_shiftLeft, BitVec.getLsbD_setWidth, BitVec.getLsbD_allOnes,
      BitVec.getLsbD_extractLsb', BitVec.getLsbD_zero] at hbit ⊢
    grind

section MustBeZero

variable (w : Word)

theorem and_mbzZ_iff : w &&& Format.mbz .Z = 0#32 ↔ w.extractLsb' 0 24 = 0#24 := and_mask_eq_zero_iff w 0 24

theorem and_mbzA_iff : w &&& Format.mbz .A = 0#32 ↔ w.extractLsb' 0 20 = 0#20 := and_mask_eq_zero_iff w 0 20

theorem and_mbzAB_iff : w &&& Format.mbz .AB = 0#32 ↔ w.extractLsb' 0 16 = 0#16 := and_mask_eq_zero_iff w 0 16

theorem and_mbzABC_iff : w &&& Format.mbz .ABC = 0#32 ↔ w.extractLsb' 0 12 = 0#12 := and_mask_eq_zero_iff w 0 12

theorem and_mbzAI_iff : w &&& Format.mbz .AI = 0#32 ↔ bField w = 0#4 := and_mask_eq_zero_iff w 16 4

theorem and_mbzI_iff : w &&& Format.mbz .I = 0#32 ↔ w.extractLsb' 16 8 = 0#8 := and_mask_eq_zero_iff w 16 8

end MustBeZero

/-- What rule R74 (b), (c), (d) hold against a word of a row, as facts about its fields. -/
theorem forbids_eq_false_iff (r : TableRow) (w : Word) :
    r.forbids w = false ↔
      w &&& r.format.mbz = 0#32 ∧ (∀ p ∈ (fieldNumbers w).zip r.files, p.1 < p.2) ∧
        (r.op = 0x12 → (immField w).toNat < 24) := by
  simp [TableRow.forbids, and_assoc, ← List.map_uncurry_zip_eq_zipWith]

/-- Only `K.ROUND`, the one row of format `I`, has an index to check. -/
theorem op_ne_of_format {r : TableRow} (hr : r ∈ tableRows) (hf : r.format ≠ .I) : r.op ≠ 0x12 := by
  revert r
  decide

/-- Each opcode has one row. -/
theorem tableRow_unique {r q : TableRow} (hr : r ∈ tableRows) (hq : q ∈ tableRows) (h : r.op = q.op) : r = q :=
  List.inj_on_of_nodup_map (f := TableRow.op) (by decide) hr hq h

/-- A word with the opcode of a row is illegal by what the row holds against it alone. -/
theorem illegalByTable_iff_forbids {r : TableRow} {w : Word} (hr : r ∈ tableRows) (hop : r.op = (opField w).toNat) :
    illegalByTable w ↔ r.forbids w = true := by
  constructor
  · rintro (hno | ⟨q, hq, hqop, hforbids⟩)
    · exact absurd hop (hno r hr)
    · rwa [tableRow_unique hr hq (hop.trans hqop.symm)]
  · exact fun h => .inr ⟨r, hr, hop, h⟩

/-! ### The decoder row by row -/

/-- What the decoder answers for a word that has the row's opcode: a command that the word is the encoding of, and one
exactly when the row forbids nothing. -/
structure FollowsRow (r : TableRow) (w : Word) (answer : Except Illegal Instr) : Prop where
  row_mem : r ∈ tableRows
  row_op : r.op = (opField w).toNat
  encodes : ∀ i, answer = .ok i → WellFormed i ∧ encode i = w
  legal_iff : (∃ i, answer = .ok i) ↔ r.forbids w = false

section FollowsRow

variable {op na nb nc : Nat} {w : Word} {fa : BitVec 4 → Except Illegal (Fin na)}
  {fb : BitVec 4 → Except Illegal (Fin nb)} {fc : BitVec 4 → Except Illegal (Fin nc)}

theorem opField_eq (hop : (opField w).toNat = op) : opField w = BitVec.ofNat 8 op := by
  rw [← hop, BitVec.ofNat_toNat, BitVec.setWidth_eq]

theorem formZ_followsRow {k : Instr} (hrow : ⟨op, .Z, []⟩ ∈ tableRows) (hop : (opField w).toNat = op)
    (hk : WellFormed k ∧ encode k = wordABC (BitVec.ofNat 8 op) 0 0 0) : FollowsRow ⟨op, .Z, []⟩ w (formZ w k) where
  row_mem := hrow
  row_op := hop.symm
  encodes i h := by
    obtain ⟨hz, rfl⟩ := formZ_ok_iff.1 h
    obtain ⟨hwf, henc⟩ := hk
    exact ⟨hwf, by rw [henc, ← opField_eq hop, ← eq_wordZ hz]⟩
  legal_iff := by
    have hround : op ≠ 0x12 := op_ne_of_format hrow nofun
    simp [formZ_ok_iff, forbids_eq_false_iff, and_mbzZ_iff, hround]

theorem formA_followsRow {k : Fin na → Instr} (hrow : ⟨op, .A, [na]⟩ ∈ tableRows)
    (hop : (opField w).toNat = op) (ha : ReadsFile fa)
    (hk : ∀ a, WellFormed (k a) ∧ encode (k a) = wordABC (BitVec.ofNat 8 op) (regField a) 0 0) :
    FollowsRow ⟨op, .A, [na]⟩ w (formA w fa k) where
  row_mem := hrow
  row_op := hop.symm
  encodes i h := by
    obtain ⟨hz, a, hfa, rfl⟩ := formA_ok_iff.1 h
    obtain ⟨hwf, henc⟩ := hk a
    exact ⟨hwf, by rw [henc, ha.regField_eq hfa, ← opField_eq hop, ← eq_wordA hz]⟩
  legal_iff := by
    have hround : op ≠ 0x12 := op_ne_of_format hrow nofun
    simp [formA_ok_iff, forbids_eq_false_iff, and_mbzA_iff, hround, fieldNumbers, ← ha.exists_ok_iff]

theorem formAB_followsRow {k : Fin na → Fin nb → Instr} (hrow : ⟨op, .AB, [na, nb]⟩ ∈ tableRows)
    (hop : (opField w).toNat = op) (ha : ReadsFile fa) (hb : ReadsFile fb)
    (hk : ∀ a b, WellFormed (k a b) ∧ encode (k a b) = wordABC (BitVec.ofNat 8 op) (regField a) (regField b) 0) :
    FollowsRow ⟨op, .AB, [na, nb]⟩ w (formAB w fa fb k) where
  row_mem := hrow
  row_op := hop.symm
  encodes i h := by
    obtain ⟨hz, a, hfa, b, hfb, rfl⟩ := formAB_ok_iff.1 h
    obtain ⟨hwf, henc⟩ := hk a b
    exact ⟨hwf, by rw [henc, ha.regField_eq hfa, hb.regField_eq hfb, ← opField_eq hop, ← eq_wordAB hz]⟩
  legal_iff := by
    have hround : op ≠ 0x12 := op_ne_of_format hrow nofun
    simp [formAB_ok_iff, forbids_eq_false_iff, and_mbzAB_iff, hround, fieldNumbers, ← ha.exists_ok_iff, ← hb.exists_ok_iff]

theorem formABC_followsRow {k : Fin na → Fin nb → Fin nc → Instr}
    (hrow : ⟨op, .ABC, [na, nb, nc]⟩ ∈ tableRows)
    (hop : (opField w).toNat = op) (ha : ReadsFile fa) (hb : ReadsFile fb) (hc : ReadsFile fc)
    (hk : ∀ a b c, WellFormed (k a b c) ∧
      encode (k a b c) = wordABC (BitVec.ofNat 8 op) (regField a) (regField b) (regField c)) :
    FollowsRow ⟨op, .ABC, [na, nb, nc]⟩ w (formABC w fa fb fc k) where
  row_mem := hrow
  row_op := hop.symm
  encodes i h := by
    obtain ⟨hz, a, hfa, b, hfb, c, hfc, rfl⟩ := formABC_ok_iff.1 h
    obtain ⟨hwf, henc⟩ := hk a b c
    exact ⟨hwf, by
      rw [henc, ha.regField_eq hfa, hb.regField_eq hfb, hc.regField_eq hfc, ← opField_eq hop, ← eq_wordABC hz]⟩
  legal_iff := by
    have hround : op ≠ 0x12 := op_ne_of_format hrow nofun
    simp [formABC_ok_iff, forbids_eq_false_iff, and_mbzABC_iff, hround, fieldNumbers, ← ha.exists_ok_iff, ← hb.exists_ok_iff,
      ← hc.exists_ok_iff]

theorem formAI_followsRow {k : Fin na → Half → Instr} (hrow : ⟨op, .AI, [na]⟩ ∈ tableRows)
    (hop : (opField w).toNat = op) (ha : ReadsFile fa)
    (hk : ∀ a imm, WellFormed (k a imm) ∧ encode (k a imm) = wordAI (BitVec.ofNat 8 op) (regField a) imm) :
    FollowsRow ⟨op, .AI, [na]⟩ w (formAI w fa k) where
  row_mem := hrow
  row_op := hop.symm
  encodes i h := by
    obtain ⟨hz, a, hfa, rfl⟩ := formAI_ok_iff.1 h
    obtain ⟨hwf, henc⟩ := hk a (immField w)
    exact ⟨hwf, by rw [henc, ha.regField_eq hfa, ← opField_eq hop, ← eq_wordAI hz]⟩
  legal_iff := by
    have hround : op ≠ 0x12 := op_ne_of_format hrow nofun
    simp [formAI_ok_iff, forbids_eq_false_iff, and_mbzAI_iff, hround, fieldNumbers, ← ha.exists_ok_iff]

theorem formI_kRound_followsRow (hop : (opField w).toNat = 0x12) : FollowsRow ⟨0x12, .I, []⟩ w (formI w .kRound) where
  row_mem := by decide
  row_op := hop.symm
  encodes i h := by
    obtain ⟨hz, himm, rfl⟩ := formI_ok_iff.1 h
    have hword : encode (.kRound (immField w)) = wordAI (opField w) 0 (immField w) :=
      congrArg (wordAI · 0 (immField w)) (opField_eq hop).symm
    exact ⟨decide_eq_true himm, hword.trans (eq_wordI hz).symm⟩
  legal_iff := by
    simp [formI_ok_iff, forbids_eq_false_iff, and_mbzI_iff]

end FollowsRow

/-- The decoder, row by row: the word has the opcode of no row and no command, or of one row, which it follows. -/
theorem decode_followsRow (w : Word) :
    ((∀ r ∈ tableRows, r.op ≠ (opField w).toNat) ∧ ∀ i, decode w ≠ .ok i) ∨ ∃ r, FollowsRow r w (decode w) := by
  unfold decode
  split
  -- NOP, CLRERR, SRST, K.INIT, K.F1600, K.FINAL, AES.CLR
  case h_1 hop | h_2 hop | h_3 hop | h_8 hop | h_9 hop | h_12 hop | h_38 hop =>
    exact .inr ⟨_, formZ_followsRow (by decide) hop ⟨rfl, rfl⟩⟩
  -- LI
  case h_4 hop => exact .inr ⟨_, formAI_followsRow (by decide) hop readsFile_regOf8 fun _ _ => ⟨rfl, rfl⟩⟩
  -- K.ROUND
  case h_10 hop => exact .inr ⟨_, formI_kRound_followsRow hop⟩
  -- K.SQUEEZE, K.LDS, K.STS, EC.KEYGEN
  case h_13 hop | h_15 hop | h_16 hop | h_33 hop =>
    exact .inr ⟨_, formA_followsRow (by decide) hop readsFile_regOf8 fun _ => ⟨rfl, rfl⟩⟩
  -- PINF, PLDG
  case h_23 hop | h_24 hop =>
    exact .inr ⟨_, formA_followsRow (by decide) hop readsFile_regOf4 fun _ => ⟨rfl, rfl⟩⟩
  -- LDW, STW, MOVW, K.ABSORB, FP.NEG, FP.INV, AES.KEYEXP, AES.SETCTR
  case h_5 hop | h_6 hop | h_7 hop | h_11 hop | h_20 hop | h_21 hop | h_34 hop | h_36 hop =>
    exact .inr ⟨_, formAB_followsRow (by decide) hop readsFile_regOf8 readsFile_regOf8 fun _ _ => ⟨rfl, rfl⟩⟩
  -- PMOV, PNEG, PDBL
  case h_26 hop | h_27 hop | h_28 hop =>
    exact .inr ⟨_, formAB_followsRow (by decide) hop readsFile_regOf4 readsFile_regOf4 fun _ _ => ⟨rfl, rfl⟩⟩
  -- K.HASH, FP.ADD, FP.SUB, FP.MUL, EC.ADDR, AES.ENCB, AES.CTRX
  case h_14 hop | h_17 hop | h_18 hop | h_19 hop | h_32 hop | h_35 hop | h_37 hop =>
    exact .inr ⟨_, formABC_followsRow (by decide) hop readsFile_regOf8 readsFile_regOf8 readsFile_regOf8
      fun _ _ _ => ⟨rfl, rfl⟩⟩
  -- PSET, EC.PUBKEY
  case h_22 hop | h_31 hop =>
    exact .inr ⟨_, formABC_followsRow (by decide) hop readsFile_regOf4 readsFile_regOf8 readsFile_regOf8
      fun _ _ _ => ⟨rfl, rfl⟩⟩
  -- PGET
  case h_25 hop =>
    exact .inr ⟨_, formABC_followsRow (by decide) hop readsFile_regOf8 readsFile_regOf8 readsFile_regOf4
      fun _ _ _ => ⟨rfl, rfl⟩⟩
  -- PADD
  case h_29 hop =>
    exact .inr ⟨_, formABC_followsRow (by decide) hop readsFile_regOf4 readsFile_regOf4 readsFile_regOf4
      fun _ _ _ => ⟨rfl, rfl⟩⟩
  -- PMUL
  case h_30 hop =>
    exact .inr ⟨_, formABC_followsRow (by decide) hop readsFile_regOf4 readsFile_regOf8 readsFile_regOf4
      fun _ _ _ => ⟨rfl, rfl⟩⟩
  -- no opcode of the table
  case h_39 =>
    refine .inl ⟨?_, nofun⟩
    simp only [tableRows, List.cons_append, List.nil_append, List.forall_mem_cons]
    grind

/-- Settles O2, by the row the word follows. -/
theorem legalWordIsTheEncodingOfItsCommand : Obligations.LegalWordIsTheEncodingOfItsCommand := by
  intro w i h
  obtain ⟨-, hnone⟩ | ⟨r, hr⟩ := decode_followsRow w
  · exact absurd h (hnone i)
  · exact hr.encodes i h

/-- A word has no command exactly when it is illegal by the table (rule R74). -/
theorem decode_ne_ok_iff (w : Word) : (∀ i, decode w ≠ .ok i) ↔ illegalByTable w := by
  obtain ⟨hno, hnone⟩ | ⟨r, hr⟩ := decode_followsRow w
  · exact ⟨fun _ => .inl hno, fun _ => hnone⟩
  · rw [illegalByTable_iff_forbids hr.row_mem hr.row_op, ← not_exists, hr.legal_iff, Bool.not_eq_false]

/-! ### The command cycle of a presented word (rule R71) -/

section Cycle

variable {s : State} {w : Word} {rest : List HostAction}

theorem step_command (hb : s.busy = false) (hh : s.host = .command w :: rest) :
    step s = runCommand { s with host := rest, cmd := w } := step_act hb hh

/-- A word without a command faults with `IllegalCommand`: the latch takes the code and the word (rules R280, R284). -/
theorem step_illegal (hd : ∀ i, decode w ≠ .ok i) (he : s.err = false) (hb : s.busy = false)
    (hh : s.host = .command w :: rest) :
    step s = .next { s with host := rest, cmd := w, err := true, errcode := 0x01, errcmd := w } := by
  cases hw : decode w with
  | ok i => exact absurd hw (hd i)
  | error e =>
    have hclear : State.discards { s with host := rest, cmd := w } w = false := discards_of_clear he w
    rw [step_command hb hh, runCommand_illegal hclear hw, raise, State.takeFault, ← hb]
    rfl

/-- The word is not discarded: the latch is clear, or the word is one of the two that acknowledge (rules R71, R286). -/
theorem discards_eq_false (h : s.err = false ∨ w = clrerrWord ∨ w = srstWord) : s.discards w = false := by
  obtain he | rfl | rfl := h
  · exact discards_of_clear he w
  · simp [State.discards]
  · simp [State.discards]

theorem step_decoded {i : Instr} (hb : s.busy = false) (hh : s.host = .command w :: rest)
    (h : s.err = false ∨ w = clrerrWord ∨ w = srstWord) (hd : decode w = .ok i) :
    step s = exec i { s with host := rest, cmd := w } := by
  have hruns : State.discards { s with host := rest, cmd := w } w = false := discards_eq_false h
  rw [step_command hb hh, runCommand_decoded hruns hd]

end Cycle

/-- Settles O3, by the row the word follows and the fault entry of the step. -/
theorem illegalWordsAreThoseTheTableForbids : Obligations.IllegalWordsAreThoseTheTableForbids :=
  fun w => ⟨decode_ne_ok_iff w, fun _ _ hw => step_illegal ((decode_ne_ok_iff w).2 hw)⟩

/-- Settles O4: the decoder evaluates the eleven words, the encoder gives them back by O2; it answers the three others
with a cause of rule R74, and they fault as any illegal word. -/
theorem workedEncodings : Obligations.WorkedEncodings := by
  refine ⟨fun p hp => ?_, fun w hw => ?_⟩
  · have hdec : decode p.1 = .ok p.2 := by
      revert p
      decide
    obtain ⟨-, henc⟩ := legalWordIsTheEncodingOfItsCommand _ _ hdec
    exact ⟨hdec, henc⟩
  · obtain ⟨e, hcause⟩ : ∃ e, decode w = .error e := by
      simp only [List.mem_cons, List.not_mem_nil, or_false] at hw
      obtain rfl | rfl | rfl := hw
      exacts [⟨.registerNumber, rfl⟩, ⟨.roundIndex, rfl⟩, ⟨.mustBeZero, rfl⟩]
    have hbad : ∀ i, decode w ≠ .ok i := by
      rw [hcause]
      exact nofun
    exact ⟨hbad, fun _ _ => step_illegal hbad⟩

theorem decodeTableWord_eq_some_iff {nbits w : Nat} {i : Instr} :
    decodeTableWord nbits w = some i ↔ decode (tableWord nbits w) = .ok i := by
  unfold decodeTableWord
  split <;> simp_all

/-- Settles O5: the word is not discarded and decodes; `withFetchWord` presents the word of the table at a free port. -/
theorem stepRunsTheDecodedCommand : Obligations.StepRunsTheDecodedCommand :=
  ⟨fun _ _ _ _ => step_decoded, fun s nbits w _ he hd =>
    step_decoded (s := s.withFetchWord nbits w) rfl rfl (.inl he) (decodeTableWord_eq_some_iff.1 hd)⟩

/-- Settles O6: the word is discarded. -/
theorem discardedCommandChangesNothing : Obligations.DiscardedCommandChangesNothing := by
  intro s w rest hb hh he hclrerr hsrst
  have hdiscards : State.discards { s with host := rest, cmd := w } w = true := (discards_of_set he).2 ⟨hclrerr, hsrst⟩
  rw [step_command hb hh, runCommand_discarded hdiscards, ← hb]

/-! ### Totality -/

theorem runCommand_total (s : State) : ∃ t, runCommand s = .next t := by
  unfold runCommand
  split
  · exact ⟨_, rfl⟩
  · split
    · exact ⟨_, rfl⟩
    · exact exec_total _ s

theorem hostAct_total (act : HostAction) (s : State) : ∃ t, hostAct act s = .next t := by
  cases act with
  | command w => exact runCommand_total _
  | writeBuf | readBuf | readStatus | reset => exact ⟨_, rfl⟩

/-- Settles O11, by the kinds of the next happening; every command has a next state by `exec_total`. -/
theorem everyStepHasANextState : Obligations.EveryStepHasANextState := by
  intro s
  unfold step nextStep
  split
  · exact ⟨_, rfl⟩
  · exact runCommand_total s
  · exact hostAct_total _ _
  · exact ⟨_, rfl⟩

end Sys2Proof.Machine

/-! System and data movement (40_system.md): the commands with one check out of their condition, `NOP`, `CLRERR`, the
writers of one register, and the 32 bytes that `LDW` and `STW` move between a `W` register and `BUF`. -/

namespace Sys2Proof.Machine

/-! ### The commands with one check -/

theorem fieldOf_eq_zero {s : State} {v : WReg} (h : (s.getW v).toNat = 0 ∨ (s.getW v).toNat = primeP) :
    s.fieldOf v = 0 := by
  unfold State.fieldOf
  obtain h | h := h
  · rw [h, Nat.zero_mod]
  · rw [h, Nat.mod_self]

/-- `FP.INV` of a register that is 0 modulo `P` (rule R174). -/
theorem exec_fpInv_fail {s : State} {w v : WReg} (h : s.fieldOf v = 0) :
    exec (.fpInv w v) s = .next (s.takeFault .divisionByZero) := if_pos h

/-- Settles O17: the one check of each command fails, and its failure is the fault. -/
theorem singleCheckFaults : Obligations.SingleCheckFaults := by
  intro s a b w v
  refine ⟨?ldw, ?stw, ?kHash, ?kLds, ?kSts, ?kFinal, ?kSqueeze, ?fpInv⟩
  case ldw | stw | kHash | kLds | kSts => exact fun h => checkRange_fail h _
  case kFinal | kSqueeze => exact fun h => needKfin_fail (by simp [h]) _
  case fpInv => exact fun h => exec_fpInv_fail (fieldOf_eq_zero h)

/-! ### `NOP`, `CLRERR`, `LI`, `MOVW` -/

/-- Settles O22: neither command has a check; `CLRERR` writes what `State.ackFault` writes. -/
theorem nopCountsAndClrerrAcknowledges : Obligations.NopCountsAndClrerrAcknowledges :=
  fun _ => ⟨exec_completes (i := .nop) trivial, exec_completes (i := .clrerr) trivial⟩

/-- A register file after a write: the register written, and every other one. -/
theorem file_set {α : Type} {n : Nat} (file : Vector α n) (a : Fin n) (v : α) :
    (file.set a v)[a] = v ∧ ∀ j : Fin n, j ≠ a → (file.set a v)[j] = file[j] :=
  ⟨Vector.getElem_set_self _, fun j hj => Vector.getElem_set_ne _ j.isLt fun h => hj (Fin.ext h.symm)⟩

/-- Settles O23: neither command has a check, and each writes one register of its file. -/
theorem liAndMovwWriteOneRegister : Obligations.LiAndMovwWriteOneRegister :=
  fun s => ⟨fun a imm => ⟨_, exec_completes (i := .li a imm) trivial, file_set s.r a imm⟩,
    fun a b => ⟨_, exec_completes (i := .movw a b) trivial, file_set s.w a s.w[b]⟩⟩

/-! ### `LDW` and `STW` -/

/-- Settles O24: byte `j` of the register is byte `j` of the string read, which is the byte of `BUF` at `R[b] + j`. -/
theorem ldwReadsBigEndian : Obligations.LdwReadsBigEndian := by
  intro s a b hr
  refine ⟨wideOfBytes (s.memRead (s.getR b) 32), exec_completes (i := .ldw a b) hr, fun j hj => ?_⟩
  rw [wideByte_wideOfBytes (s.length_memRead _ _) hj, State.memRead, Memory.byteAt_readBytes _ _ _ _ hj]

/-- A completed store. Its bytes are a variable here, so that no comparison of the two states evaluates them. -/
theorem completed_memWrite (s : State) (off : Nat) (bs : List Byte) :
    (s.memWrite off bs).completed =
      { s with buf := Memory.writeBytes s.buf off bs, cc := s.cc + 1, busy := false } := rfl

/-- `STW` in range (rule R105). -/
theorem exec_stw {s : State} {a : WReg} {b : RReg} (h : s.getR b + 32 ≤ s.bufSize) :
    exec (.stw a b) s = .next (s.memWrite (s.getR b) (bytesOfWide (s.getW a))).completed :=
  exec_completes (i := .stw a b) h

/-- Settles O25: `Memory.stored_writeBytes` of the 32 bytes of the register. -/
theorem stwStoresBigEndian : Obligations.StwStoresBigEndian := by
  intro s a b hwf hr
  rw [exec_stw hr, completed_memWrite, ← bytesOfWide_eq]
  exact ⟨_, rfl, Memory.stored_writeBytes hwf _ _⟩

/-- Storing the bytes that already stand there changes nothing: the canonical memory that reads alike is the same one. -/
theorem Memory.writeBytes_readBytes {m : Memory} (hm : Memory.wf m = true) (off n : Nat) :
    Memory.writeBytes m off (Memory.readBytes m off n) = m := by
  refine Memory.ext (Memory.writeBytes_wf hm off _) hm fun x => ?_
  rw [Memory.read_writeBytes hm, Memory.length_readBytes]
  split
  · rw [Memory.byteAt_readBytes _ _ _ _ (by omega), Nat.add_sub_cancel' (by omega)]
  · rfl

/-- Writing a `W` register with what it holds changes nothing. -/
theorem w_set_getW (s : State) (a : WReg) : s.w.set a (s.getW a) = s.w := Vector.set_getElem_self _

section RoundTrip

variable {s : State}

/-- The bytes just stored are the bytes read. -/
theorem memRead_memWrite (hwf : Memory.wf s.buf = true) (off : Nat) (bs : List Byte) :
    (s.memWrite off bs).memRead off bs.length = bs := Memory.readBytes_writeBytes hwf off bs

variable (a : WReg) (b : RReg)

/-- `LDW` after `STW` reads the bytes just stored, so it writes the register with what it held (rule R105). -/
theorem completed_stw_ldw_w (hwf : Memory.wf s.buf = true) :
    (effect (.ldw a b) (effect (.stw a b) s).completed).completed.w = s.w := by
  have hread : (s.memWrite (s.getR b) (bytesOfWide (s.getW a))).memRead (s.getR b) 32 = bytesOfWide (s.getW a) := by
    have h := memRead_memWrite hwf (s.getR b) (bytesOfWide (s.getW a))
    rwa [length_bytesOfWide] at h
  simp only [effect, State.setW_w, State.completed_w, State.completed_getR, State.completed_memRead, State.memWrite_w,
    State.memWrite_getR]
  rw [hread, wideOfBytes_bytesOfWide, w_set_getW]

/-- `LDW` leaves `BUF` as it is. -/
theorem completed_ldw_buf : (effect (.ldw a b) s).completed.buf = s.buf := by
  rw [State.completed_buf, effect_buf (i := .ldw a b) rfl]

/-- `STW` after `LDW` stores the bytes just read where they stand (rule R105). -/
theorem completed_ldw_stw_buf (hwf : Memory.wf s.buf = true) :
    (effect (.stw a b) (effect (.ldw a b) s).completed).completed.buf = s.buf := by
  simp only [effect, State.memWrite_buf, State.completed_buf, State.completed_getR, State.completed_getW,
    State.setW_buf, State.setW_getR, State.getW_setW, if_true]
  rw [bytesOfWide_wideOfBytes _ (s.length_memRead _ _), State.memRead, Memory.writeBytes_readBytes hwf]

/-- Neither command moves the offset or the size of `BUF`, so each passes its check after the other. -/
theorem passes_ldw_after_stw (h : passes (.stw a b) s) : passes (.ldw a b) (effect (.stw a b) s).completed := by
  simpa only [passes, effect, State.completed_getR, State.completed_bufSize, State.memWrite_getR,
    State.memWrite_bufSize] using h

theorem passes_stw_after_ldw (h : passes (.ldw a b) s) : passes (.stw a b) (effect (.ldw a b) s).completed := by
  simpa only [passes, effect, State.completed_getR, State.completed_bufSize, State.setW_getR, State.setW_bufSize] using h

end RoundTrip

/-- Two commands that pass their checks, the second in the state the first left. -/
theorem execAll_pair {i j : Instr} {s : State} (hi : passes i s) (hj : passes j (effect i s).completed) :
    execAll [i, j] s = .next (effect j (effect i s).completed).completed := by
  rw [execAll_passes hi, execAll_passes hj, execAll_nil]

/-- Settles O26: both orders run to their end, and each second command finds the bytes of the first. -/
theorem stwAndLdwUndoEachOther : Obligations.StwAndLdwUndoEachOther := by
  intro s a b hwf hr
  have hstw : passes (.stw a b) s := hr
  have hldw : passes (.ldw a b) s := hr
  have hstw_ldw := execAll_pair hstw (passes_ldw_after_stw a b hstw)
  have hldw_stw := execAll_pair hldw (passes_stw_after_ldw a b hldw)
  exact ⟨⟨_, _, execAll_passes hstw, hstw_ldw, completed_stw_ldw_w a b hwf, completed_ldw_buf a b⟩,
    _, hldw_stw, completed_ldw_stw_buf a b hwf⟩

end Sys2Proof.Machine

/-! HashSponge (41_keccak.md): the tables and the four steps of a round, the permutation run in one command or in 24,
absorption byte by byte, in pieces and block by block, and what each command of the unit leaves. -/

namespace Sys2Proof.Machine

/-! ### Tables and steps of a round (rules R121 to R127) -/

/-- The rotation offset of the lane reached after `t` moves of the walk (rule R121). -/
theorem rotOffset_rotWalk : ∀ t, t < 24 → rotOffset (rotWalk t).1 (rotWalk t).2 = (t + 1) * (t + 2) / 2 % 64 := by
  decide +kernel

/-- Bit `2^j - 1` of a round constant is an output of the shift register (rule R122). -/
theorem roundConstant_lfsrBit :
    ∀ i, i < 24 → ∀ j, j < 7 → (roundConstant i).getLsbD (2 ^ j - 1) = lfsrBit (j + 7 * i) := by
  decide +kernel

/-- The bits of the round constants at all other places are 0 (rule R122). -/
theorem roundConstant_other_bits :
    ∀ i, i < 24 → ∀ b, b < 64 → (∀ j, j < 7 → b ≠ 2 ^ j - 1) → (roundConstant i).getLsbD b = false := by
  decide +kernel

/-- Settles O27: the rows as listed, the walk, and the two kinds of bits of a round constant. -/
theorem keccakTablesAreTheGeneratedOnes : Obligations.KeccakTablesAreTheGeneratedOnes :=
  ⟨⟨rfl, rfl, rfl, rfl, rfl, rotOffset_rotWalk⟩,
    fun i hi => ⟨roundConstant_lfsrBit i hi, roundConstant_other_bits i hi⟩⟩

/-- Entry `x` of the column parities of step `θ`. -/
theorem nth_thetaC (A : Lanes) {x : Nat} (hx : x < 5) :
    nth (thetaC A) x = nth A x ^^^ nth A (x + 5) ^^^ nth A (x + 10) ^^^ nth A (x + 15) ^^^ nth A (x + 20) :=
  nth_vecOf _ _ hx

/-- Entry `x` of the column differences of step `θ`. -/
theorem nth_thetaD (C : Vector Lane 5) {x : Nat} (hx : x < 5) :
    nth (thetaD C) x = nth C ((x + 4) % 5) ^^^ (nth C ((x + 1) % 5)).rotateLeft 1 := by
  rw [thetaD, nth_vecOf _ _ hx, rol64_eq]

theorem nth_theta (A : Lanes) {i : Nat} (hi : i < 25) : nth (theta A) i = nth A i ^^^ nth (thetaD (thetaC A)) (i % 5) :=
  nth_vecOf _ _ hi

/-- Settles O28: lane by lane through the parities and the differences; the example is one evaluation. -/
theorem thetaXorsColumnParities : Obligations.ThetaXorsColumnParities := by
  refine ⟨fun A i hi => ?lane, ?singleBit⟩
  case lane =>
    have h5 : ∀ n, n % 5 < 5 := fun n => Nat.mod_lt n (by decide)
    rw [nth_theta A hi, nth_thetaD _ (h5 i), nth_thetaC A (h5 _), nth_thetaC A (h5 _)]
  case singleBit => decide +kernel

/-- The destination `(y, 2x + 3y)` of the lane at `(x, y)` names its source again (rule R124). -/
theorem nth_rhoPi_coordinates (A : Lanes) {x y : Nat} (hx : x < 5) (hy : y < 5) :
    nth (rhoPi A) (y + 5 * ((2 * x + 3 * y) % 5)) = (nth A (x + 5 * y)).rotateLeft (rotOffset x y) := by
  have hcol : (y + 5 * ((2 * x + 3 * y) % 5)) % 5 = y := by omega
  have hrow : (y + 5 * ((2 * x + 3 * y) % 5)) / 5 = (2 * x + 3 * y) % 5 := by omega
  have hsrc : (y + 3 * ((2 * x + 3 * y) % 5)) % 5 = x := by omega
  rw [rhoPi, nth_vecOf _ _ (by omega)]
  simp only [hcol, hrow, hsrc, rol64_eq]

/-- The list `PI` of rule R124 is the destination by coordinates. -/
theorem piList_eq : ∀ i, i < 25 →
    [0, 10, 20, 5, 15, 16, 1, 11, 21, 6, 7, 17, 2, 12, 22, 23, 8, 18, 3, 13, 14, 24, 9, 19, 4].getD i 0 =
      i / 5 + 5 * ((2 * (i % 5) + 3 * (i / 5)) % 5) := by decide

/-- Settles O29: by coordinates; the list `PI` says the same by lane index; the examples are evaluated. -/
theorem rhoPiRotatesAndMovesLanes : Obligations.RhoPiRotatesAndMovesLanes := by
  refine ⟨fun A x y hx hy => nth_rhoPi_coordinates A hx hy, fun A i hi => ?list, ?first, ?second⟩
  case list =>
    rw [piList_eq i hi, nth_rhoPi_coordinates A (Nat.mod_lt i (by decide)) (by omega), Nat.mod_add_div]
  case first | second => decide +kernel

/-- Step `χ` by coordinates (rule R125). -/
theorem nth_chi_coordinates (B : Lanes) {x y : Nat} (hx : x < 5) (hy : y < 5) :
    nth (chi B) (x + 5 * y) =
      nth B (x + 5 * y) ^^^ (~~~ nth B ((x + 1) % 5 + 5 * y) &&& nth B ((x + 2) % 5 + 5 * y)) := by
  have hcol : (x + 5 * y) % 5 = x := by omega
  have hrow : (x + 5 * y) / 5 = y := by omega
  rw [chi, nth_vecOf _ _ (by omega), hcol, hrow]

/-- Step `ι` changes lane 0 alone (rule R126). -/
theorem nth_iota (A : Lanes) (i : Nat) {j : Nat} (hj : j < 25) :
    nth (iota A i) j = if j = 0 then nth A j ^^^ roundConstant i else nth A j := nth_xorLane A 0 _ hj

/-- Settles O30: `χ` by coordinates, `ι` at lane 0 and at the others, the round by its definition, and the examples. -/
theorem chiIotaAndTheRound : Obligations.ChiIotaAndTheRound := by
  refine ⟨fun B x y hx hy => nth_chi_coordinates B hx hy, ?chi, fun A i _ => ⟨?zero, fun j h0 hj => ?other⟩, ?iota,
    fun _ _ _ => rfl, ?round⟩
  case zero => rw [nth_iota A i (by decide), if_pos rfl]
  case other => rw [nth_iota A i hj, if_neg h0.ne']
  case chi | iota | round => decide +kernel

/-! ### The count of commands -/

/-- Two commands counted one after the other (rule R32). -/
theorem add_one_add_one (n : Word) : n + 1 + 1 = n + 2 := BitVec.add_assoc n 1 1

/-! ### The permutation, in one command or in 24 (rules R128, R133 to R135) -/

/-- Settles O31: three commands that pass their checks, with the writes that `effect` lists. -/
theorem initPermuteAndRound : Obligations.InitPermuteAndRound :=
  fun _ => ⟨exec_completes (i := .kInit) trivial, exec_completes (i := .kF1600) trivial,
    fun imm h => exec_completes (i := .kRound imm) h⟩

/-- `K.ROUND` with an index that a word can have (rule R135). -/
theorem exec_kRound {n : Nat} (hn : n < 24) (s : State) :
    exec (.kRound (BitVec.ofNat 16 n)) s =
      .next { s with ks := keccakRound s.ks n, cc := s.cc + 1, busy := false } := by
  have hidx : (BitVec.ofNat 16 n).toNat = n := by rw [BitVec.toNat_ofNat, Nat.mod_eq_of_lt (by omega)]
  have h := exec_completes (i := .kRound (BitVec.ofNat 16 n)) (s := s) (by rwa [passes, hidx])
  rw [effect, hidx] at h
  exact h

/-- One or more `K.ROUND` commands run their rounds in order, each counted (rule R135). -/
theorem execAll_kRounds (n : Nat) (ns : List Nat) (s : State) (h : ∀ k ∈ n :: ns, k < 24) :
    execAll ((n :: ns).map fun k => .kRound (BitVec.ofNat 16 k)) s =
      .next { s with
        ks := (n :: ns).foldl keccakRound s.ks, cc := s.cc + BitVec.ofNat 32 (n :: ns).length, busy := false } := by
  have hn : n < 24 := h n List.mem_cons_self
  rw [List.map_cons, execAll_cons (exec_kRound hn s)]
  induction ns generalizing n s with
  | nil => rfl
  | cons m ns ih =>
    have hns : ∀ k ∈ m :: ns, k < 24 := fun k hk => h k (List.mem_cons_of_mem n hk)
    have hm : m < 24 := hns m List.mem_cons_self
    have hcc : s.cc + 1 + BitVec.ofNat 32 (m :: ns).length = s.cc + BitVec.ofNat 32 (n :: m :: ns).length := by
      rw [BitVec.add_assoc, List.length_cons (a := n), Nat.add_comm, BitVec.ofNat_add]; rfl
    rw [List.map_cons, execAll_cons (exec_kRound hm _), ih m _ hns hm, hcc]
    rfl

/-- Settles O32: the 24 indices are those of the fold that `K.F1600` is. -/
theorem twentyFourRoundsAreThePermutation : Obligations.TwentyFourRoundsAreThePermutation := by
  intro s
  refine ⟨_, exec_completes (i := .kF1600) trivial, ?_⟩
  rw [List.range_succ_eq_map, execAll_kRounds 0 _ s (by simp; omega), ← List.range_succ_eq_map]
  rfl

/-! ### Absorption (rules R129, R136) -/

/-- `K.ABSORB` while the sponge absorbs and with its range in `BUF` (rule R136). -/
theorem exec_kAbsorb {s : State} {a b : RReg} (hkfin : s.kfin = false) (hr : s.getR a + s.getR b ≤ s.bufSize) :
    exec (.kAbsorb a b) s = .next (s.setSponge (absorb s.sponge (s.memRead (s.getR a) (s.getR b)))).completed :=
  exec_completes (i := .kAbsorb a b) ⟨hkfin, hr⟩

/-- Settles O33: the sponge after the bytes, its position, and its bytes while the block is not filled. -/
theorem absorbTakesTheBytes : Obligations.AbsorbTakesTheBytes := by
  intro s a b hkfin hr
  have hlen : (s.memRead (s.getR a) (s.getR b)).length = s.getR b := s.length_memRead _ _
  refine ⟨_, _, exec_kAbsorb hkfin hr, rfl, ?pos, fun hshort j hj => ?byte⟩
  case pos => exact (absorb_pos s.sponge _).trans (by rw [hlen]; rfl)
  case byte =>
    refine (stateByte_absorb_short s.sponge _ (by rwa [hlen]) hj).trans ?_
    rw [hlen]
    refine congrArg (stateByte s.ks j ^^^ ·) (ite_congr rfl (fun hcov => ?_) fun _ => rfl)
    exact Memory.byteAt_readBytes _ _ _ _ (Nat.sub_lt_left_of_lt_add hcov.1 hcov.2)

/-- `K.ABSORB` right after a command that left the sponge `st`: it goes on from `st` (rule R136). -/
theorem exec_kAbsorb_setSponge {s : State} {c d : RReg} (st : Sponge) (hkfin : s.kfin = false)
    (hr : s.getR c + s.getR d ≤ s.bufSize) :
    exec (.kAbsorb c d) (s.setSponge st).completed =
      .next { (s.setSponge (absorb st (s.memRead (s.getR c) (s.getR d)))).completed with cc := s.cc + 2 } := by
  rw [← add_one_add_one]
  exact exec_kAbsorb (s := (s.setSponge st).completed) hkfin hr

/-- Settles O34: the two strings read are the two parts of the one string, and `absorb` goes on where it stopped. -/
theorem absorbingInPiecesIsAbsorbingAtOnce : Obligations.AbsorbingInPiecesIsAbsorbingAtOnce := by
  intro s a b c d e hkfin hc he hr
  have hread : s.memRead (s.getR a) (s.getR e) =
      s.memRead (s.getR a) (s.getR b) ++ s.memRead (s.getR c) (s.getR d) := by
    rw [he, hc]; exact Memory.readBytes_append _ _ _ _
  refine ⟨_, exec_kAbsorb hkfin hr, ?_⟩
  rw [execAll_cons (exec_kAbsorb hkfin (by omega)), execAll_cons (exec_kAbsorb_setSponge _ hkfin (by omega)),
    execAll_nil, ← absorb_append, ← hread]

/-- The block-wise step of rule R129: the 17 little-endian lanes of a block into lanes 0 to 16. -/
def xorBlock (A : Lanes) (blk : List Byte) : Lanes :=
  vecOf 25 fun i => if i < 17 then nth A i ^^^ leLane ((blk.drop (8 * i)).take 8) else nth A i

/-- Byte `k` of the lane of eight bytes of a string (rule R54). -/
theorem extract_leLane {bs : List Byte} {i k : Nat} (hk : k < 8) (h : 8 * i + 8 ≤ bs.length) :
    (leLane ((bs.drop (8 * i)).take 8)).extractLsb' (8 * k) 8 = byteAt bs (8 * i + k) := by
  have hlen : ((bs.drop (8 * i)).take 8).length = 8 := by simp; omega
  rw [← byte_laneBytes _ hk, laneBytes_leLane _ hlen, byteAt_eq_getElem _ _ (by omega),
    byteAt_eq_getElem _ _ (by omega), List.getElem_take, List.getElem_drop]

/-- A block goes into the first 136 state bytes, byte by byte. -/
theorem stateByte_xorBlock (A : Lanes) {blk : List Byte} (h : blk.length = 136) {j : Nat} (hj : j < 200) :
    stateByte (xorBlock A blk) j = stateByte A j ^^^ if j < 136 then byteAt blk j else 0 := by
  rw [stateByte, xorBlock, nth_vecOf _ _ (by omega)]
  by_cases hrate : j < 136
  · rw [if_pos (by omega), if_pos hrate, extract_xor, extract_leLane (by omega) (by omega), Nat.div_add_mod, stateByte]
  · rw [if_neg (by omega), if_neg hrate, stateByte]; simp

/-- The 136th byte completes the XOR of the block (rule R129). -/
theorem xorByte_absorb_eq_xorBlock (A : Lanes) {bs : List Byte} {b : Byte} (h : bs.length = 135) :
    xorByte (absorb (A, 0) bs).1 135 b = xorBlock A (bs ++ [b]) := by
  refine lanes_ext fun j hj => ?_
  rw [stateByte_xorByte _ _ _ hj, stateByte_absorb_short (A, 0) bs (by simp [h]) hj,
    stateByte_xorBlock A (by simp [h]) hj]
  obtain hlt | rfl | hgt := Nat.lt_trichotomy j 135
  · simp [hlt, h, byteAt, hlt.ne, show j < 136 by omega]
  · simp [h, byteAt]
  · simp [h, show ¬ j < 135 by omega, show ¬ j < 136 by omega, show j ≠ 135 by omega]

/-- From position 0 a full block is XORed in and permuted, and the position is 0 again (rule R129). -/
theorem absorb_block (A : Lanes) {blk : List Byte} (h : blk.length = 136) :
    absorb (A, 0) blk = (keccakF (xorBlock A blk), 0) := by
  obtain rfl | ⟨bs, b, rfl⟩ := List.eq_nil_or_concat' blk
  · simp at h
  · have hbs : bs.length = 135 := by simpa using h
    have hpos : (absorb (A, 0) bs).2 = 135 := Fin.ext (by rw [absorb_pos, hbs]; rfl)
    have hsponge : absorb (A, 0) bs = ((absorb (A, 0) bs).1, 135) := Prod.ext rfl hpos
    rw [absorb_append, hsponge, absorb_cons, absorbByte_last, xorByte_absorb_eq_xorBlock A hbs]
    rfl

/-- Settles O35: block after block, each from position 0. -/
theorem fullBlocksAreXoredAndPermuted : Obligations.FullBlocksAreXoredAndPermuted := by
  intro A blocks h
  induction blocks generalizing A with
  | nil => rfl
  | cons blk blocks ih =>
    obtain ⟨hblk, hrest⟩ := List.forall_mem_cons.1 h
    rw [List.flatten_cons, absorb_append, absorb_block A hblk, ih _ hrest]
    rfl

/-! ### Padding, digest and hash (rules R130 to R132, R137 to R139) -/

/-- Settles O36: the state before the permutation is the padded one. -/
theorem finalPadsAndPermutes : Obligations.FinalPadsAndPermutes :=
  fun s h => ⟨padded s.sponge, exec_completes (i := .kFinal) h, fun _ hj => stateByte_padded s.sponge hj⟩

/-- Byte `j` of the digest is state byte `j` (rule R131). -/
theorem byteAt_digest (A : Lanes) {j : Nat} (hj : j < 32) : byteAt (digest A) j = stateByte A j := by
  rw [digest_eq, byteAt_eq_getElem _ _ (by simpa using hj), List.getElem_map, List.getElem_range]

/-- Settles O37: the register holds the digest, whose bytes are the first 32 state bytes. -/
theorem squeezeReadsTheDigest : Obligations.SqueezeReadsTheDigest := by
  intro s a h
  refine ⟨wideOfBytes (digest s.ks), exec_completes (i := .kSqueeze a) h, fun j hj => ?_⟩
  rw [wideByte_wideOfBytes (length_digest _) hj, byteAt_digest _ hj]

/-- `K.INIT` and `K.ABSORB` begin a message, in whatever phase the sponge is (rules R133, R136). -/
theorem execAll_kInit_kAbsorb {s : State} {b c : RReg} (is : List Instr) (hr : s.getR b + s.getR c ≤ s.bufSize) :
    execAll (.kInit :: .kAbsorb b c :: is) s =
      execAll is { s.setSponge (absorb (zeroLanes, 0) (s.memRead (s.getR b) (s.getR c))) with
        kfin := false, cc := s.cc + 2, busy := false } := by
  have habsorb : passes (.kAbsorb b c) (effect .kInit s).completed := ⟨rfl, hr⟩
  rw [execAll_passes (i := .kInit) trivial, execAll_passes habsorb, ← add_one_add_one]
  rfl

/-- `K.FINAL` and `K.SQUEEZE` end a message (rules R137, R138). -/
theorem execAll_kFinal_kSqueeze {s : State} {a : WReg} (h : s.kfin = false) :
    execAll [.kFinal, .kSqueeze a] s =
      .next { s with
        w := s.w.set a (wideOfBytes (digest (finalize s.sponge).1)), ks := (finalize s.sponge).1, kpos := 0,
        kfin := true, cc := s.cc + 2, busy := false } := by
  have hsqueeze : passes (.kSqueeze a) (effect .kFinal s).completed := rfl
  rw [execAll_pair (i := .kFinal) h hsqueeze, ← add_one_add_one]
  rfl

/-- Settles O38: the state that `K.FINAL` leaves after the message is `hashState`, and its digest is `keccak256`. -/
theorem hashIsTheFourCommandSequence : Obligations.HashIsTheFourCommandSequence := by
  intro s a b c hr
  refine ⟨hashState (s.memRead (s.getR b) (s.getR c)), wideOfBytes (keccak256 (s.memRead (s.getR b) (s.getR c))),
    exec_completes (i := .kHash a b c) hr, ?sequence, fun j hj => wideByte_wideOfBytes (length_keccak256 _) hj⟩
  case sequence =>
    have hcc : s.cc + 2 + 2 = s.cc + 4 := BitVec.add_assoc _ _ _
    rw [execAll_kInit_kAbsorb _ hr, execAll_kFinal_kSqueeze rfl, keccak256, hashState, ← hcc]
    rfl

/-! ### Loading and storing the state (rules R140, R141) -/

/-- The 200 bytes of a state are loaded back to it. -/
theorem lanesOfBytes_lanesBytes (A : Lanes) : lanesOfBytes (lanesBytes A) = A := by
  refine lanes_ext fun j hj => ?_
  rw [stateByte_lanesOfBytes (length_lanesBytes A) hj, byteAt_eq_getElem _ _ (by simpa using hj)]
  simp only [lanesBytes_eq, List.getElem_map, List.getElem_range]

/-- `K.STS` in range (rule R141). -/
theorem exec_kSts {s : State} {a : RReg} (h : s.getR a + 200 ≤ s.bufSize) :
    exec (.kSts a) s = .next (s.memWrite (s.getR a) (lanesBytes s.ks)).completed := exec_completes (i := .kSts a) h

/-- `K.LDS` in range (rule R140). -/
theorem exec_kLds {s : State} {a : RReg} (h : s.getR a + 200 ≤ s.bufSize) :
    exec (.kLds a) s = .next { s with ks := lanesOfBytes (s.memRead (s.getR a) 200), cc := s.cc + 1, busy := false } :=
  exec_completes (i := .kLds a) h

/-- `K.LDS` loads the bytes that `K.STS` just stored (rule R141). -/
theorem lanesOfBytes_memRead_memWrite {s : State} (hwf : Memory.wf s.buf = true) (off : Nat) (A : Lanes) :
    lanesOfBytes ((s.memWrite off (lanesBytes A)).memRead off 200) = A := by
  have h := memRead_memWrite hwf off (lanesBytes A)
  rw [length_lanesBytes] at h
  rw [h, lanesOfBytes_lanesBytes]

/-- Settles O39: `K.LDS` byte by byte, `K.STS` as a store of the state bytes, and one after the other. -/
theorem ldsAndStsMoveTheStateBytes : Obligations.LdsAndStsMoveTheStateBytes := by
  intro s a hr
  refine ⟨⟨_, exec_kLds hr, fun j hj => ?load⟩,
    fun hwf => ⟨Memory.writeBytes s.buf (s.getR a) (lanesBytes s.ks), ?store, ?stored, ?back⟩⟩
  case load => rw [stateByte_lanesOfBytes (s.length_memRead _ _) hj]; exact Memory.byteAt_readBytes _ _ _ _ hj
  case store => rw [exec_kSts hr, completed_memWrite]
  case stored => rw [← lanesBytes_eq]; exact Memory.stored_writeBytes hwf _ _
  case back =>
    have hlds := exec_kLds (s := (s.memWrite (s.getR a) (lanesBytes s.ks)).completed) (a := a) hr
    rw [State.completed_getR, State.completed_memRead, State.memWrite_getR, lanesOfBytes_memRead_memWrite hwf,
      completed_memWrite] at hlds
    rw [execAll_cons (exec_kSts hr), completed_memWrite, execAll_cons hlds, execAll_nil, add_one_add_one]

end Sys2Proof.Machine

/-! CurveArithmetic (42_secp256k1.md): the constants, the field commands, the point functions case by case with their
slopes said by equations modulo `P`, the scalar multiple, and the key-level commands. -/

namespace Sys2Proof.Machine

/-! ### The constants (rule R160) -/

/-- Below `N` no sum of copies of the generator is the point at infinity. -/
theorem multiple_generator_ne_infinity {k : Nat} (h1 : 1 ≤ k) (hN : k < orderN) :
    multiple k Point.generator ≠ Point.infinity :=
  (multiple_generator_eq_infinity_iff k).not.2 (Nat.not_dvd_of_pos_of_lt h1 hN)

/-- Settles O40: the values by evaluation, the primes by their certificates, the order of `G` by the group of the
curve. -/
theorem curveConstantsHaveTheStatedProperties : Obligations.CurveConstantsHaveTheStatedProperties := by
  refine ⟨rfl, by decide, rfl, rfl, rfl, by decide, by decide, by decide, by decide, primeP_prime, orderN_prime,
    by decide, ?order, fun k h1 hN => multiple_generator_ne_infinity h1 hN⟩
  case order => exact (multiple_generator_eq_infinity_iff orderN).2 (Nat.dvd_refl orderN)

/-! ### The field commands (rules R161 to R163, R170 to R174) -/

/-- A residue is kept whole by a register. -/
theorem toNat_wideOfField {v : Nat} (h : v < primeP) : (wideOfField v).toNat = v := toNat_ofNat_of_lt h

/-- Reducing the operands first does not change the sum modulo `P`. -/
theorem fadd_mod (x y : Nat) : fadd (x % primeP) (y % primeP) = (x + y) % primeP := (Nat.add_mod x y primeP).symm

/-- Reducing the operands first does not change the product modulo `P`. -/
theorem fmul_mod (x y : Nat) : fmul (x % primeP) (y % primeP) = x * y % primeP := (Nat.mul_mod x y primeP).symm

/-- Reducing the operands first does not change the difference modulo `P`. -/
theorem fsub_mod_int (x y : Nat) : ((fsub (x % primeP) (y % primeP) : Nat) : Int) = ((x : Int) - y) % primeP := by
  rw [fsub_int, Int.natCast_emod, Int.natCast_emod, ← Int.sub_emod]

/-- Settles O41: none of the four has a check, and each writes the residue of the integer result. -/
theorem fieldCommandsReduceExactResults : Obligations.FieldCommandsReduceExactResults := by
  intro s a b c
  refine ⟨⟨_, exec_completes (i := .fpAdd a b c) trivial, ?add⟩, ⟨_, exec_completes (i := .fpSub a b c) trivial, ?sub⟩,
    ⟨_, exec_completes (i := .fpMul a b c) trivial, ?mul⟩, _, exec_completes (i := .fpNeg a b) trivial, ?neg⟩
  case add => exact (toNat_wideOfField (fadd_lt _ _)).trans (fadd_mod _ _)
  case sub => rw [toNat_wideOfField (fsub_lt _ _)]; exact fsub_mod_int _ _
  case mul => exact (toNat_wideOfField (fmul_lt _ _)).trans (fmul_mod _ _)
  case neg => rw [toNat_wideOfField (fneg_lt _), fneg_int]

/-- Two residues with the product 1 with the same number are the same: `r = r·(x·v) = (x·r)·v = v` modulo `P`. -/
theorem eq_of_mul_mod_eq_one {x r v : Nat} (hr : r < primeP) (hv : v < primeP) (hxr : x * r % primeP = 1)
    (hxv : x * v % primeP = 1) : r = v := by
  have hxr' : x * r ≡ 1 [MOD primeP] := hxr
  have hxv' : x * v ≡ 1 [MOD primeP] := hxv
  have h : r ≡ v [MOD primeP] :=
    calc r = r * 1 := (Nat.mul_one r).symm
      _ ≡ r * (x * v) [MOD primeP] := hxv'.symm.mul_left r
      _ = x * r * v := by ring
      _ ≡ 1 * v [MOD primeP] := hxr'.mul_right v
      _ = v := Nat.one_mul v
  exact h.eq_of_lt_of_lt hr hv

/-- The inverse is not 0. -/
theorem finv_pos {x : Nat} (h : x % primeP ≠ 0) : 1 ≤ finv x := by
  refine Nat.one_le_iff_ne_zero.2 fun h0 => ?_
  have hmul := mul_finv h
  rw [h0, Nat.mul_zero, Nat.zero_mod] at hmul
  exact zero_ne_one hmul

/-- Settles O42: `finv` is the power by `finv_eq`, an inverse by `mul_finv`, the only one by `eq_of_mul_mod_eq_one`. -/
theorem inverseIsTheUniqueInverse : Obligations.InverseIsTheUniqueInverse := by
  refine ⟨fun s a b h => exec_fpInv_fail h, fun s a b h => ?inverse, ?one, ?two, ?minusOne⟩
  case inverse =>
    have hval : (wideOfField (finv (s.getW b).toNat)).toNat = finv (s.getW b).toNat := toNat_wideOfField (finv_lt _)
    refine ⟨_, exec_completes (i := .fpInv a b) h, ?_⟩
    rw [hval]
    exact ⟨finv_eq _, finv_pos h, finv_lt _, mul_finv h,
      fun r _ hr hmul => eq_of_mul_mod_eq_one hr (finv_lt _) hmul (mul_finv h)⟩
  case one | two | minusOne => decide +kernel

/-! ### Points: one equation for each case of rules R165 to R167 -/

theorem pneg_of_inf {p : Point} (h : p.inf = true) : pneg p = Point.infinity := if_pos h

theorem pneg_of_finite {p : Point} (h : p.inf = false) :
    pneg p = ⟨p.x, BitVec.ofNat 256 (fneg p.y.toNat), false⟩ := if_neg (Bool.eq_false_iff.1 h)

/-- Settles O43: none of the six has a check; negation has its two cases. -/
theorem pointMovesWriteRegisterAndFlag : Obligations.PointMovesWriteRegisterAndFlag := by
  intro s a b x y
  refine ⟨⟨_, exec_completes (i := .pset a x y) trivial, ?x, ?y, rfl⟩, exec_completes (i := .pinf a) trivial,
    exec_completes (i := .pldg a) trivial, exec_completes (i := .pget x y b) trivial,
    exec_completes (i := .pmov a b) trivial, _, exec_completes (i := .pneg a b) trivial, pneg_of_inf, fun h => ?neg⟩
  case x | y => exact toNat_ofNat_of_lt (Nat.mod_lt _ primeP_pos)
  case neg =>
    rw [pneg_of_finite h, toNat_ofNat_of_lt (fneg_lt _)]
    exact ⟨rfl, rfl, fneg_int _⟩

theorem pdbl_of_inf {p : Point} (h : p.inf = true) : pdbl p = Point.infinity := if_pos h

theorem pdbl_of_y_eq_zero {p : Point} (h : p.y = 0) : pdbl p = Point.infinity := by
  rw [pdbl, if_pos h, ite_self]

/-- The slope of the tangent in `p` (rule R166). -/
def tangentSlope (p : Point) : Nat := fmul (fmul 3 (fmul p.x.toNat p.x.toNat)) (finv (fmul 2 p.y.toNat))

theorem pdbl_of_finite {p : Point} (h : p.inf = false) (hy : p.y ≠ 0) :
    pdbl p = chordPoint (tangentSlope p) p.x.toNat p.y.toNat p.x.toNat := by
  rw [pdbl, if_neg (Bool.eq_false_iff.1 h), if_neg hy, tangentSlope]

/-- The slope of the chord through `p` and `q` (rule R167). -/
def chordSlope (p q : Point) : Nat := fmul (fsub q.y.toNat p.y.toNat) (finv (fsub q.x.toNat p.x.toNat))

theorem padd_of_inf_left {p q : Point} (h : p.inf = true) : padd p q = q := if_pos h

theorem padd_of_inf_right {p q : Point} (hp : p.inf = false) (hq : q.inf = true) : padd p q = p := by
  rw [padd, if_neg (Bool.eq_false_iff.1 hp), if_pos hq]

section Finite

variable {p q : Point} (hp : p.inf = false) (hq : q.inf = false)
include hp hq

theorem padd_of_x_eq (hx : p.x = q.x) (hy : p.y ≠ q.y) : padd p q = Point.infinity := by
  rw [padd, if_neg (Bool.eq_false_iff.1 hp), if_neg (Bool.eq_false_iff.1 hq), if_pos hx, if_pos hy]

theorem padd_of_x_ne (hx : p.x ≠ q.x) :
    padd p q = chordPoint (chordSlope p q) p.x.toNat p.y.toNat q.x.toNat := by
  rw [padd, if_neg (Bool.eq_false_iff.1 hp), if_neg (Bool.eq_false_iff.1 hq), if_neg hx, chordSlope]

end Finite

/-- Adding a finite point to itself is doubling it (rule R167). -/
theorem padd_self {p : Point} (hp : p.inf = false) : padd p p = pdbl p := by
  rw [padd, if_neg (Bool.eq_false_iff.1 hp), if_neg (Bool.eq_false_iff.1 hp), if_pos rfl, if_neg (not_ne_iff.2 rfl)]

theorem canonical_iff {p : Point} :
    p.canonical = true ↔ p.x.toNat < primeP ∧ p.y.toNat < primeP ∧ (p.inf = true → p = Point.infinity) := by
  obtain ⟨x, y, inf⟩ := p
  cases inf with
  | true => simp [Point.canonical, Point.infinity, and_assoc]
  | false => simp [Point.canonical]

/-! ### Points: what the line constructions give modulo `P` -/

/-- A residue equal to an integer in the field is that integer reduced. -/
theorem eq_emod_of_cast {v : Nat} {z : Int} (hv : v < primeP) (h : (v : FieldP) = (z : FieldP)) :
    (v : Int) = z % primeP := by
  have hmod : (v : Int) % primeP = z % primeP := (ZMod.intCast_eq_intCast_iff' _ _ _).1 (by rw [Int.cast_natCast, h])
  rwa [Int.emod_eq_of_lt (Int.natCast_nonneg v) (Int.ofNat_lt.2 hv)] at hmod

theorem toNat_chordPoint_x (lam x1 y1 x2 : Nat) :
    (chordPoint lam x1 y1 x2).x.toNat = fsub (fsub (fmul lam lam) x1) x2 := toNat_ofNat_of_lt (fsub_lt _ _)

theorem toNat_chordPoint_y (lam x1 y1 x2 : Nat) :
    (chordPoint lam x1 y1 x2).y.toNat = fsub (fmul lam (fsub x1 (chordPoint lam x1 y1 x2).x.toNat)) y1 := by
  rw [toNat_chordPoint_x]; exact toNat_ofNat_of_lt (fsub_lt _ _)

section Lines

variable [Fact primeP.Prime]

/-- A coordinate below `P` that is not 0 is not 0 in the field. -/
theorem cast_ne_zero_of_lt {v : Nat} (hv : v < primeP) (h : v ≠ 0) : (v : FieldP) ≠ 0 := by
  simpa using (cast_eq_iff hv primeP_pos).not.2 h

/-- `x3 = λ² − x1 − x2` as an integer (rules R166, R167). -/
theorem chordPoint_x_int (lam x1 y1 x2 : Nat) :
    ((chordPoint lam x1 y1 x2).x.toNat : Int) = ((lam : Int) * lam - x1 - x2) % primeP := by
  rw [toNat_chordPoint_x]
  exact eq_emod_of_cast (fsub_lt _ _) (by push_cast [cast_fsub, cast_fmul]; rfl)

/-- `y3 = λ·(x1 − x3) − y1` as an integer (rules R166, R167). -/
theorem chordPoint_y_int (lam x1 y1 x2 : Nat) :
    ((chordPoint lam x1 y1 x2).y.toNat : Int) =
      ((lam : Int) * (x1 - (chordPoint lam x1 y1 x2).x.toNat) - y1) % primeP := by
  rw [toNat_chordPoint_y]
  exact eq_emod_of_cast (fsub_lt _ _) (by push_cast [cast_fsub, cast_fmul]; rfl)

/-- The equation of the tangent's slope: `2y` has an inverse, since it is not 0 modulo `P` (rules R166, R169). -/
theorem tangentSlope_mul {p : Point} (hc : p.canonical = true) (hy : p.y ≠ 0) :
    2 * p.y.toNat * tangentSlope p % primeP = 3 * p.x.toNat * p.x.toNat % primeP := by
  obtain ⟨-, hylt, -⟩ := canonical_iff.1 hc
  have hy0 : (p.y.toNat : FieldP) ≠ 0 := cast_ne_zero_of_lt hylt fun h => hy (BitVec.eq_of_toNat_eq h)
  have h2 : (2 : FieldP) ≠ 0 := two_ne
  refine (ZMod.natCast_eq_natCast_iff' _ _ _).1 ?_
  simp only [tangentSlope, Nat.cast_mul, cast_fmul, cast_finv, Nat.cast_ofNat]
  field_simp

/-- The equation of the chord's slope: the abscissae differ modulo `P` (rules R167, R169). -/
theorem chordSlope_mul {p q : Point} (hp : p.canonical = true) (hq : q.canonical = true) (hx : p.x ≠ q.x) :
    ((q.x.toNat : Int) - p.x.toNat) * chordSlope p q % primeP = ((q.y.toNat : Int) - p.y.toNat) % primeP := by
  obtain ⟨hpx, -⟩ := canonical_iff.1 hp
  obtain ⟨hqx, -⟩ := canonical_iff.1 hq
  have hne : (q.x.toNat : FieldP) - p.x.toNat ≠ 0 :=
    sub_ne_zero.2 ((cast_eq_iff hqx hpx).not.2 fun h => hx (BitVec.eq_of_toNat_eq h.symm))
  refine (ZMod.intCast_eq_intCast_iff' _ _ _).1 ?_
  push_cast
  simp only [chordSlope, cast_fmul, cast_finv, cast_fsub]
  field_simp

end Lines

/-- Settles O44: the three cases of `pdbl`, the last with the tangent's slope. -/
theorem doublingFollowsTheTangent : Obligations.DoublingFollowsTheTangent := by
  have : Fact primeP.Prime := ⟨primeP_prime⟩
  intro s a b hc
  refine ⟨_, exec_completes (i := .pdbl a b) trivial, ?infinite, fun hfin hy => ?tangent⟩
  case infinite => exact fun h => h.elim pdbl_of_inf pdbl_of_y_eq_zero
  case tangent =>
    rw [pdbl_of_finite hfin hy]
    refine ⟨tangentSlope (s.getQ b), fmul_lt _ _, tangentSlope_mul hc hy, rfl, ?_, chordPoint_y_int _ _ _ _⟩
    rw [chordPoint_x_int, sub_sub, ← two_mul]

/-- Settles O45: the cases of `padd`, the last with the chord's slope. -/
theorem addingFollowsTheChord : Obligations.AddingFollowsTheChord := by
  have : Fact primeP.Prime := ⟨primeP_prime⟩
  intro s a b c hb hc
  refine ⟨_, exec_completes (i := .padd a b c) trivial, padd_of_inf_left, padd_of_inf_right, padd_of_x_eq,
    fun hfin heq => ?double, fun hfin hfin' hx => ?chord⟩
  case double =>
    have hadd := exec_completes (i := .padd a b c) (s := s) trivial
    rw [effect, ← heq, padd_self hfin] at hadd
    exact (exec_completes (i := .pdbl a b) trivial).trans hadd.symm
  case chord =>
    rw [padd_of_x_ne hfin hfin' hx]
    exact ⟨chordSlope (s.getQ b) (s.getQ c), fmul_lt _ _, chordSlope_mul hb hc hx, rfl, chordPoint_x_int _ _ _ _,
      chordPoint_y_int _ _ _ _⟩

/-! ### Scalar multiples (rules R168, R188) -/

/-- A scalar that is 0 modulo `N` gives the point at infinity. -/
theorem smul_eq_infinity {k : Nat} (h : k % orderN = 0) (p : Point) : smul k p = Point.infinity := by
  rw [smul, h]; rfl

/-- Settles O46: the loop is the sum of the selected doublings, and on the curve the multiple. -/
theorem pmulAddsTheSelectedDoublings : Obligations.PmulAddsTheSelectedDoublings :=
  fun _ a b c => ⟨_, exec_completes (i := .pmul a b c) trivial, smul_eq _ _, fun h => smul_eq_infinity h _,
    fun hc h => smul_eq_multiple hc h _⟩

/-! ### The key-level commands (rules R194 to R197) -/

/-- For a legal key `[k]G` is the sum of `k` copies of `G`. -/
theorem smul_generator_eq_multiple {k : Nat} (hN : k < orderN) :
    smul k Point.generator = multiple k Point.generator := by
  rw [smul_eq_multiple generator_canonical generator_onCurve, Nat.mod_eq_of_lt hN]

/-- For a legal key `[k]G` is finite (rule R194). -/
theorem smul_generator_finite {k : Nat} (h1 : 1 ≤ k) (hN : k < orderN) : (smul k Point.generator).inf = false := by
  obtain ⟨-, -, hinf⟩ := canonical_iff.1 (smul_canonical k generator_canonical)
  refine Bool.eq_false_iff.2 fun h => multiple_generator_ne_infinity h1 hN ?_
  rw [← smul_generator_eq_multiple hN, hinf h]

/-- The three parts of the uncompressed encoding, byte by byte (20_memory.md rule R53). -/
theorem uncompressed_eq (p : Point) :
    uncompressed p = 0x04 :: ((List.range 32).map (wideByte p.x) ++ (List.range 32).map (wideByte p.y)) := by
  rw [uncompressed, bytesOfWide_eq, bytesOfWide_eq]

/-- `EC.PUBKEY` of a legal key with its range in `BUF` passes its checks (rule R194). -/
theorem passes_ecPubkey {s : State} {a : QReg} {b : WReg} {c : RReg} (hr : s.getR c + 65 ≤ s.bufSize)
    (h1 : 1 ≤ (s.getW b).toNat) (hN : (s.getW b).toNat < orderN) : passes (.ecPubkey a b c) s :=
  ⟨hr, isPrivateKey_iff.2 ⟨h1, hN⟩⟩

/-- A completed write of a point register, `BUF` and the `PINF` flag. The bytes are a variable here, so that no
comparison of the two states evaluates them. -/
theorem completed_setQ_memWrite (s : State) (a : QReg) (p : Point) (off : Nat) (bs : List Byte) (inf : Bool) :
    ({ (s.setQ a p).memWrite off bs with pinf := inf } : State).completed =
      { s with
        q := s.q.set a p, pinf := inf, buf := Memory.writeBytes s.buf off bs, cc := s.cc + 1, busy := false } := rfl

/-- Settles O47: the point by the scalar multiple, its bytes by the store. -/
theorem pubkeyStoresTheUncompressedPoint : Obligations.PubkeyStoresTheUncompressedPoint := by
  intro s a b c hwf hr h1 hN
  have hexec := exec_completes (passes_ecPubkey (a := a) hr h1 hN)
  rw [effect, completed_setQ_memWrite] at hexec
  refine ⟨smul (s.getW b).toNat Point.generator, _, hexec, smul_eq _ _, smul_generator_eq_multiple hN,
    smul_generator_finite h1 hN, ?stored⟩
  case stored => rw [← uncompressed_eq]; exact Memory.stored_writeBytes hwf _ _

/-- The number of the last bytes of a string is the number of the string, reduced (00_scope.md rule R13). -/
theorem beNat_drop (bs : List Byte) (n : Nat) : beNat (bs.drop n) = beNat bs % 256 ^ (bs.length - n) := by
  conv_rhs => rw [← List.take_append_drop n bs, beNat_append, ← List.length_drop, List.take_append_drop]
  rw [Nat.mul_add_mod_self_right, Nat.mod_eq_of_lt (beNat_lt _)]

/-- The last twenty bytes of a digest in a `W` register (rule R195). -/
theorem toNat_wideOfBytes_drop_keccak256 (bs : List Byte) :
    (wideOfBytes ((keccak256 bs).drop 12)).toNat = beNat ((keccak256 bs).drop 12) :=
  toNat_wideOfBytes (by rw [List.length_drop, length_keccak256]; decide)

/-- The last twenty bytes of a digest are the digest modulo `2^160` (rule R195). -/
theorem wideOfBytes_drop_keccak256 (bs : List Byte) :
    (wideOfBytes ((keccak256 bs).drop 12)).toNat = (wideOfBytes (keccak256 bs)).toNat % 2 ^ 160 := by
  rw [toNat_wideOfBytes_drop_keccak256, beNat_drop, length_keccak256, toNat_wideOfBytes (length_keccak256 _).le]
  rfl

/-- Two completed writes of the same register differ in what it holds. -/
theorem completed_setW_eq (s : State) (a : WReg) (u v : Wide) :
    (s.setW a v).completed = { (s.setW a u).completed with w := s.w.set a v } := rfl

/-- `EC.ADDR` of 64 bytes in range (rule R195). -/
theorem exec_ecAddr {s : State} {a : WReg} {b c : RReg} (hc : s.getR c = 64) (hr : s.getR b + 64 ≤ s.bufSize) :
    exec (.ecAddr a b c) s = .next ((s.hashed (s.memRead (s.getR b) 64)).setW a
      (wideOfBytes ((keccak256 (s.memRead (s.getR b) 64)).drop 12))).completed :=
  exec_completes (i := .ecAddr a b c) ⟨hc, hr⟩

/-- Settles O48: the two commands leave the same sponge and differ in how much of the digest they write. -/
theorem addrIsTheLowPartOfTheHash : Obligations.AddrIsTheLowPartOfTheHash := by
  intro s a b c hc hr
  have hhash := exec_completes (i := .kHash a b c) (s := s) (by rwa [passes, hc])
  rw [effect, hc] at hhash
  refine ⟨_, wideOfBytes ((keccak256 (s.memRead (s.getR b) 64)).drop 12), hhash, ?addr, ?low⟩
  case addr => rw [exec_ecAddr hc hr, completed_setW_eq, State.hashed_w]
  case low =>
    rw [State.completed_getW, State.getW_setW, if_pos rfl]
    exact wideOfBytes_drop_keccak256 _

theorem drawAccepted_iff {d : Draw} : drawAccepted d ↔ isPrivateKey (drawValue d) = true := isPrivateKey_iff.symm

theorem not_drawAccepted_iff {d : Draw} : ¬ drawAccepted d ↔ isPrivateKey (drawValue d) = false := by
  rw [drawAccepted_iff, Bool.not_eq_true]

/-- A state after `EC.KEYGEN` found an answer in range (rule R196). -/
theorem exec_ecKeygen_some {s : State} {a : WReg} {k : Nat} {rest : List Draw} (h : drawKey s.draws = some (k, rest)) :
    exec (.ecKeygen a) s = .next { s with
      w := s.w.set a (BitVec.ofNat 256 k), draws := rest, cc := s.cc + 1, busy := false } := by
  rw [exec_completes (i := .ecKeygen a) ⟨k, rest, h⟩, effect, h]; rfl

/-- A state in which `EC.KEYGEN` waits (60_exceptions.md rule R295). -/
theorem exec_ecKeygen_none {s : State} {a : WReg} (h : drawKey s.draws = none) :
    exec (.ecKeygen a) s = .next { s with draws := [], busy := true } := by
  rw [exec, execEcKeygen, h]

/-- Settles O49: `drawKey` finds the first answer in range, and the register holds its 32 bytes. -/
theorem keygenTakesTheFirstDrawInRange : Obligations.KeygenTakesTheFirstDrawInRange := by
  intro s a
  refine ⟨fun bad d rest hdraws hbad hd => ?taken, fun hbad => ?waits⟩
  case taken =>
    have hkey : drawKey s.draws = some (drawValue d, rest) :=
      drawKey_some.2 ⟨bad, d, hdraws, fun e he => not_drawAccepted_iff.1 (hbad e he), drawAccepted_iff.1 hd, rfl⟩
    have hlen : d.toList.length = 32 := Vector.length_toList
    refine ⟨wideOfBytes d.toList, exec_ecKeygen_some hkey, ?_⟩
    rw [toNat_wideOfBytes hlen.le]
    obtain ⟨h1, hN⟩ := hd
    exact ⟨h1, hN, fun j hj => wideByte_wideOfBytes hlen hj⟩
  case waits => exact exec_ecKeygen_none (drawKey_none.2 fun e he => not_drawAccepted_iff.1 (hbad e he))

/-- Behind the first byte of a string just stored the rest of it is read. -/
theorem Memory.readBytes_writeBytes_cons {m : Memory} (hm : Memory.wf m = true) (off : Nat) (b : Byte)
    (bs : List Byte) :
    Memory.readBytes (Memory.writeBytes m off (b :: bs)) (off + 1) bs.length = bs :=
  Memory.readBytes_writeBytes (Memory.write_wf hm off b) (off + 1) bs

/-- Behind the first byte of a stored point stand its two coordinates (rule R194). -/
theorem readBytes_uncompressed {m : Memory} (hm : Memory.wf m = true) (off : Nat) (p : Point) :
    Memory.readBytes (Memory.writeBytes m off (uncompressed p)) (off + 1) 64 =
      (List.range 32).map (wideByte p.x) ++ (List.range 32).map (wideByte p.y) := by
  have hlen : ((List.range 32).map (wideByte p.x) ++ (List.range 32).map (wideByte p.y)).length = 64 := by simp
  have hread := Memory.readBytes_writeBytes_cons hm off 0x04
    ((List.range 32).map (wideByte p.x) ++ (List.range 32).map (wideByte p.y))
  rwa [hlen, ← uncompressed_eq] at hread

/-- An offset in `BUF` is a value of an `R` register: `BUF_SIZE` is at most 65536 (00_scope.md rule R9). -/
theorem toNat_offset {s : State} {n : Nat} (h : n < s.bufSize) : (BitVec.ofNat 16 n).toNat = n := by
  have hmax : s.bufSize ≤ 65536 := s.cfg.upper
  rw [BitVec.toNat_ofNat, Nat.mod_eq_of_lt (by omega)]

/-- The state after `LI` of an offset and of the length 64 (rule R197). -/
def State.withRange (s : State) (rx ry : RReg) (n : Nat) : State :=
  ((s.setR rx (BitVec.ofNat 16 n)).completed.setR ry 64).completed

section Range

variable {s : State} {rx ry : RReg} {n : Nat}

theorem execAll_li_li (is : List Instr) :
    execAll (.li rx (BitVec.ofNat 16 n) :: .li ry 64 :: is) s = execAll is (s.withRange rx ry n) := by
  rw [execAll_passes (i := .li rx _) trivial, execAll_passes (i := .li ry _) trivial]; rfl

theorem getR_withRange_offset (hxy : rx ≠ ry) (hn : n < s.bufSize) : (s.withRange rx ry n).getR rx = n := by
  rw [State.withRange, State.completed_getR, State.getR_setR, if_neg hxy.symm, State.completed_getR, State.getR_setR,
    if_pos rfl, toNat_offset hn]

theorem getR_withRange_length : (s.withRange rx ry n).getR ry = 64 := by
  rw [State.withRange, State.completed_getR, State.getR_setR, if_pos rfl]; rfl

/-- `EC.ADDR` right after the two `LI` that name its range (rule R197). -/
theorem execAll_li_li_ecAddr {wd : WReg} (hxy : rx ≠ ry) (hn : n + 64 ≤ s.bufSize) :
    ∃ t, execAll [.li rx (BitVec.ofNat 16 n), .li ry 64, .ecAddr wd rx ry] s = .next t ∧
      t.getW wd = wideOfBytes ((keccak256 (s.memRead n 64)).drop 12) := by
  have hoff : (s.withRange rx ry n).getR rx = n := getR_withRange_offset hxy (by omega)
  have haddr := exec_ecAddr (s := s.withRange rx ry n) (a := wd) (b := rx) getR_withRange_length (by rwa [hoff])
  rw [hoff] at haddr
  refine ⟨_, (execAll_li_li _).trans (execAll_cons haddr), ?_⟩
  rw [State.completed_getW, State.getW_setW, if_pos rfl]
  rfl

end Range

/-- `EC.PUBKEY` stores the uncompressed point at its own offset (rule R194). -/
theorem effect_ecPubkey_buf (s : State) (a : QReg) (b : WReg) (c : RReg) :
    (effect (.ecPubkey a b c) s).buf =
      Memory.writeBytes s.buf (s.getR c) (uncompressed (smul (s.getW b).toNat Point.generator)) := by
  simp only [effect, State.memWrite_buf, State.setQ_buf]

/-- Settles O50: `EC.PUBKEY` leaves `x ‖ y` behind its first byte, where `EC.ADDR` finds it. -/
theorem addressIsAFunctionOfTheKey : Obligations.AddressIsAFunctionOfTheKey := by
  intro s qa wb wd rc rx ry hxy hwf hr h1 hN
  have hpub : passes (.ecPubkey qa wb rc) s := passes_ecPubkey hr h1 hN
  have hrange : s.getR rc + 1 + 64 ≤ (effect (.ecPubkey qa wb rc) s).completed.bufSize := by
    rw [State.completed_bufSize, effect_bufSize]; omega
  obtain ⟨t, ht, hw⟩ := execAll_li_li_ecAddr (wd := wd) hxy hrange
  refine ⟨t, smul (s.getW wb).toNat Point.generator, smul_eq _ _, (execAll_passes hpub).trans ht, ?_⟩
  rw [hw, toNat_wideOfBytes_drop_keccak256, State.completed_memRead, State.memRead, effect_ecPubkey_buf,
    readBytes_uncompressed hwf]

end Sys2Proof.Machine

/-! BlockCipher (43_aes128.md): the tables and the steps of a round, the key schedule, one block, and the counter-mode
stream with its involution and its split. -/

namespace Sys2Proof.Machine

/-! ### Tables and GF(2^8) (rules R221 to R223) -/

/-- The affine map of rule R221, backwards. -/
def unAffine (v : Byte) : Byte := v.rotateLeft 1 ^^^ v.rotateLeft 3 ^^^ v.rotateLeft 6 ^^^ 0x05

/-- The affine map of rule R221, bit by bit, undoes `unAffine`. -/
theorem affine_unAffine : ∀ v : Byte, ∀ i, i < 8 → v.getLsbD i =
    ((unAffine v).getLsbD i ^^ (unAffine v).getLsbD ((i + 4) % 8) ^^ (unAffine v).getLsbD ((i + 5) % 8) ^^
      (unAffine v).getLsbD ((i + 6) % 8) ^^ (unAffine v).getLsbD ((i + 7) % 8) ^^ (0x63 : Byte).getLsbD i) := by
  decide +kernel

/-- The inverse in GF(2^8), read off the S-box, with 0 for 0 (rule R221). -/
def gfInverse (a : Byte) : Byte := unAffine (subByte a)

theorem gfInverse_zero : gfInverse 0 = 0 := by decide

theorem gfMul_gfInverse : ∀ a : Byte, a ≠ 0 → gfMul a (gfInverse a) = 1 := by decide +kernel

/-- The inverse of the inverse of a byte is the byte. -/
theorem gfInverse_gfInverse : ∀ a : Byte, gfInverse (gfInverse a) = a := by decide +kernel

/-- The S-box is a permutation (rule R221): an entry determines the inverse of its index. -/
theorem subByte_injective {a b : Byte} (h : subByte a = subByte b) : a = b := by
  have hinv : gfInverse a = gfInverse b := congrArg unAffine h
  rw [← gfInverse_gfInverse a, hinv, gfInverse_gfInverse]

theorem subByte_ne_self : ∀ a : Byte, subByte a ≠ a := by decide +kernel

theorem rcon_succ : ∀ j, j < 10 → 1 ≤ j → rcon (j + 1) = xtime (rcon j) := by decide

/-- Settles O51: the byte asked for is `gfInverse a`, and `affine_unAffine` is read at the S-box entry of `a`. -/
theorem aesTablesAreTheGeneratedOnes : Obligations.AesTablesAreTheGeneratedOnes :=
  ⟨fun a => ⟨gfInverse a, fun h => h ▸ gfInverse_zero, gfMul_gfInverse a, affine_unAffine (subByte a)⟩,
    fun _ _ => subByte_injective, subByte_ne_self, rfl, fun j h1 h10 => rcon_succ j h10 h1⟩

/-- A byte shifted left by one is its double modulo 256. -/
theorem toNat_shiftLeft_one (b : Byte) : (b <<< 1).toNat = 2 * b.toNat % 256 := by
  rw [BitVec.toNat_shiftLeft, Nat.shiftLeft_eq, Nat.mul_comm]

/-- Settles O52: the two branches of `xtime`; the examples are evaluated. -/
theorem xtimeDoublesAndReduces : Obligations.XtimeDoublesAndReduces := by
  refine ⟨fun b => ⟨fun h => ?double, fun h => ?reduce, rfl, rfl⟩, rfl, rfl, rfl, rfl⟩
  case double => rw [xtime, h, if_neg (by decide), toNat_shiftLeft_one]
  case reduce => rw [xtime, if_pos h, ← toNat_shiftLeft_one, BitVec.ofNat_toNat, BitVec.setWidth_eq]

/-! ### The steps of a round (rules R225 to R228) -/

theorem nth_subBytes (s : Block) {i : Nat} (hi : i < 16) : nth (subBytes s) i = subByte (nth s i) := nth_vecOf _ _ hi

/-- ShiftRows by row `r` and column `c` (rule R226). -/
theorem nth_shiftRows (s : Block) {r c : Nat} (hr : r < 4) (hc : c < 4) :
    nth (shiftRows s) (r + 4 * c) = nth s (r + 4 * ((c + r) % 4)) := by
  have hrow : (r + 4 * c) % 4 = r := by omega
  have hcol : (r + 4 * c) / 4 = c := by omega
  rw [shiftRows, nth_vecOf _ _ (by omega), hrow, hcol]

/-- MixColumns by row `r` and column `c`: the coefficients 2 3 1 1, from the byte's own row on (rule R227). -/
theorem nth_mixColumns (s : Block) {r c : Nat} (hr : r < 4) (hc : c < 4) :
    nth (mixColumns s) (r + 4 * c) =
      mul2 (nth s (r + 4 * c)) ^^^ mul3 (nth s ((r + 1) % 4 + 4 * c)) ^^^ nth s ((r + 2) % 4 + 4 * c) ^^^
        nth s ((r + 3) % 4 + 4 * c) := by
  have hrow : (r + 4 * c) % 4 = r := by omega
  have hcol : (r + 4 * c) / 4 = c := by omega
  rw [mixColumns, nth_vecOf _ _ (by omega), hrow, hcol]

theorem nth_addRoundKey (rk : RoundKeys) (s : Block) (r : Nat) {i : Nat} (hi : i < 16) :
    nth (addRoundKey rk s r) i = nth s i ^^^ nth (keyAt rk r) i := nth_vecOf _ _ hi

/-- The last of four terms goes to the front. -/
theorem xor_last_to_front (a b c d : Byte) : a ^^^ b ^^^ c ^^^ d = d ^^^ a ^^^ b ^^^ c := by ac_rfl

/-- Settles O54: step by step; row `r` of MixColumns is the one row of `nth_mixColumns` with its last `r` terms, which
are those of the rows before it, in front. -/
theorem aesRoundStepsByteByByte : Obligations.AesRoundStepsByteByByte := by
  refine ⟨fun s i => nth_subBytes s, ?subEx, fun s r c => nth_shiftRows s, ?shiftEx,
    fun s c hc => ⟨nth_mixColumns s (by decide) hc, ?row1, ?row2, ?row3⟩, ?mixEx,
    fun rk s r i _ => nth_addRoundKey rk s r⟩
  case subEx | shiftEx | mixEx => decide +kernel
  case row1 => exact (nth_mixColumns s (by decide) hc).trans (xor_last_to_front _ _ _ _)
  case row2 =>
    exact (nth_mixColumns s (by decide) hc).trans ((xor_last_to_front _ _ _ _).trans (xor_last_to_front _ _ _ _))
  case row3 => exact (nth_mixColumns s (by decide) hc).trans (xor_last_to_front _ _ _ _).symm

/-! ### Key schedule (rules R224, R231) -/

/-- A block that a command reads, byte by byte (rule R220). -/
theorem nth_blockAt (s : State) (off : Nat) {j : Nat} (hj : j < 16) :
    nth (s.blockAt off) j = Memory.read s.buf (off + j) := by
  rw [State.blockAt, blockOfBytes, nth_vecOf _ _ hj, State.memRead, Memory.byteAt_readBytes _ _ _ _ hj]

/-- Rotation, substitution and round constant, byte by byte (rule R224). -/
theorem nth_scheduleCore (t : KeyWord) (n : Nat) {j : Nat} (hj : j < 4) :
    nth (scheduleCore t n) j = subByte (nth t ((j + 1) % 4)) ^^^ (if j = 0 then rcon n else 0) := by
  rw [scheduleCore, nth_vecOf _ _ hj]
  split
  · subst j; rfl
  · exact BitVec.xor_zero.symm

/-- The recurrence of the schedule, byte by byte (rule R224). -/
theorem nth_wordAt_schedule_next (key : Block) {i j : Nat} (h4 : 4 ≤ i) (h44 : i < 44) (hj : j < 4) :
    nth (wordAt (schedule key) i) j = nth (wordAt (schedule key) (i - 4)) j ^^^
      if i % 4 = 0 then
        subByte (nth (wordAt (schedule key) (i - 1)) ((j + 1) % 4)) ^^^ (if j = 0 then rcon (i / 4) else 0)
      else nth (wordAt (schedule key) (i - 1)) j := by
  rw [wordAt_schedule_next key h4 h44, nth_vecOf _ _ hj]
  split
  · rw [nth_scheduleCore _ _ hj]
  · rfl

/-- Settles O53: the round keys are the words of the schedule, which begin with the key and follow the recurrence. -/
theorem keyexpFollowsTheSchedule : Obligations.KeyexpFollowsTheSchedule := by
  intro s a b hb hr
  refine ⟨keyExpand (s.blockAt (s.getR a)), exec_completes (i := .aesKeyexp a b) ⟨hb, hr⟩,
    fun i j hi hj => ?key, fun i j h4 h44 hj => ?next⟩
  case key =>
    beta_reduce
    rw [nth_keyAt_keyExpand (i := i) _ (by omega) hj, wordAt_schedule_key _ hi hj, nth_blockAt s _ (by omega)]
  case next =>
    beta_reduce
    have hw : ∀ k l, k ≤ i → l < 4 → nth (keyAt (keyExpand (s.blockAt (s.getR a))) (k / 4)) (4 * (k % 4) + l) =
        nth (wordAt (schedule (s.blockAt (s.getR a))) k) l :=
      fun k l hk hl => nth_keyAt_keyExpand _ (by omega) hl
    rw [hw i j (by omega) hj, hw (i - 4) j (by omega) hj, hw (i - 1) j (by omega) hj,
      hw (i - 1) ((j + 1) % 4) (by omega) (by omega), nth_wordAt_schedule_next _ h4 h44 hj]

/-! ### One block (rules R229, R232) -/

/-- The ten rounds written out (rule R229). -/
theorem encryptBlock_eq (rk : RoundKeys) (x : Block) :
    encryptBlock rk x = addRoundKey rk (shiftRows (subBytes ([1, 2, 3, 4, 5, 6, 7, 8, 9].foldl
      (fun z r => addRoundKey rk (mixColumns (shiftRows (subBytes z))) r) (addRoundKey rk x 0)))) 10 := rfl

/-- `AES.ENCB` with a key, the right length and both ranges in `BUF` (rule R232). -/
theorem exec_aesEncb {s : State} {a b c : RReg} (hkey : s.kvalid = true) (hc : s.getR c = 16)
    (hb : s.getR b + 16 ≤ s.bufSize) (ha : s.getR a + 16 ≤ s.bufSize) :
    exec (.aesEncb a b c) s =
      .next (s.memWrite (s.getR a) (encryptBlock s.rk (s.blockAt (s.getR b))).toList).completed :=
  exec_completes (i := .aesEncb a b c) ⟨hkey, hc, hb, ha⟩

/-- Settles O55: a store of the ten rounds of the block read. -/
theorem encbRunsTheTenRounds : Obligations.EncbRunsTheTenRounds := by
  intro s a b c hwf hkey hc hb ha
  rw [exec_aesEncb hkey hc hb ha, completed_memWrite, encryptBlock_eq]
  exact ⟨_, s.blockAt (s.getR b), _, rfl, fun j => nth_blockAt s _, rfl, Memory.stored_writeBytes hwf _ _⟩

/-! ### The counter (rules R233, R235) -/

/-- The counter loaded from 16 bytes stands for them again (20_memory.md rule R55). -/
theorem counterBlock_ofNat_beNat {bs : List Byte} (h : bs.length = 16) :
    counterBlock (BitVec.ofNat 128 (beNat bs)) = blockOfBytes bs := by
  have hlt : beNat bs < 2 ^ 128 := by simpa [h] using beNat_lt bs
  have hbytes : beBytes 16 (beNat bs) = bs := h ▸ beBytes_beNat bs
  rw [counterBlock, BitVec.toNat_ofNat, Nat.mod_eq_of_lt hlt, hbytes]

/-- Settles O56: the counter's bytes are those of the block read; `AES.CLR` has no check. -/
theorem setctrAndClr : Obligations.SetctrAndClr := by
  intro s
  refine ⟨fun a b hb hr => ⟨BitVec.ofNat 128 (beNat (s.memRead (s.getR a) 16)),
      exec_completes (i := .aesSetctr a b) ⟨hb, hr⟩, fun j hj => ?byte⟩,
    exec_completes (i := .aesClr) trivial⟩
  case byte => rw [← nth_counterBlock _ hj, counterBlock_ofNat_beNat (s.length_memRead _ _)]; exact nth_blockAt s _ hj

/-! ### Counter mode (rules R230, R234) -/

/-- The counter after `n` blocks (rule R230). -/
theorem toNat_ctrStream_snd (rk : RoundKeys) (ctr : Counter) (data : List Byte) :
    (ctrStream rk ctr data).2.toNat = (ctr.toNat + (data.length + 15) / 16) % 2 ^ 128 := by
  rw [ctrStream, BitVec.toNat_add, BitVec.toNat_ofNat, Nat.add_mod_mod, blocksOf]

/-- Output and counter of a stream, as long as the data. -/
theorem length_of_ctrStream_eq {rk : RoundKeys} {ctr v : Counter} {data out : List Byte}
    (h : ctrStream rk ctr data = (out, v)) : out.length = data.length := by
  rw [← length_ctrStream rk ctr data, h]

/-- The state after an `AES.CTRX` that stores `out` at `off` and leaves the counter `v`. Both are variables here, so
that no comparison of two states evaluates the stream. -/
def State.streamed (s : State) (off : Nat) (out : List Byte) (v : Counter) : State :=
  { s with buf := Memory.writeBytes s.buf off out, ctr := v, cc := s.cc + 1, busy := false }

/-- `AES.CTRX` with a key and both ranges in `BUF` (rule R234). -/
theorem exec_aesCtrx {s : State} {a b c : RReg} {out : List Byte} {v : Counter} (hkey : s.kvalid = true)
    (hb : s.getR b + s.getR c ≤ s.bufSize) (ha : s.getR a + s.getR c ≤ s.bufSize)
    (hstream : ctrStream s.rk s.ctr (s.memRead (s.getR b) (s.getR c)) = (out, v)) :
    exec (.aesCtrx a b c) s = .next (s.streamed (s.getR a) out v) := by
  rw [exec_completes (i := .aesCtrx a b c) ⟨hkey, hb, ha⟩, effect, hstream]
  rfl

/-- Settles O57: the stream of the bytes read, byte by byte, stored as a whole. -/
theorem ctrxXorsTheKeystream : Obligations.CtrxXorsTheKeystream := by
  intro s a b c hwf hkey hb ha
  have hlen : (s.memRead (s.getR b) (s.getR c)).length = s.getR c := s.length_memRead _ _
  refine ⟨_, _, _, exec_aesCtrx hkey hb ha Prod.mk.eta.symm, ?counter, ?length, Memory.stored_writeBytes hwf _ _,
    fun j x hj hx => ?byte⟩
  case counter => rw [toNat_ctrStream_snd, hlen]
  case length => rw [length_ctrStream, hlen]
  case byte =>
    have hblock : x = counterBlock (s.ctr + BitVec.ofNat 128 (j / 16)) :=
      vec_ext_nth fun i hi => by rw [hx i hi, nth_counterBlock _ hi]
    rw [byteAt_ctrStream _ _ _ (by rwa [hlen]), hblock, State.memRead, Memory.byteAt_readBytes _ _ _ _ hj]

/-- The stream applied to its own output restores the data and ends at the same counter (rule R234). -/
theorem ctrStream_ctrStream (rk : RoundKeys) (ctr : Counter) (data : List Byte) :
    ctrStream rk ctr (ctrStream rk ctr data).1 = (data, (ctrStream rk ctr data).2) := by
  have hlen := length_ctrStream rk ctr data
  refine Prod.ext (bytes_ext ?length fun j hj => ?byte) ?counter
  case length => rw [length_ctrStream, hlen]
  case byte =>
    rw [length_ctrStream, hlen] at hj
    rw [byteAt_ctrStream _ _ _ (by rwa [hlen]), byteAt_ctrStream _ _ _ hj, BitVec.xor_assoc, BitVec.xor_self,
      BitVec.xor_zero]
  case counter => exact congrArg (fun n => ctr + BitVec.ofNat 128 (blocksOf n)) hlen

/-- Of two strings of one length stored at one place the second stays. -/
theorem Memory.writeBytes_writeBytes {m : Memory} (hm : Memory.wf m = true) (off : Nat) {as bs : List Byte}
    (h : as.length = bs.length) :
    Memory.writeBytes (Memory.writeBytes m off as) off bs = Memory.writeBytes m off bs := by
  have hm' := Memory.writeBytes_wf hm off as
  refine Memory.ext (Memory.writeBytes_wf hm' off bs) (Memory.writeBytes_wf hm off bs) fun x => ?_
  rw [Memory.read_writeBytes hm', Memory.read_writeBytes hm, Memory.read_writeBytes hm, h]
  split <;> rfl

/-- Settles O58: the second command reads the output of the first and stores the data over it. -/
theorem ctrxTwiceInPlaceRestoresTheData : Obligations.CtrxTwiceInPlaceRestoresTheData := by
  intro s a c hwf hkey hr
  obtain ⟨out, v, hstream⟩ : ∃ out v, ctrStream s.rk s.ctr (s.memRead (s.getR a) (s.getR c)) = (out, v) :=
    ⟨_, _, rfl⟩
  have hlen : out.length = s.getR c := (length_of_ctrStream_eq hstream).trans (s.length_memRead _ _)
  have hback : ctrStream s.rk s.ctr out = (s.memRead (s.getR a) (s.getR c), v) := by
    have h := ctrStream_ctrStream s.rk s.ctr (s.memRead (s.getR a) (s.getR c))
    rwa [hstream] at h
  have hread : Memory.readBytes (Memory.writeBytes s.buf (s.getR a) out) (s.getR a) (s.getR c) = out := by
    rw [← hlen]; exact Memory.readBytes_writeBytes hwf _ _
  have hagain := (congrArg (ctrStream s.rk s.ctr) hread).trans hback
  refine ⟨_, _, exec_aesCtrx hkey hr hr hstream, exec_aesCtrx hkey hr hr hagain, ?restored, rfl⟩
  case restored =>
    exact (Memory.writeBytes_writeBytes hwf _ (hlen.trans (s.length_memRead _ _).symm)).trans
      (Memory.writeBytes_readBytes hwf _ _)

/-! ### A stream in two parts (rules R234, R315) -/

/-- The loop over the blocks of `x` and then over those of `y`, by induction on the number of the former. -/
theorem ctrBlocks_append (rk : RoundKeys) (m n : Nat) (ctr : Counter) (x y : List Byte) (hx : x.length = 16 * m) :
    ctrBlocks rk (m + n) ctr (x ++ y) = ctrBlocks rk m ctr x ++ ctrBlocks rk n (ctr + BitVec.ofNat 128 m) y := by
  induction m generalizing ctr x with
  | zero =>
    obtain rfl : x = [] := List.eq_nil_of_length_eq_zero hx
    rw [Nat.zero_add, BitVec.add_zero]
    rfl
  | succ m ih =>
    have hfull : 16 ≤ x.length := by omega
    have hctr : ctr + 1 + BitVec.ofNat 128 m = ctr + BitVec.ofNat 128 (m + 1) := by
      rw [BitVec.add_assoc, Nat.add_comm m, BitVec.ofNat_add]; rfl
    rw [Nat.succ_add, ctrBlocks, ctrBlocks, List.take_append_of_le_length hfull,
      List.drop_append_of_le_length hfull, ih _ _ (by rw [List.length_drop]; omega), hctr, List.append_assoc]

/-- The stream is split after a multiple of 16 bytes (rule R315). -/
theorem ctrStream_append (rk : RoundKeys) (ctr : Counter) {x : List Byte} (hx : x.length % 16 = 0) (y : List Byte) :
    ctrStream rk ctr (x ++ y) =
      ((ctrStream rk ctr x).1 ++ (ctrStream rk (ctrStream rk ctr x).2 y).1,
        (ctrStream rk (ctrStream rk ctr x).2 y).2) := by
  have hfull : x.length = 16 * blocksOf x.length := by unfold blocksOf; omega
  have hsum : blocksOf (x ++ y).length = blocksOf x.length + blocksOf y.length := by
    rw [List.length_append]; unfold blocksOf; omega
  refine Prod.ext ?output ?counter
  case output => rw [ctrStream, hsum]; exact ctrBlocks_append rk _ _ ctr x y hfull
  case counter => rw [ctrStream, hsum, BitVec.ofNat_add, ← BitVec.add_assoc]; rfl

/-- Bytes apart from a store are read as before. -/
theorem Memory.readBytes_writeBytes_apart {m : Memory} (hm : Memory.wf m = true) {off src n : Nat} {bs : List Byte}
    (h : ∀ x, off ≤ x → x < off + bs.length → x < src ∨ src + n ≤ x) :
    Memory.readBytes (Memory.writeBytes m off bs) src n = Memory.readBytes m src n := by
  refine List.map_congr_left fun i hi => ?_
  have hin : i < n := List.mem_range.1 hi
  rw [Memory.read_writeBytes hm, if_neg fun hx => ?_]
  obtain hlt | hge := h _ hx.1 hx.2 <;> omega

/-- A second store right behind the first: the two stores are one of both strings, and two commands are counted. -/
theorem streamed_streamed (s : State) (off : Nat) (out out' : List Byte) (v v' : Counter) :
    (s.streamed off out v).streamed (off + out.length) out' v' =
      { s.streamed off (out ++ out') v' with cc := s.cc + 2 } := by
  simp only [State.streamed]
  rw [Memory.writeBytes_append, add_one_add_one]

/-- Settles O59: the first command stores the first part of the output and leaves the counter from which the second
makes the rest, of source bytes the first left alone. -/
theorem streamSplitsAtBlockBoundaries : Obligations.StreamSplitsAtBlockBoundaries := by
  refine ⟨fun s a b c d e f g hwf hkey hfull hd he hg ha hb hapart => ?commands,
    fun rk ctr x y hx => ctrStream_append rk ctr hx y⟩
  case commands =>
    obtain ⟨out, v, hfirst⟩ : ∃ out v, ctrStream s.rk s.ctr (s.memRead (s.getR b) (s.getR c)) = (out, v) :=
      ⟨_, _, rfl⟩
    obtain ⟨out', v', hrest⟩ : ∃ out' v', ctrStream s.rk v (s.memRead (s.getR e) (s.getR f)) = (out', v') :=
      ⟨_, _, rfl⟩
    have hlen : out.length = s.getR c := (length_of_ctrStream_eq hfirst).trans (s.length_memRead _ _)
    have hwhole : ctrStream s.rk s.ctr (s.memRead (s.getR b) (s.getR g)) = (out ++ out', v') := by
      have hread : s.memRead (s.getR b) (s.getR g) =
          s.memRead (s.getR b) (s.getR c) ++ s.memRead (s.getR e) (s.getR f) := by
        rw [hg, he]; exact Memory.readBytes_append _ _ _ _
      rw [hread, ctrStream_append _ _ (by rwa [s.length_memRead]), hfirst, hrest]
    have hsource : (s.streamed (s.getR a) out v).memRead (s.getR e) (s.getR f) = s.memRead (s.getR e) (s.getR f) :=
      Memory.readBytes_writeBytes_apart hwf fun x h1 h2 => by have := hapart x h1 (by omega); omega
    have hsecond : exec (.aesCtrx d e f) (s.streamed (s.getR a) out v) =
        .next ((s.streamed (s.getR a) out v).streamed (s.getR d) out' v') :=
      exec_aesCtrx hkey (show s.getR e + s.getR f ≤ s.bufSize by omega) (show s.getR d + s.getR f ≤ s.bufSize by omega)
        ((congrArg (ctrStream s.rk v) hsource).trans hrest)
    refine ⟨_, exec_aesCtrx hkey hb ha hwhole, ?_⟩
    rw [execAll_cons (exec_aesCtrx hkey (by omega) (by omega) hfirst), execAll_cons hsecond, execAll_nil, hd, ← hlen,
      streamed_streamed]

end Sys2Proof.Machine

/-! The faults of the engine (60_exceptions.md): which kinds a command can raise, which of several failing checks decides
the kind, and the one command that may wait. -/

namespace Sys2Proof.Machine

/-! ### The kinds a command can raise (rules R280, R284, R285) -/

/-- The latch of a command that passes its checks: kept, or zeroed by `CLRERR` (rule R287). -/
theorem effect_latch_cases (i : Instr) (s : State) :
    ((effect i s).err = s.err ∧ (effect i s).errcode = s.errcode ∧ (effect i s).errcmd = s.errcmd) ∨
      (i = .clrerr ∧ (effect i s).err = false ∧ (effect i s).errcode = 0 ∧ (effect i s).errcmd = 0) := by
  by_cases hi : i = .clrerr
  · subst hi
    exact .inr ⟨rfl, rfl, rfl, rfl⟩
  · exact .inl (effect_latch hi s)

/-- Settles O15, by the four ways a command can end; the fault of an ill-formed `K.ROUND` is no well-formed command's. -/
theorem onlyListedFaultsAreRaised : Obligations.OnlyListedFaultsAreRaised := by
  refine ⟨rfl, fun i s hwf => ?_⟩
  obtain ⟨t, ht⟩ := exec_total i s
  refine ⟨t, ht, ?_⟩
  rcases exec_cases ht with ⟨k, hk | ⟨hill, -⟩, rfl⟩ | ⟨rfl, rfl⟩ | ⟨-, -, rfl⟩ | ⟨-, rfl⟩
  · exact .inl ⟨k, hk, rfl⟩
  · exact absurd hwf (Bool.eq_false_iff.1 hill)
  · exact .inr (.inr ⟨.inr rfl, rfl, rfl, rfl⟩)
  · exact .inr (.inl ⟨rfl, rfl, rfl⟩)
  · obtain hkept | ⟨rfl, hzero⟩ := effect_latch_cases i s
    · exact .inr (.inl hkept)
    · exact .inr (.inr ⟨.inl rfl, hzero⟩)

/-! ### The command that waits (rules R295, R196) -/

/-- Settles O20: of the four ways a command can end only the waiting `EC.KEYGEN` leaves the port busy, and its answers at
hand are all out of range by `drawKey_none`. -/
theorem onlyKeygenWaits : Obligations.OnlyKeygenWaits := by
  intro i s t h hbusy
  rcases exec_cases h with ⟨k, -, rfl⟩ | ⟨-, rfl⟩ | ⟨hi, hnone, rfl⟩ | ⟨-, rfl⟩
  · exact absurd hbusy Bool.false_ne_true
  · exact absurd hbusy Bool.false_ne_true
  · exact ⟨hi, fun d hd => not_drawAccepted_iff.2 (drawKey_none.1 hnone d hd)⟩
  · exact absurd hbusy Bool.false_ne_true

/-! ### The order of the checks (rule R283) -/

/-- With two ranges to check, either of them out of range is `BufferRange`. -/
theorem checkRange_checkRange_fail {off n off' n' : Nat} {s : State}
    (h : s.bufSize < off + n ∨ s.bufSize < off' + n') (go : Result) :
    checkRange off n s (checkRange off' n' s go) = .next (s.takeFault .bufferRange) := by
  obtain hfirst | hfirst := Nat.lt_or_ge s.bufSize (off + n)
  · exact checkRange_fail hfirst _
  · rw [checkRange_ok hfirst]
    exact checkRange_fail (h.resolve_left (Nat.not_lt.2 hfirst)) go

/-- `EC.PUBKEY` of a register that holds no private key, its output in range (rule R194). -/
theorem exec_ecPubkey_badKey {s : State} {q : QReg} {w : WReg} {c : RReg} (hr : s.getR c + 65 ≤ s.bufSize)
    (hk : (s.getW w).toNat = 0 ∨ orderN ≤ (s.getW w).toNat) :
    exec (.ecPubkey q w c) s = .next (s.takeFault .invalidPrivateKey) :=
  (checkRange_ok hr _).trans (if_neg fun hkey => by
    obtain ⟨h1, hN⟩ := isPrivateKey_iff.1 hkey
    omega)

/-- Settles O16: the checks of each command are passed up to the one that fails, in the order in which it makes them. -/
theorem firstFailingCheckDecidesTheFault : Obligations.FirstFailingCheckDecidesTheFault := by
  intro s a b c q w
  refine ⟨?absorbPhase, ?absorbRange, ?addrLength, ?addrRange, ?pubkeyRange, exec_ecPubkey_badKey, ?keyexpLength,
    ?keyexpRange, ?setctrLength, ?setctrRange, ?encbPhase, ?encbLength, ?encbRange, ?ctrxPhase, ?ctrxRange⟩
  case absorbPhase => exact fun hfin => needKfin_fail (by simp [hfin]) _
  case absorbRange => exact fun hfin hr => (needKfin_ok hfin _).trans (checkRange_fail hr _)
  case addrLength | keyexpLength | setctrLength => exact fun hlen => checkLength_fail hlen _
  case addrRange | keyexpRange | setctrRange =>
    exact fun hlen hr => (checkLength_ok hlen _).trans (checkRange_fail hr _)
  case pubkeyRange => exact fun hr => checkRange_fail hr _
  case encbPhase | ctrxPhase => exact fun hkey => needKey_fail hkey _
  case encbLength => exact fun hkey hlen => (needKey_ok hkey _).trans (checkLength_fail hlen _)
  case encbRange =>
    exact fun hkey hlen hr =>
      (needKey_ok hkey _).trans ((checkLength_ok hlen _).trans (checkRange_checkRange_fail hr _))
  case ctrxRange => exact fun hkey hr => (needKey_ok hkey _).trans (checkRange_checkRange_fail hr _)

end Sys2Proof.Machine
